-- ==== Sys2Proof/Word.lean ====
section
/-! DEFINITION. The values the core computes with: exact real numbers (`RNum`), stereo frames, clock
stamps, and the meaning of an `RNum` as a real number. -/

namespace Sys2Proof

/-- The opcode byte of a command (rules R13, R70). -/
abbrev Byte := BitVec 8

/-- The type `Num` of rules R9 and R11: an exact real number of the ideal semantics, held as the closed
expression that defines it, so that it is plain data. Rational values are literals; π, the real
parameters and the white samples are symbols; every other constructor is one real operation of rule R9.
Which real it is: `RNum.eval`. (notes/assumptions/1.md, 3.md, 4.md: DESIGN CHOICE.) -/
inductive RNum where
  /-- the rational number `q` -/
  | lit (q : Rat)
  /-- the real number π -/
  | pi
  /-- the parameter `SR`, the sample rate in hertz (rule R7) -/
  | sr
  /-- the parameter `MIN_DB` (rule R7) -/
  | minDb
  /-- the parameter `MAX_DB` (rule R7) -/
  | maxDb
  /-- the parameter `ALPHA`, the smoothing coefficient (rule R7) -/
  | alpha
  /-- the white sample of draw number `draw`, a free value in `[-1, 1]` (rule R135) -/
  | white (draw : Nat)
  | sum (a b : RNum)
  | diff (a b : RNum)
  | prod (a b : RNum)
  | quot (a b : RNum)
  | sinOf (a : RNum)
  | cosOf (a : RNum)
  | sqrtOf (a : RNum)
  | log10Of (a : RNum)
  | floorOf (a : RNum)
  | minOf (a b : RNum)
  | maxOf (a b : RNum)
  /-- `x` if `a <= b`, else `y`: the data-dependent selects of rule R196 -/
  | select (a b x y : RNum)
  deriving DecidableEq, Repr, Inhabited

/-- A frame: one stereo sample pair (rule R11). -/
structure Frame where
  left : RNum
  right : RNum
  deriving DecidableEq, Repr, Inhabited

/-- Silence is the frame `(0, 0)` (rule R11). -/
def Frame.silence : Frame := ⟨.lit 0, .lit 0⟩

/-- A value of the register `Q.tick_time` (rule R28): the clock value of one draw, or the unspecified
value the register holds after reset or `FIFO_CLEAR` (rules R36, R111). (notes/assumptions/5.md.) -/
inductive Stamp where
  /-- the clock value of draw number `draw` (rule R114) -/
  | reading (draw : Nat)
  /-- a value nothing constrains, the `k`th such -/
  | unspecified (k : Nat)
  deriving DecidableEq, Repr, Inhabited

/-- The reals the rules leave open: the real parameters of rule R7 and the draws of rules R114 and R135.
Fixed for a run; every statement about values holds for every valid `Env`. -/
structure Env where
  sr : ℝ
  minDb : ℝ
  maxDb : ℝ
  alpha : ℝ
  white : Nat → ℝ
  clock : Nat → ℝ
  anyTime : Nat → ℝ
  deriving Inhabited

/-- The constraints of rule R7 on the real parameters, the range of a white sample (rule R135) and the
monotonicity of the clock draws (rules R28, R219). -/
structure Env.Valid (ρ : Env) : Prop where
  sr_pos : 0 < ρ.sr
  db_order : ρ.minDb < ρ.maxDb
  alpha_nonneg : 0 ≤ ρ.alpha
  alpha_lt_one : ρ.alpha < 1
  white_range : ∀ k, -1 ≤ ρ.white k ∧ ρ.white k ≤ 1
  clock_mono : Monotone ρ.clock

/-- The real number an `RNum` is, under the ideal semantics of rule R9: each operation has its
mathematical meaning. (Mathlib's operations are total; no rule leaves their usual domain:
notes/assumptions/15.md.) -/
noncomputable def RNum.eval (ρ : Env) : RNum → ℝ
  | .lit q => (q : ℝ)
  | .pi => Real.pi
  | .sr => ρ.sr
  | .minDb => ρ.minDb
  | .maxDb => ρ.maxDb
  | .alpha => ρ.alpha
  | .white k => ρ.white k
  | .sum a b => a.eval ρ + b.eval ρ
  | .diff a b => a.eval ρ - b.eval ρ
  | .prod a b => a.eval ρ * b.eval ρ
  | .quot a b => a.eval ρ / b.eval ρ
  | .sinOf a => Real.sin (a.eval ρ)
  | .cosOf a => Real.cos (a.eval ρ)
  | .sqrtOf a => Real.sqrt (a.eval ρ)
  | .log10Of a => Real.logb 10 (a.eval ρ)
  | .floorOf a => ((⌊a.eval ρ⌋ : ℤ) : ℝ)
  | .minOf a b => min (a.eval ρ) (b.eval ρ)
  | .maxOf a b => max (a.eval ρ) (b.eval ρ)
  | .select a b x y => if a.eval ρ ≤ b.eval ρ then x.eval ρ else y.eval ρ

/-- The clock value a stamp is: an element of the ordered set `Time` of rule R28, here ℝ. -/
def Stamp.eval (ρ : Env) : Stamp → ℝ
  | .reading k => ρ.clock k
  | .unspecified k => ρ.anyTime k

end Sys2Proof
end

