-- ==== Sys2Proof/Config.lean ====
section
/-! DEFINITION. What an implementation fixes: the size parameters and switches of rule R7, the named
constants of rule R8, and the open values, which are opaque. -/

namespace Sys2Proof

/-- `LADDER_ORDER` (rules R7, R168): which value of stage `i-1` feeds stage `i`. -/
inductive LadderOrder where
  | sequential
  | simultaneous
  deriving DecidableEq, Repr, Inhabited

/-- `SAT_SCALE` (rules R7, R167): what the factor `1 + 0.3 r` multiplies. -/
inductive SatScale where
  | output
  | input
  deriving DecidableEq, Repr, Inhabited

/-- `HANN_DENOM` (rules R7, R183): the denominator `D` of the Hann window's cosine argument. -/
inductive HannDenom where
  /-- `D = N - 1` -/
  | symmetric
  /-- `D = N` -/
  | periodic
  deriving DecidableEq, Repr, Inhabited

/-- The size parameters and switches of rule R7. The transform size is `N = 2 ^ fftExp`. -/
structure Config where
  capacity : Nat
  minFill : Nat
  blockFrames : Nat
  fftExp : Nat
  pinkTaps : Nat
  ladderOrder : LadderOrder
  satScale : SatScale
  hannDenom : HannDenom
  deriving DecidableEq, Repr, Inhabited

/-- `N`, the transform size: a power of two (rules R7, R180). -/
def Config.fftSize (c : Config) : Nat := 2 ^ c.fftExp

/-- `N/2`, the index of the last bin (rule R180). -/
def Config.lastBin (c : Config) : Nat := c.fftSize / 2

/-- `N/2 + 1`, the number of output bins (rule R180). -/
def Config.bins (c : Config) : Nat := c.lastBin + 1

/-- `D` of rule R183. -/
def Config.hannD (c : Config) : Nat :=
  match c.hannDenom with
  | .symmetric => c.fftSize - 1
  | .periodic => c.fftSize

/-- The constraints of rule R7 (and of rule R183 for `N = 2`). A configuration that breaks one is not a
machine of the spec (rule R206, 93_implementation_defined.md U15). -/
def Config.valid (c : Config) : Bool :=
  decide (1 ≤ c.capacity) && decide (c.minFill ≤ c.capacity) && decide (1 ≤ c.blockFrames) &&
    decide (1 ≤ c.fftExp) && decide (1 ≤ c.pinkTaps) &&
    match c.hannDenom with
    | .symmetric => decide (2 ≤ c.fftExp)
    | .periodic => true

/-- The configuration of 95_test_vectors.md (its sections V-FIFO, P1, P2, V-OSC-G, V-SPA), with the
defaults of rule R7 for the switches. Used by tests, and as the value `Config.current` takes where the
open values break the constraints; no default of the hardware. -/
def Config.vectors : Config where
  capacity := 8
  minFill := 2
  blockFrames := 4
  fftExp := 3
  pinkTaps := 4
  ladderOrder := .sequential
  satScale := .output
  hannDenom := .symmetric

/-- The OPEN parameters of rule R7 as the implementation sets them: no value is known of them
(notes/assumptions/2.md). -/
opaque Config.raw : Config

/-- The configuration of this machine: an arbitrary one that meets the constraints of rule R7. -/
def Config.current : Config := if Config.raw.valid then Config.raw else Config.vectors

/-- The real parameters and the draws of this machine's run: no value is known of them
(notes/assumptions/3.md, 4.md, 5.md). -/
opaque Config.rawEnv : Env

/-- A valid choice of the real parameters and draws, used where `Config.rawEnv` breaks a constraint. -/
noncomputable def Config.vectorsEnv : Env where
  sr := 8000
  minDb := -80
  maxDb := 0
  alpha := 7 / 10
  white := fun _ => 0
  clock := fun _ => 0
  anyTime := fun _ => 0

open Classical in
/-- The real parameters and draws of this machine: an arbitrary valid choice. -/
noncomputable def Config.env : Env := if Config.rawEnv.Valid then Config.rawEnv else Config.vectorsEnv

/-- The real number a register of this machine holds. Statements quantify over every valid `Env`
instead, which says more. -/
noncomputable def RNum.val (x : RNum) : ℝ := x.eval Config.env

/-- The clock value a stamp of this machine is. -/
noncomputable def Stamp.val (t : Stamp) : ℝ := t.eval Config.env

/-! The named constants of rule R8, at the values the rules use (notes/assumptions/16.md). -/

namespace Const

def dutyMin : RNum := .lit (1 / 10)
def dutyMax : RNum := .lit (9 / 10)
def cutoffMinHz : RNum := .lit 20
def cutoffMaxHz : RNum := .lit 20000
def cutoffFloorRatio : RNum := .lit (5 / 10000)
def fNormMax : RNum := .lit (499 / 1000)
def fbScale : RNum := .lit (38 / 10)
/-- `K_SCALE = 4π` is this factor times π. -/
def kScaleFactor : RNum := .lit 4
def compScale : RNum := .lit (1 / 10)
def satA : RNum := .lit 27
def satB : RNum := .lit 9
def satBlend : RNum := .lit (3 / 10)
def magFloor : RNum := .lit (1 / 1000000)
def dbScale : RNum := .lit 20

end Const

end Sys2Proof
end

