-- ==== Sys2Proof/Syntax.lean ====
section
/-! DEFINITION. The commands: waveform kinds, operands as the port carries them, and `Instr`, one
constructor per row of spec/opcode_table.json. -/

namespace Sys2Proof

/-- The five waveform kinds (rules R11, R73). -/
inductive Kind where
  | sine
  | square
  | saw
  | triangle
  | pink
  deriving DecidableEq, Repr, Inhabited

/-- The agents that issue commands (rule R10). -/
inductive Agent where
  | ctrl
  | gen
  | cons
  | disp
  | host
  deriving DecidableEq, Repr, Inhabited

/-- A `NUM` operand as the port carries it (rule R72): a finite real, or a word that denotes no finite
real (an infinity or a NaN of a floating-point `NUM`), which is a bad operand (rule R203).
(notes/assumptions/10.md.) -/
inductive NumWord where
  | finite (x : RNum)
  | nonFinite
  deriving DecidableEq, Repr, Inhabited

/-- One word at the command port, of the type rule R72 gives it. A `FRAMES(n)` operand is `2 * n` `num`
words; results have the same types (rule R80). -/
inductive Operand where
  | num (w : NumWord)
  | nat (n : Nat)
  | kind (code : BitVec 3)
  deriving DecidableEq, Repr, Inhabited

/-- The commands with their operands (rule R74). A `KIND` operand is its 3-bit code; a `FRAMES` operand
is its words in the order left, right, left, right, ... (rule R72). -/
inductive Instr where
  | setWaveform (kind : BitVec 3)
  | setFreq (frequency : NumWord)
  | setAmp (amplitude : NumWord)
  | setDuty (dutyCycle : NumWord)
  | setFm (fmFreq fmDepth : NumWord)
  | setAm (amFreq amDepth : NumWord)
  | setDcm (dcmFreq dcmDepth : NumWord)
  | setFilter (cutoff resonance : NumWord)
  | setCutoffLfo (freq amount : NumWord)
  | setResLfo (freq amount : NumWord)
  | fifoClear
  | fifoWrite (n : Nat) (data : List NumWord)
  | fifoRead (n : Nat)
  | fifoLevel
  | oscReset
  | oscSnap
  | oscSample
  | oscBlock
  | fltReset
  | fltStep (input cutoff resonance : NumWord)
  | spaInit
  | spaProcess (count : Nat) (buffer : List NumWord)
  | spaF2b (f : NumWord)
  | spaB2f (b : NumWord)
  | spaRead (k : Nat)
  deriving DecidableEq, Repr, Inhabited

/-- The 25 opcodes of rule R74, each named as its command. -/
inductive Opcode where
  | setWaveform
  | setFreq
  | setAmp
  | setDuty
  | setFm
  | setAm
  | setDcm
  | setFilter
  | setCutoffLfo
  | setResLfo
  | fifoClear
  | fifoWrite
  | fifoRead
  | fifoLevel
  | oscReset
  | oscSnap
  | oscSample
  | oscBlock
  | fltReset
  | fltStep
  | spaInit
  | spaProcess
  | spaF2b
  | spaB2f
  | spaRead
  deriving DecidableEq, Repr, Inhabited

/-- The opcode of a command. -/
def Instr.opcode : Instr → Opcode
  | .setWaveform _ => .setWaveform
  | .setFreq _ => .setFreq
  | .setAmp _ => .setAmp
  | .setDuty _ => .setDuty
  | .setFm _ _ => .setFm
  | .setAm _ _ => .setAm
  | .setDcm _ _ => .setDcm
  | .setFilter _ _ => .setFilter
  | .setCutoffLfo _ _ => .setCutoffLfo
  | .setResLfo _ _ => .setResLfo
  | .fifoClear => .fifoClear
  | .fifoWrite _ _ => .fifoWrite
  | .fifoRead _ => .fifoRead
  | .fifoLevel => .fifoLevel
  | .oscReset => .oscReset
  | .oscSnap => .oscSnap
  | .oscSample => .oscSample
  | .oscBlock => .oscBlock
  | .fltReset => .fltReset
  | .fltStep _ _ _ => .fltStep
  | .spaInit => .spaInit
  | .spaProcess _ _ => .spaProcess
  | .spaF2b _ => .spaF2b
  | .spaB2f _ => .spaB2f
  | .spaRead _ => .spaRead

/-- The operand types of rule R72. -/
inductive OperandType where
  | num
  | nat
  | kind
  /-- `FRAMES(n)`, `n` being the `NAT` operand before it; always the last operand of its command -/
  | frames
  deriving DecidableEq, Repr, Inhabited

end Sys2Proof
end

