-- ==== Sys2Proof/Machine/State.lean ====
section
/-! DEFINITION. The state of the core (10_state.md, rule R199), the outputs of a step, the reasons a step
can stop, the state after reset (rule R36), and one named update per part of the state. -/

namespace Sys2Proof.Machine

/-- A memory space (rule R50): its listed elements as (index, value) pairs. The canonical form and what an
unlisted element reads as: `Memory.wf`, `Memory.read` in Machine/Ops.lean. -/
abbrev Memory (α : Type) := List (Nat × α)

/-- The seven memory spaces (rule R50). -/
inductive Space where
  | store
  | pink
  | win
  | scratch
  | xf
  | raw
  | smooth
  deriving DecidableEq, Repr, Inhabited

/-- The pending parameters `P` (rule R21): sixteen registers, in the order of their numbers 0 to 15.
`none` is the spec's own state *unwritten*: the register holds no value (rule R23;
notes/assumptions/9.md). -/
structure PendingParams where
  waveform : Option Kind
  frequency : Option RNum
  amplitude : Option RNum
  dutyCycle : Option RNum
  fmFreq : Option RNum
  fmDepth : Option RNum
  amFreq : Option RNum
  amDepth : Option RNum
  dcmFreq : Option RNum
  dcmDepth : Option RNum
  cutoff : Option RNum
  resonance : Option RNum
  cutoffLfoFreq : Option RNum
  cutoffLfoAmount : Option RNum
  resLfoFreq : Option RNum
  resLfoAmount : Option RNum
  deriving DecidableEq, Repr

/-- The sixteen parameter values of a written snapshot `S` (rule R22). -/
structure Params where
  waveform : Kind
  frequency : RNum
  amplitude : RNum
  dutyCycle : RNum
  fmFreq : RNum
  fmDepth : RNum
  amFreq : RNum
  amDepth : RNum
  dcmFreq : RNum
  dcmDepth : RNum
  cutoff : RNum
  resonance : RNum
  cutoffLfoFreq : RNum
  cutoffLfoAmount : RNum
  resLfoFreq : RNum
  resLfoAmount : RNum
  deriving DecidableEq, Repr

/-- The oscillator state `O` (rules R24, R25). -/
structure OscState where
  phase : RNum
  fmPhase : RNum
  amPhase : RNum
  dcmPhase : RNum
  pinkSum : RNum
  pinkIdx : Nat
  deriving DecidableEq, Repr

/-- The filter state `F` (rule R26). -/
structure FltState where
  delay0 : RNum
  delay1 : RNum
  delay2 : RNum
  delay3 : RNum
  cutoffMod : RNum
  resMod : RNum
  cutoffLfoPhase : RNum
  resLfoPhase : RNum
  deriving DecidableEq, Repr

/-- The FIFO control state `Q` (rules R27, R28). -/
structure FifoState where
  wr : Nat
  rd : Nat
  count : Nat
  tickCount : Nat
  tickTime : Stamp
  deriving DecidableEq, Repr

/-- The analyzer: its scalars `A` (rule R29) and its five arrays (rule R30). `windowPower = none` is the
spec's own state *unwritten*, and so is an array element that is not listed (rule R36). -/
structure Analyzer where
  windowPower : Option RNum
  ready : Bool
  win : Memory RNum
  scratch : Memory RNum
  xf : Memory (RNum × RNum)
  raw : Memory RNum
  smooth : Memory RNum
  deriving DecidableEq, Repr

/-- The fault codes 1 to 4 of rule R201, in order. -/
inductive FaultCode where
  /-- `F_ILLEGAL_CMD` (rule R202) -/
  | illegalCmd
  /-- `F_BAD_OPERAND` (rule R203) -/
  | badOperand
  /-- `F_UNWRITTEN_PARAM` (rule R204) -/
  | unwrittenParam
  /-- `F_UNINIT` (rule R205) -/
  | uninit
  deriving DecidableEq, Repr, Inhabited

/-- The number of a fault code (rule R201). -/
def FaultCode.number : FaultCode → Nat
  | .illegalCmd => 1
  | .badOperand => 2
  | .unwrittenParam => 3
  | .uninit => 4

/-- A fault report: the pair (code, info) of rule R201. -/
structure FaultReport where
  code : FaultCode
  info : Option Nat
  deriving DecidableEq, Repr

/-- The three event outputs (rules R33, R207): which are raised in this step. -/
structure Events where
  tick : Bool
  parChange : Bool
  underrun : Bool
  deriving DecidableEq, Repr

/-- What the issuing agent gets at the end of a command: its results (rule R80) or a fault report in
their place (rule R201). `idle`: no command was performed. -/
inductive Reply where
  | idle
  | results (rs : List Operand)
  | fault (r : FaultReport)
  deriving DecidableEq, Repr

/-- The outputs the core drives in one step (notes/assumptions/7.md). -/
structure Output where
  /-- the agent that issued the command of this step -/
  agent : Option Agent
  reply : Reply
  events : Events
  deriving DecidableEq, Repr

/-- A transaction presented at the command port (rule R70), with the agent that issues it (rule R10). -/
structure Request where
  agent : Agent
  op : Byte
  operands : List Operand
  deriving DecidableEq, Repr

/-- The state of the machine: the tuple of rule R199, and the model's own fields (INVENTORY.md, State). -/
structure State where
  par : PendingParams
  snap : Option Params
  osc : OscState
  pink : Memory RNum
  flt : FltState
  fifo : FifoState
  store : Memory Frame
  spa : Analyzer
  out : Output
  port : List Request
  whiteDraws : Nat
  clockDraws : Nat
  deriving DecidableEq, Repr

/-- Why a step stops. No command of the spec stops the core (rule R199); these are raised only in states
that no run from reset reaches, by a rule that reads an element the spec says does not exist or holds no
value. Safe: the model stops where the spec gives no value. (notes/assumptions/8.md, 14.md.) -/
inductive Fault where
  /-- an access to an index outside the range rule R50 gives the space; raised by `OSC_SAMPLE` and
  `OSC_BLOCK` where `O.pink_idx >= PINK_TAPS` (safe) -/
  | noSuchElement (space : Space) (index : Nat)
  /-- a read of an analyzer element that holds no value; raised by `SPA_PROCESS` and `SPA_READ` where
  `A.ready = 1` and the element is unwritten (safe) -/
  | unwrittenElement (space : Space) (index : Nat)
  /-- a read of `A.window_power` while it holds no value; raised by `SPA_PROCESS` where `A.ready = 1` and
  the register is unwritten (safe) -/
  | unwrittenWindowPower
  deriving DecidableEq, Repr, Inhabited

/-- Why a command has no meaning in the model. -/
inductive Refusal where
  /-- the command's arm of `exec` is not modelled; raised by no arm (safe) -/
  | notModelled (mnemonic : String)
  deriving DecidableEq, Repr, Inhabited

/-- No event raised. -/
def Events.none : Events := ⟨false, false, false⟩

/-- The outputs of a step that performs no command. -/
def Output.idle : Output := ⟨Option.none, .idle, Events.none⟩

/-- All of `P` unwritten (rule R36). -/
def PendingParams.unwritten : PendingParams :=
  ⟨none, none, none, none, none, none, none, none, none, none, none, none, none, none, none, none⟩

/-- `O` as reset and `OSC_RESET` leave it (rules R36, R142). -/
def OscState.zero : OscState := ⟨.lit 0, .lit 0, .lit 0, .lit 0, .lit 0, 0⟩

/-- `F` as reset, `OSC_RESET` and `FLT_RESET` leave it (rules R36, R170). -/
def FltState.zero : FltState := ⟨.lit 0, .lit 0, .lit 0, .lit 0, .lit 0, .lit 0, .lit 0, .lit 0⟩

/-- The state after reset (rules R36, R220). `tickTime` is a free value: it takes time draw 0, so that the
next draw is number 1 and no later stamp, `FIFO_CLEAR`'s included, is tied to it (DESIGN CHOICE,
notes/assumptions/5.md). The model's own fields are empty or count the draws taken (notes/assumptions/6.md,
7.md, 21.md). -/
def State.reset : State where
  par := PendingParams.unwritten
  snap := none
  osc := OscState.zero
  pink := []
  flt := FltState.zero
  fifo := ⟨0, 0, 0, 0, .unspecified 0⟩
  store := []
  spa := ⟨none, false, [], [], [], [], []⟩
  out := Output.idle
  port := []
  whiteDraws := 0
  clockDraws := 1

/-! Named updates: every meaning writes the state through these. -/

/-- Write the pending parameters. -/
def State.withPar (s : State) (p : PendingParams) : State := { s with par := p }

/-- Write the active snapshot. -/
def State.withSnap (s : State) (p : Params) : State := { s with snap := some p }

/-- Write the oscillator's registers. -/
def State.withOsc (s : State) (o : OscState) : State := { s with osc := o }

/-- Write the pink-noise history. -/
def State.withPink (s : State) (m : Memory RNum) : State := { s with pink := m }

/-- Write the filter's registers. -/
def State.withFlt (s : State) (f : FltState) : State := { s with flt := f }

/-- Write the FIFO's control registers. -/
def State.withFifo (s : State) (q : FifoState) : State := { s with fifo := q }

/-- Write the FIFO's storage. -/
def State.withStore (s : State) (m : Memory Frame) : State := { s with store := m }

/-- Write the analyzer. -/
def State.withSpa (s : State) (a : Analyzer) : State := { s with spa := a }

/-- Drive the outputs. -/
def State.withOut (s : State) (o : Output) : State := { s with out := o }

/-- Set the commands presented at the port. -/
def State.withPort (s : State) (rs : List Request) : State := { s with port := rs }

/-- One more white sample has been drawn. -/
def State.countWhite (s : State) : State := { s with whiteDraws := s.whiteDraws + 1 }

/-- One more time value (a clock value or an unspecified stamp) has been drawn. -/
def State.countClock (s : State) : State := { s with clockDraws := s.clockDraws + 1 }

end Sys2Proof.Machine
end

