-- ==== Sys2Proof/Machine/Flags.lean ====
section
/-! DEFINITION. The core stores no flag (rule R32). Here: the three derived conditions of the FIFO, and the
event outputs (rules R33, R207). -/

namespace Sys2Proof.Machine

/-- `fifo_empty` (rule R32). -/
def fifoEmpty (q : FifoState) : Bool := decide (q.count = 0)

/-- `fifo_full` (rule R32). -/
def fifoFull (c : Config) (q : FifoState) : Bool := decide (q.count = c.capacity)

/-- `fifo_starved`: strictly below `MIN_FILL` (rules R32, R113). -/
def fifoStarved (c : Config) (q : FifoState) : Bool := decide (q.count < c.minFill)

/-- `ev_par_change`, raised by every successful setter (rules R33, R90, R102). -/
def parChange : Events := ⟨false, true, false⟩

/-- `ev_tick`, and `ev_underrun` where the read is starved (rules R33, R113, R114). -/
def tickEvents (starved : Bool) : Events := ⟨true, false, starved⟩

end Sys2Proof.Machine
end

