-- ==== Sys2Proof/Decode.lean ====
section
/-! DEFINITION. Decoding a transaction on the command port (rules R70 to R77, R81), the encoder, and the
binary32 carriage of a NUM that the spec proposes (rules R9, R72). -/

namespace Sys2Proof

/-- `op[7:4]`, the unit field (rule R71). -/
def opUnit (op : Byte) : Nat := (op.extractLsb' 4 4).toNat

/-- `op[3:0]`, the function field (rule R71). -/
def opFn (op : Byte) : Nat := (op.extractLsb' 0 4).toNat

/-- The opcode map by unit and function (rules R71, R74). -/
def Opcode.ofFields (unit fn : Nat) : Option Opcode :=
  match unit, fn with
  | 0, 0 => some .setWaveform
  | 0, 1 => some .setFreq
  | 0, 2 => some .setAmp
  | 0, 3 => some .setDuty
  | 0, 4 => some .setFm
  | 0, 5 => some .setAm
  | 0, 6 => some .setDcm
  | 0, 7 => some .setFilter
  | 0, 8 => some .setCutoffLfo
  | 0, 9 => some .setResLfo
  | 1, 0 => some .fifoClear
  | 1, 1 => some .fifoWrite
  | 1, 2 => some .fifoRead
  | 1, 3 => some .fifoLevel
  | 2, 0 => some .oscReset
  | 2, 1 => some .oscSnap
  | 2, 2 => some .oscSample
  | 2, 3 => some .oscBlock
  | 3, 0 => some .fltReset
  | 3, 1 => some .fltStep
  | 4, 0 => some .spaInit
  | 4, 1 => some .spaProcess
  | 4, 2 => some .spaF2b
  | 4, 3 => some .spaB2f
  | 4, 4 => some .spaRead
  | _, _ => none

/-- The command an opcode byte selects, or none: 231 values are illegal (rule R75). -/
def Opcode.ofByte (op : Byte) : Option Opcode := Opcode.ofFields (opUnit op) (opFn op)

/-- The operands an opcode calls for, in order (rule R74). -/
def Opcode.signature : Opcode → List OperandType
  | .setWaveform => [.kind]
  | .setFreq | .setAmp | .setDuty | .spaF2b | .spaB2f => [.num]
  | .setFm | .setAm | .setDcm | .setFilter | .setCutoffLfo | .setResLfo => [.num, .num]
  | .fltStep => [.num, .num, .num]
  | .fifoWrite | .spaProcess => [.nat, .frames]
  | .fifoRead | .spaRead => [.nat]
  | .fifoClear | .fifoLevel | .oscReset | .oscSnap | .oscSample | .oscBlock | .fltReset | .spaInit => []

/-- Why a transaction is no command. -/
inductive Reject where
  /-- the opcode byte is none of the 25 (rules R75, R202) -/
  | illegalOpcode (op : Byte)
  /-- the operand list does not match the opcode (rules R81, R203 (a)); which operand is reported is said
  where the fault is taken (rule R208) -/
  | malformedOperands (opcode : Opcode) (operands : List Operand)
  deriving DecidableEq, Repr, Inhabited

/-- The `NUM` words of a `FRAMES` operand, or none where a word of another type stands among them. -/
def numWordsOf : List Operand → Option (List NumWord)
  | [] => some []
  | .num w :: ws => (numWordsOf ws).map (w :: ·)
  | .nat _ :: _ => none
  | .kind _ :: _ => none

/-- The command an opcode makes of its operand list, or none where the list does not match (rule R70:
the opcode alone decides how many operands follow and of which type). Whether a `FRAMES(n)` operand has
`2 * n` words is checked where the command is performed (rule R208). -/
def Opcode.build (oc : Opcode) (ops : List Operand) : Option Instr :=
  match oc, ops with
  | .setWaveform, [.kind k] => some (.setWaveform k)
  | .setFreq, [.num a] => some (.setFreq a)
  | .setAmp, [.num a] => some (.setAmp a)
  | .setDuty, [.num a] => some (.setDuty a)
  | .setFm, [.num a, .num b] => some (.setFm a b)
  | .setAm, [.num a, .num b] => some (.setAm a b)
  | .setDcm, [.num a, .num b] => some (.setDcm a b)
  | .setFilter, [.num a, .num b] => some (.setFilter a b)
  | .setCutoffLfo, [.num a, .num b] => some (.setCutoffLfo a b)
  | .setResLfo, [.num a, .num b] => some (.setResLfo a b)
  | .fifoClear, [] => some .fifoClear
  | .fifoWrite, .nat n :: ws => (numWordsOf ws).map (.fifoWrite n)
  | .fifoRead, [.nat n] => some (.fifoRead n)
  | .fifoLevel, [] => some .fifoLevel
  | .oscReset, [] => some .oscReset
  | .oscSnap, [] => some .oscSnap
  | .oscSample, [] => some .oscSample
  | .oscBlock, [] => some .oscBlock
  | .fltReset, [] => some .fltReset
  | .fltStep, [.num a, .num b, .num c] => some (.fltStep a b c)
  | .spaInit, [] => some .spaInit
  | .spaProcess, .nat n :: ws => (numWordsOf ws).map (.spaProcess n)
  | .spaF2b, [.num a] => some (.spaF2b a)
  | .spaB2f, [.num a] => some (.spaB2f a)
  | .spaRead, [.nat k] => some (.spaRead k)
  | _, _ => none

/-- Decode one transaction: opcode byte, then operands (rule R70). Total; it rejects by name. -/
def decode (op : Byte) (ops : List Operand) : Except Reject Instr :=
  match Opcode.ofByte op with
  | none => .error (.illegalOpcode op)
  | some oc =>
    match oc.build ops with
    | some i => .ok i
    | none => .error (.malformedOperands oc ops)

/-- The opcode byte of a command (the table of rule R74). -/
def Opcode.toByte : Opcode → Byte
  | .setWaveform => 0x00#8
  | .setFreq => 0x01#8
  | .setAmp => 0x02#8
  | .setDuty => 0x03#8
  | .setFm => 0x04#8
  | .setAm => 0x05#8
  | .setDcm => 0x06#8
  | .setFilter => 0x07#8
  | .setCutoffLfo => 0x08#8
  | .setResLfo => 0x09#8
  | .fifoClear => 0x10#8
  | .fifoWrite => 0x11#8
  | .fifoRead => 0x12#8
  | .fifoLevel => 0x13#8
  | .oscReset => 0x20#8
  | .oscSnap => 0x21#8
  | .oscSample => 0x22#8
  | .oscBlock => 0x23#8
  | .fltReset => 0x30#8
  | .fltStep => 0x31#8
  | .spaInit => 0x40#8
  | .spaProcess => 0x41#8
  | .spaF2b => 0x42#8
  | .spaB2f => 0x43#8
  | .spaRead => 0x44#8

/-- The operand words of a command, in the order of rule R74. -/
def Instr.operands : Instr → List Operand
  | .setWaveform k => [.kind k]
  | .setFreq a | .setAmp a | .setDuty a | .spaF2b a | .spaB2f a => [.num a]
  | .setFm a b | .setAm a b | .setDcm a b | .setFilter a b | .setCutoffLfo a b | .setResLfo a b =>
    [.num a, .num b]
  | .fltStep a b c => [.num a, .num b, .num c]
  | .fifoWrite n ws | .spaProcess n ws => .nat n :: ws.map .num
  | .fifoRead n | .spaRead n => [.nat n]
  | .fifoClear | .fifoLevel | .oscReset | .oscSnap | .oscSample | .oscBlock | .fltReset | .spaInit => []

/-- Encode a command: its opcode byte and its operand words (rules R70, R74). -/
def encode (i : Instr) : Byte × List Operand := (i.opcode.toByte, i.operands)

/-- The operand words of zeros that an opcode calls for: the number 0, the natural 0, kind code 0, and no
frames (`FRAMES(0)`). -/
def zeroOperands (oc : Opcode) : List Operand :=
  oc.signature.filterMap fun t =>
    match t with
    | .num => some (.num (.finite (.lit 0)))
    | .nat => some (.nat 0)
    | .kind => some (.kind 0)
    | .frames => none

/-- The transaction whose opcode byte is the low 8 of the first `nbits` bits of `w` and whose operand
words are zeros. -/
def tableTransaction (nbits w : Nat) : Byte × List Operand :=
  let op : Byte := BitVec.ofNat 8 (w % 2 ^ nbits)
  (op, ((Opcode.ofByte op).map zeroOperands).getD [])

/-- The command the decoder reads from a word of spec/opcode_table.json with operands of zeros. -/
def decodeTableWord (nbits w : Nat) : Option Instr :=
  match decode (tableTransaction nbits w).1 (tableTransaction nbits w).2 with
  | .ok i => some i
  | .error _ => none

/-- The `NUM` a binary32 pattern carries under the representation rules R9 and R72 propose: its exact
value, or no finite value. No rule depends on it. [the format itself: 93_implementation_defined.md K3] -/
def binary32 (w : BitVec 32) : NumWord :=
  let e := (w.extractLsb' 23 8).toNat
  let f := (w.extractLsb' 0 23).toNat
  let magnitude : Rat :=
    if e = 0 then (f : Rat) / (2 ^ 149 : Nat)
    else if 150 ≤ e then ((2 ^ 23 + f) * 2 ^ (e - 150) : Nat)
    else ((2 ^ 23 + f : Nat) : Rat) / (2 ^ (150 - e) : Nat)
  if e = 255 then .nonFinite
  else .finite (.lit (if w.msb then -magnitude else magnitude))

end Sys2Proof
end

