-- ==== Sys2Proof/Machine/Numerics.lean ====
section
/-! DEFINITION. The real operations of rule R9 on `RNum`. Each answers an expression of the exact result;
where the operands are rational literals (or 0 or 1 decides the result) it computes it. -/

namespace Sys2Proof

/-- A natural number as a real: the exact embedding (rule R193). -/
def RNum.ofNat (n : Nat) : RNum := .lit n

def RNum.add (a b : RNum) : RNum :=
  match a, b with
  | .lit p, .lit q => .lit (p + q)
  | .lit p, b => if p = 0 then b else .sum (.lit p) b
  | a, .lit q => if q = 0 then a else .sum a (.lit q)
  | a, b => .sum a b

def RNum.sub (a b : RNum) : RNum :=
  match a, b with
  | .lit p, .lit q => .lit (p - q)
  | a, .lit q => if q = 0 then a else .diff a (.lit q)
  | a, b => .diff a b

def RNum.mul (a b : RNum) : RNum :=
  match a, b with
  | .lit p, .lit q => .lit (p * q)
  | .lit p, b => if p = 0 then .lit 0 else if p = 1 then b else .prod (.lit p) b
  | a, .lit q => if q = 0 then .lit 0 else if q = 1 then a else .prod a (.lit q)
  | a, b => .prod a b

def RNum.div (a b : RNum) : RNum :=
  match a, b with
  | .lit p, .lit q => .lit (p / q)
  | .lit p, b => if p = 0 then .lit 0 else .quot (.lit p) b
  | a, .lit q => if q = 1 then a else .quot a (.lit q)
  | a, b => .quot a b

def RNum.sin (a : RNum) : RNum :=
  match a with
  | .lit q => if q = 0 then .lit 0 else .sinOf (.lit q)
  | a => .sinOf a

def RNum.cos (a : RNum) : RNum :=
  match a with
  | .lit q => if q = 0 then .lit 1 else .cosOf (.lit q)
  | a => .cosOf a

def RNum.sqrt (a : RNum) : RNum :=
  match a with
  | .lit q => if q = 0 then .lit 0 else if q = 1 then .lit 1 else .sqrtOf (.lit q)
  | a => .sqrtOf a

def RNum.log10 (a : RNum) : RNum := .log10Of a

def RNum.floor (a : RNum) : RNum :=
  match a with
  | .lit q => .lit (q.floor : Rat)
  | a => .floorOf a

def RNum.min (a b : RNum) : RNum :=
  match a, b with
  | .lit p, .lit q => .lit (if p ≤ q then p else q)
  | a, b => .minOf a b

def RNum.max (a b : RNum) : RNum :=
  match a, b with
  | .lit p, .lit q => .lit (if p ≤ q then q else p)
  | a, b => .maxOf a b

/-- `x` if `a <= b`, else `y`. -/
def RNum.ifLe (a b x y : RNum) : RNum :=
  match a, b with
  | .lit p, .lit q => if p ≤ q then x else y
  | a, b => .select a b x y

/-- `x` if `a < b`, else `y`. -/
def RNum.ifLt (a b x y : RNum) : RNum := RNum.ifLe b a y x

/-- `x` if `f > 0`, else `y`: the on/off test of every modulator (rules R132, R133, R136, R137, R139). -/
def RNum.ifPos (f x y : RNum) : RNum := RNum.ifLe f (.lit 0) y x

/-- `clamp(x, lo, hi) = max(lo, min(hi, x))` (rule R12). -/
def RNum.clamp (x lo hi : RNum) : RNum := lo.max (hi.min x)

/-- `x^2`. -/
def RNum.sq (x : RNum) : RNum := x.mul x

/-- `2π`. -/
def RNum.twoPi : RNum := (RNum.lit 2).mul .pi

/-- `wrap(x) = x - 2π*floor(x / (2π))`, in `[0, 2π)` (rules R12, R131). -/
def RNum.wrap (x : RNum) : RNum := x.sub (RNum.twoPi.mul (x.div RNum.twoPi).floor)

/-- The sum of a list, from the left. -/
def RNum.total (xs : List RNum) : RNum := xs.foldl RNum.add (.lit 0)

end Sys2Proof
end

