-- ==== Sys2Proof/WellFormed.lean ====
section
/-! DEFINITION. When a command's operands are legal values (rules R72, R73, R81). An ill-formed command
is still a command: performing it takes the fault `F_BAD_OPERAND` (rule R203). The bound `k <= N/2` of
`SPA_READ` depends on the parameter `N` and is checked where the command is performed. -/

namespace Sys2Proof

/-- Whether a `NUM` word denotes a finite real (rule R72). -/
def NumWord.isFinite : NumWord → Bool
  | .finite _ => true
  | .nonFinite => false

/-- The waveform code of `SET_WAVEFORM` names a kind: 5, 6 and 7 do not (rule R73). -/
def Instr.kindNamed : Instr → Bool
  | .setWaveform k => decide (k.toNat < 5)
  | _ => true

/-- A `FRAMES(n)` operand holds exactly `2 * n` words (rules R72, R81). -/
def Instr.framesExact : Instr → Bool
  | .fifoWrite n data => data.length == 2 * n
  | .spaProcess n buffer => buffer.length == 2 * n
  | _ => true

/-- The `NUM` words among a command's operands, in order. -/
def Instr.numWords : Instr → List NumWord
  | .setFreq a | .setAmp a | .setDuty a | .spaF2b a | .spaB2f a => [a]
  | .setFm a b | .setAm a b | .setDcm a b | .setFilter a b | .setCutoffLfo a b | .setResLfo a b => [a, b]
  | .fltStep a b c => [a, b, c]
  | .fifoWrite _ ws | .spaProcess _ ws => ws
  | .setWaveform _ | .fifoClear | .fifoRead _ | .fifoLevel | .oscReset | .oscSnap | .oscSample
  | .oscBlock | .fltReset | .spaInit | .spaRead _ => []

/-- Every `NUM` word is finite (rule R72). -/
def Instr.numsFinite (i : Instr) : Bool := i.numWords.all NumWord.isFinite

/-- All the checks on a command's operands. -/
def Instr.wf (i : Instr) : Bool := i.kindNamed && i.framesExact && i.numsFinite

end Sys2Proof
end

