-- ==== Sys2Proof/Machine/Ops.lean ====
section
/-! DEFINITION. The shared operations: memory spaces, ending a command with results, taking a fault, the
state preconditions of the commands and the scan of a list that does not match (rule R208), and accepting a
transaction from the port. -/

namespace Sys2Proof.Machine

/-- What one step answers. -/
abbrev Result := Host.Outcome State Fault Refusal

/-! ### Memory spaces (rules R12, R50)

`dflt` is what an element that is not listed holds: `some v` for a space whose reset contents are `v`,
`none` for a space whose elements are unwritten after reset (rule R36; notes/assumptions/14.md). -/

/-- The listed value of element `i`. -/
def Memory.lookup {α : Type} : Memory α → Nat → Option α
  | [], _ => none
  | (a, v) :: rest, i => if a = i then some v else Memory.lookup rest i

/-- List `v` as the value of element `i`, indices rising. -/
def Memory.insert {α : Type} : Memory α → Nat → α → Memory α
  | [], i, v => [(i, v)]
  | (a, w) :: rest, i, v =>
    if i < a then (i, v) :: (a, w) :: rest
    else if i = a then (i, v) :: rest
    else (a, w) :: Memory.insert rest i v

/-- Take element `i` off the list. -/
def Memory.erase {α : Type} (m : Memory α) (i : Nat) : Memory α := m.filter fun c => c.1 ≠ i

/-- What element `i` holds: its listed value, else `dflt` (`none`: it holds no value). -/
def Memory.read {α : Type} (dflt : Option α) (m : Memory α) (i : Nat) : Option α :=
  match Memory.lookup m i with
  | some v => some v
  | none => dflt

/-- `MemWrite(space, i, v)` of rule R12. -/
def Memory.write {α : Type} [DecidableEq α] (dflt : Option α) (m : Memory α) (i : Nat) (v : α) : Memory α :=
  if dflt = some v then Memory.erase m i else Memory.insert m i v

/-- A sequence of `MemWrite`s, in order. -/
def Memory.writeAll {α : Type} [DecidableEq α] (dflt : Option α) (m : Memory α) (ws : List (Nat × α)) :
    Memory α :=
  ws.foldl (fun m w => Memory.write dflt m w.1 w.2) m

/-- Write `vs` to the elements `0, 1, ...` of a space that starts unwritten. -/
def Memory.writeArray {α : Type} [DecidableEq α] (m : Memory α) (vs : List α) : Memory α :=
  Memory.writeAll none m (vs.zipIdx.map fun p => (p.2, p.1))

/-- The canonical form: indices strictly rising, and no listed element equal to what an unlisted one
holds. -/
def Memory.wf {α : Type} [DecidableEq α] (dflt : Option α) (m : Memory α) : Bool :=
  decide ((m.map Prod.fst).Pairwise (· < ·)) && m.all fun c => decide (dflt ≠ some c.2)

/-- Every listed index exists in a space of `size` elements (rule R50). -/
def Memory.within {α : Type} (size : Nat) (m : Memory α) : Bool := m.all fun c => decide (c.1 < size)

/-- `MemRead(space, i)` (rule R12) on a space that starts unwritten: the element's value, or the fault of
reading an element that holds none. -/
def Memory.fetch {α : Type} (space : Space) (m : Memory α) (i : Nat) : Except Fault α :=
  match Memory.read none m i with
  | some v => .ok v
  | none => .error (.unwrittenElement space i)

/-- The elements `0 .. n-1` of a space that starts unwritten, in order. -/
def Memory.fetchAll {α : Type} (space : Space) (m : Memory α) : Nat → Except Fault (List α)
  | 0 => .ok []
  | n + 1 =>
    match Memory.fetchAll space m n with
    | .error e => .error e
    | .ok vs =>
      match Memory.fetch space m n with
      | .error e => .error e
      | .ok v => .ok (vs ++ [v])

/-- The frame in slot `i` of `STORE`; a slot that is not listed holds silence, its reset contents. -/
def slot (m : Memory Frame) (i : Nat) : Frame := (Memory.read (some Frame.silence) m i).getD Frame.silence

/-- Tap `i` of `PINK`; a tap that is not listed holds 0, its reset contents. -/
def tap (m : Memory RNum) (i : Nat) : RNum := (Memory.read (some (.lit 0)) m i).getD (.lit 0)

/-- `MemRead(PINK, i)` (rule R12): the fault of an element that does not exist where `i >= PINK_TAPS`. -/
def fetchTap (c : Config) (m : Memory RNum) (i : Nat) : Except Fault RNum :=
  if i < c.pinkTaps then .ok (tap m i) else .error (.noSuchElement .pink i)

/-! ### Ending a command -/

/-- The command is done: return `rs` to the issuing agent and raise the events `ev` (rules R12, R33, R80). -/
def complete (rs : List Operand) (ev : Events) (s : State) : Result :=
  .next (s.withOut ⟨s.out.agent, .results rs, ev⟩)

/-- Taking a fault (rules R200, R201, R209): no register, memory element or event output changes, the
command returns no results, and the report goes to the issuing agent. Nothing is saved and control goes
nowhere, so there is no return from a fault: the core performs the next command (rule R209). -/
def takeFault (r : FaultReport) (s : State) : Result :=
  .next (s.withOut ⟨s.out.agent, .fault r, Events.none⟩)

/-- The report of rule R202. -/
def illegalCmd (op : Byte) : FaultReport := ⟨.illegalCmd, some op.toNat⟩

/-- The report of rule R203: the position of the first bad operand, counted from 0. -/
def badOperand (position : Nat) : FaultReport := ⟨.badOperand, some position⟩

/-- The report of rule R204: the number of the lowest unwritten register of `P`, or 16. -/
def unwrittenParam (number : Nat) : FaultReport := ⟨.unwrittenParam, some number⟩

/-- The report of rule R205. -/
def uninit : FaultReport := ⟨.uninit, none⟩

/-! ### State preconditions (rule R208, check 2) -/

/-- A parameter register's value, or its number where it is unwritten. -/
def need {α : Type} (number : Nat) (r : Option α) : Except Nat α :=
  match r with
  | some v => .ok v
  | none => .error number

/-- All sixteen values of `P`, or the number of the lowest-numbered unwritten register (rules R143,
R201). -/
def PendingParams.complete (p : PendingParams) : Except Nat Params := do
  let waveform ← need 0 p.waveform
  let frequency ← need 1 p.frequency
  let amplitude ← need 2 p.amplitude
  let dutyCycle ← need 3 p.dutyCycle
  let fmFreq ← need 4 p.fmFreq
  let fmDepth ← need 5 p.fmDepth
  let amFreq ← need 6 p.amFreq
  let amDepth ← need 7 p.amDepth
  let dcmFreq ← need 8 p.dcmFreq
  let dcmDepth ← need 9 p.dcmDepth
  let cutoff ← need 10 p.cutoff
  let resonance ← need 11 p.resonance
  let cutoffLfoFreq ← need 12 p.cutoffLfoFreq
  let cutoffLfoAmount ← need 13 p.cutoffLfoAmount
  let resLfoFreq ← need 14 p.resLfoFreq
  let resLfoAmount ← need 15 p.resLfoAmount
  return { waveform, frequency, amplitude, dutyCycle, fmFreq, fmDepth, amFreq, amDepth, dcmFreq, dcmDepth,
           cutoff, resonance, cutoffLfoFreq, cutoffLfoAmount, resLfoFreq, resLfoAmount }

/-- Which registers of `P` are written, by number 0 to 15 (rule R21). -/
def PendingParams.isWritten (p : PendingParams) : List Bool :=
  [p.waveform.isSome, p.frequency.isSome, p.amplitude.isSome, p.dutyCycle.isSome, p.fmFreq.isSome,
   p.fmDepth.isSome, p.amFreq.isSome, p.amDepth.isSome, p.dcmFreq.isSome, p.dcmDepth.isSome,
   p.cutoff.isSome, p.resonance.isSome, p.cutoffLfoFreq.isSome, p.cutoffLfoAmount.isSome,
   p.resLfoFreq.isSome, p.resLfoAmount.isSome]

/-- The values `P` holds, each wrapped as written: `P` right after every group has been set to `p`. -/
def Params.written (p : Params) : PendingParams :=
  ⟨some p.waveform, some p.frequency, some p.amplitude, some p.dutyCycle, some p.fmFreq, some p.fmDepth,
   some p.amFreq, some p.amDepth, some p.dcmFreq, some p.dcmDepth, some p.cutoff, some p.resonance,
   some p.cutoffLfoFreq, some p.cutoffLfoAmount, some p.resLfoFreq, some p.resLfoAmount⟩

/-- Run `k` on the sixteen values of `P`, or take `F_UNWRITTEN_PARAM` (rules R143, R204). -/
def needParams (s : State) (k : Params → Result) : Result :=
  match s.par.complete with
  | .ok p => k p
  | .error number => takeFault (unwrittenParam number) s

/-- Run `k` on the snapshot, or take `F_UNWRITTEN_PARAM` with info 16 (rules R144, R201, R204). -/
def needSnap (s : State) (k : Params → Result) : Result :=
  match s.snap with
  | some p => k p
  | none => takeFault (unwrittenParam 16) s

/-- Run `k` where the analyzer has been constructed, or take `F_UNINIT` (rule R205). -/
def needReady (s : State) (k : Result) : Result :=
  if s.spa.ready then k else takeFault uninit s

/-- The fault a command's state precondition raises, if it fails (rule R208, check 2). -/
def precondition (oc : Opcode) (s : State) : Option FaultReport :=
  match oc with
  | .oscSnap | .oscBlock =>
    match s.par.complete with
    | .ok _ => none
    | .error number => some (unwrittenParam number)
  | .oscSample => if s.snap.isSome then none else some (unwrittenParam 16)
  | .spaProcess | .spaRead => if s.spa.ready then none else some uninit
  | _ => none

/-! ### The operands of a list that does not match (rule R208, check 3) -/

/-- The greatest value of a `NAT` operand, where a rule bounds it: the index of `SPA_READ` (rule R203
(d)). -/
def natLimit (c : Config) (oc : Opcode) : Option Nat :=
  match oc with
  | .spaRead => some c.lastBin
  | _ => none

/-- Whether a port word is a legal operand where the opcode calls for a type: it has that type, a `NUM`
is finite, a `KIND` code names a kind, a `NAT` keeps its bound (rules R72, R73, R203). -/
def operandLegal (c : Config) (oc : Opcode) (t : OperandType) (w : Operand) : Bool :=
  match t, w with
  | .num, .num x => x.isFinite
  | .nat, .nat n => (natLimit c oc).all fun limit => decide (n ≤ limit)
  | .kind, .kind code => decide (code.toNat < 5)
  | _, _ => false

/-- The position of the first bad operand of a list that does not match its signature, type and value of
each operand being checked before the next is looked at (rules R201, R208): the first operand that is not
legal, the first missing one, or the first too many. Where the scan reaches a `FRAMES` operand, that one is
what does not match; all its words count as one operand (notes/assumptions/11.md). -/
def firstBadOperand (c : Config) (oc : Opcode) : Nat → List OperandType → List Operand → Nat
  | pos, [], _ => pos
  | pos, .frames :: _, _ => pos
  | pos, _ :: _, [] => pos
  | pos, t :: ts, w :: ws =>
    if operandLegal c oc t w then firstBadOperand c oc (pos + 1) ts ws else pos

/-- What the core does with a transaction that is no command: it reports `F_ILLEGAL_CMD`, or, for an
operand list that does not match, `F_BAD_OPERAND` after the state precondition (rules R81, R202, R208;
notes/assumptions/12.md). -/
def performReject (r : Reject) (s : State) : Result :=
  match r with
  | .illegalOpcode op => takeFault (illegalCmd op) s
  | .malformedOperands oc operands =>
    match precondition oc s with
    | some report => takeFault report s
    | none => takeFault (badOperand (firstBadOperand Config.current oc 0 oc.signature operands)) s

/-! ### The command port -/

/-- Take a transaction off the port: `rest` stays, and the outputs of the step are addressed to the
issuing agent. -/
def State.accept (s : State) (r : Request) (rest : List Request) : State :=
  (s.withPort rest).withOut ⟨some r.agent, .idle, Events.none⟩

/-- Put the transaction of a table word first in the port, so that the next step performs it
(notes/assumptions/13.md). -/
def presentTableWord (s : State) (nbits w : Nat) : State :=
  s.withPort (⟨.host, (tableTransaction nbits w).1, (tableTransaction nbits w).2⟩ :: s.port)

end Sys2Proof.Machine
end

