-- ==== Sys2Proof/Machine/Operands.lean ====
section
/-! DEFINITION. The operand forms of rule R72: checking them (rule R203) and handing over their values, and
results in the same types (rule R80). -/

namespace Sys2Proof.Machine

/-- The waveform kind of a 3-bit code; 5, 6 and 7 name none (rule R73). -/
def kindOfCode (code : BitVec 3) : Option Kind :=
  match code.toNat with
  | 0 => some .sine
  | 1 => some .square
  | 2 => some .saw
  | 3 => some .triangle
  | 4 => some .pink
  | _ => none

/-- The 3-bit code of a waveform kind (rule R73). -/
def codeOfKind : Kind → BitVec 3
  | .sine => 0
  | .square => 1
  | .saw => 2
  | .triangle => 3
  | .pink => 4

/-- A `KIND` operand at position 0. -/
def withKind (code : BitVec 3) (s : State) (k : Kind → Result) : Result :=
  match kindOfCode code with
  | some kind => k kind
  | none => takeFault (badOperand 0) s

/-- The real a `NUM` word carries, or none where it is not finite. -/
def numValue : NumWord → Option RNum
  | .finite x => some x
  | .nonFinite => none

/-- A `NUM` operand at position `position`. -/
def withNumAt (position : Nat) (w : NumWord) (s : State) (k : RNum → Result) : Result :=
  match numValue w with
  | some x => k x
  | none => takeFault (badOperand position) s

/-- One `NUM` operand. -/
def withNum (a : NumWord) (s : State) (k : RNum → Result) : Result := withNumAt 0 a s k

/-- Two `NUM` operands, checked in order. -/
def withNum2 (a b : NumWord) (s : State) (k : RNum → RNum → Result) : Result :=
  withNumAt 0 a s fun x => withNumAt 1 b s fun y => k x y

/-- Three `NUM` operands, checked in order. -/
def withNum3 (a b c : NumWord) (s : State) (k : RNum → RNum → RNum → Result) : Result :=
  withNumAt 0 a s fun x => withNumAt 1 b s fun y => withNumAt 2 c s fun z => k x y z

/-- The reals of a sequence of `NUM` words, or none where one is not finite. -/
def numValues : List NumWord → Option (List RNum)
  | [] => some []
  | w :: ws =>
    match numValue w, numValues ws with
    | some x, some xs => some (x :: xs)
    | _, _ => none

/-- Interleaved samples as frames: left, right, left, right, ... (rules R11, R51). -/
def pairFrames : List RNum → List Frame
  | l :: r :: rest => ⟨l, r⟩ :: pairFrames rest
  | _ => []

/-- The frames of a `FRAMES(n)` operand, or none where it does not hold exactly `2 * n` finite words
(rules R72, R81, R203). -/
def framesOf (n : Nat) (ws : List NumWord) : Option (List Frame) :=
  if ws.length = 2 * n then (numValues ws).map pairFrames else none

/-- A `FRAMES(n)` operand; it is operand 1 of its command, after the `NAT` operand `n`. -/
def withFrames (n : Nat) (ws : List NumWord) (s : State) (k : List Frame → Result) : Result :=
  match framesOf n ws with
  | some frames => k frames
  | none => takeFault (badOperand 1) s

/-- The words that carry a sequence of frames: left, right, left, right, ... with frame 0 first (rule
R72). -/
def frameWords : List Frame → List NumWord
  | [] => []
  | f :: fs => .finite f.left :: .finite f.right :: frameWords fs

/-- A `NUM` result (rule R80). -/
def numResult (x : RNum) : Operand := .num (.finite x)

/-- A `FRAMES` result, interleaved (rules R72, R80). -/
def frameResults : List Frame → List Operand
  | [] => []
  | f :: fs => numResult f.left :: numResult f.right :: frameResults fs

end Sys2Proof.Machine
end

