-- ==== Sys2Proof/Machine/Fifo.lean ====
section
/-! DEFINITION. The synchronous FIFO's commands (unit 1, 41_fifo.md, rules R110 to R118). The operations
take the configuration as an argument; the commands use `Config.current`. -/

namespace Sys2Proof.Machine

/-- How many of `n` offered frames a `FIFO_WRITE` accepts: `min(n, C - Q.count)` (rule R112). -/
def acceptedFrames (c : Config) (q : FifoState) (n : Nat) : Nat := min n (c.capacity - q.count)

/-- The slots a transfer from cursor `cursor` touches, each with its frame: slot `(cursor + j) mod C` for
frame `j` (rules R112, R117, R197). -/
def slotWrites (c : Config) (cursor : Nat) (frames : List Frame) : List (Nat × Frame) :=
  frames.zipIdx.map fun p => ((cursor + p.2) % c.capacity, p.1)

/-- `FIFO_WRITE n, data` on the frames of its operand (rule R112). -/
def fifoWrite (c : Config) (n : Nat) (data : List Frame) (s : State) : Result :=
  let a := acceptedFrames c s.fifo n
  complete [.nat a] Events.none
    ((s.withStore (Memory.writeAll (some Frame.silence) s.store (slotWrites c s.fifo.wr (data.take a)))).withFifo
      { s.fifo with wr := (s.fifo.wr + a) % c.capacity, count := s.fifo.count + a })

/-- The `m` frames from cursor `cursor` on, in order: slot `(cursor + j) mod C` for `j < m` (rules R113,
R117). -/
def slotFrames (c : Config) (store : Memory Frame) (cursor m : Nat) : List Frame :=
  (List.range m).map fun j => slot store ((cursor + j) % c.capacity)

/-- The frames the FIFO stores, oldest first (rule R51). -/
def storedFrames (c : Config) (s : State) : List Frame :=
  slotFrames c s.store s.fifo.rd s.fifo.count

/-- How many stored frames a `FIFO_READ n` takes: none where it is starved, else `min(n, Q.count)`
(rule R113). -/
def takenFrames (c : Config) (q : FifoState) (n : Nat) : Nat :=
  if fifoStarved c q then 0 else min n q.count

/-- The read cursor after a `FIFO_READ n`: unchanged where it is starved, else moved past the taken frames
(rule R113). -/
def readCursor (c : Config) (q : FifoState) (n : Nat) : Nat :=
  if fifoStarved c q then q.rd else (q.rd + min n q.count) % c.capacity

/-- The `n` frames a `FIFO_READ n` returns: the taken ones, then silence (rule R113). -/
def readFrames (c : Config) (s : State) (n : Nat) : List Frame :=
  let m := takenFrames c s.fifo n
  slotFrames c s.store s.fifo.rd m ++ List.replicate (n - m) Frame.silence

/-- The tick bookkeeping of every `FIFO_READ` (rule R114): stamp the next clock value, count the tick.
The event is raised where the command completes. -/
def tick (s : State) : State :=
  (s.withFifo { s.fifo with tickCount := s.fifo.tickCount + 1, tickTime := .reading s.clockDraws }).countClock

/-- `FIFO_READ n` (rules R113, R114): the tick, then the data movement. -/
def fifoRead (c : Config) (n : Nat) (s : State) : Result :=
  let t := tick s
  complete (frameResults (readFrames c s n)) (tickEvents (fifoStarved c s.fifo))
    (t.withFifo
      { t.fifo with rd := readCursor c s.fifo n, count := s.fifo.count - takenFrames c s.fifo n })

/-- `FIFO_CLEAR` (rule R111): every counter 0, every slot silent, the time stamp unspecified: a free value
of a draw of its own, tied to no earlier stamp, reset's included (DESIGN CHOICE, notes/assumptions/5.md). -/
def execFifoClear (s : State) : Result :=
  complete [] Events.none
    (((s.withStore []).withFifo ⟨0, 0, 0, 0, .unspecified s.clockDraws⟩).countClock)

/-- `FIFO_WRITE` (rule R112). -/
def execFifoWrite (n : Nat) (data : List NumWord) (s : State) : Result :=
  withFrames n data s fun frames => fifoWrite Config.current n frames s

/-- `FIFO_READ` (rule R113). -/
def execFifoRead (n : Nat) (s : State) : Result := fifoRead Config.current n s

/-- `FIFO_LEVEL` (rule R115). -/
def execFifoLevel (s : State) : Result := complete [.nat s.fifo.count] Events.none s

end Sys2Proof.Machine
end

