-- ==== Sys2Proof/Machine/Flt.lean ====
section
/-! DEFINITION. The ladder filter's commands (unit 3, 43_ladder_filter.md, rules R160 to R172), one
definition per step of the source's numbering. -/

namespace Sys2Proof.Machine

/-- Step 1: `clamp(fc, 20, 20000)`, then at least `0.0005 * SR` (rule R162). -/
def clampCutoff (fc : RNum) : RNum :=
  (fc.clamp Const.cutoffMinHz Const.cutoffMaxHz).max (Const.cutoffFloorRatio.mul .sr)

/-- Step 2: `min(fc / SR, 0.499)` (rule R163). -/
def normFreq (fc : RNum) : RNum := (fc.div .sr).min Const.fNormMax

/-- Step 3, the clamp of the resonance to `[0, 1]` (rule R164). -/
def clampResonance (r : RNum) : RNum := r.clamp (.lit 0) (.lit 1)

/-- Step 3, the feedback gain `3.8 * sqrt(r)` (rule R164). -/
def feedbackGain (r : RNum) : RNum := Const.fbScale.mul r.sqrt

/-- Step 4, `k = 4π * f` (rule R165). -/
def poleK (f : RNum) : RNum := (Const.kScaleFactor.mul .pi).mul f

/-- Step 4, the one-pole coefficient `k / (1 + k)` (rule R165). -/
def onePole (k : RNum) : RNum := k.div ((RNum.lit 1).add k)

/-- Step 5, the compensation `1 / (1 + 0.1 * g)` (rule R166). -/
def compensation (g : RNum) : RNum := (RNum.lit 1).div ((RNum.lit 1).add (Const.compScale.mul g))

/-- Step 5, the feedback input `(input - g * delay[3]) * comp` (rule R166). -/
def feedbackInput (input g delay3 : RNum) : RNum := (input.sub (g.mul delay3)).mul (compensation g)

/-- The saturator `x * (27 + x^2) / (27 + 9 * x^2)` (rule R167). -/
def saturate (x : RNum) : RNum :=
  (x.mul (Const.satA.add x.sq)).div (Const.satA.add (Const.satB.mul x.sq))

/-- `drive = 1 + 0.3 * r`, with the clamped `r` (rule R167). -/
def drive (r : RNum) : RNum := (RNum.lit 1).add (Const.satBlend.mul r)

/-- The stage nonlinearity `Sr` under the switch `SAT_SCALE` (rule R167). -/
def stageShape (c : Config) (r x : RNum) : RNum :=
  match c.satScale with
  | .output => (drive r).mul (saturate x)
  | .input => saturate ((drive r).mul x)

/-- One stage: `d + p * (Sr(stage_in) - d)` (rule R168). -/
def stage (c : Config) (p r d stageIn : RNum) : RNum := d.add (p.mul ((stageShape c r stageIn).sub d))

/-- Step 6, the cascade under the switch `LADDER_ORDER`: the four new delay values (rule R168). -/
def cascade (c : Config) (p r xin : RNum) (f : FltState) : FltState :=
  match c.ladderOrder with
  | .sequential =>
    let d0 := stage c p r f.delay0 xin
    let d1 := stage c p r f.delay1 d0
    let d2 := stage c p r f.delay2 d1
    let d3 := stage c p r f.delay3 d2
    { f with delay0 := d0, delay1 := d1, delay2 := d2, delay3 := d3 }
  | .simultaneous =>
    { f with
      delay0 := stage c p r f.delay0 xin
      delay1 := stage c p r f.delay1 f.delay0
      delay2 := stage c p r f.delay2 f.delay1
      delay3 := stage c p r f.delay3 f.delay2 }

/-- The filter's registers after `LadderStep(input, cutoff, resonance)` (rules R160 to R168, R171): the
modulation scalars are added to the operands (rule R161) and are not written. Its output is `delay[3]`
(rule R169). -/
def ladderStep (c : Config) (input cutoff resonance : RNum) (f : FltState) : FltState :=
  let fc := clampCutoff (cutoff.add f.cutoffMod)
  let r := clampResonance (resonance.add f.resMod)
  let p := onePole (poleK (normFreq fc))
  cascade c p r (feedbackInput input (feedbackGain r) f.delay3) f

/-- `FLT_RESET` (rule R170). -/
def execFltReset (s : State) : Result := complete [] Events.none (s.withFlt FltState.zero)

/-- `FLT_STEP` on the values of its operands (rule R171). -/
def fltStep (c : Config) (input cutoff resonance : RNum) (s : State) : Result :=
  let f := ladderStep c input cutoff resonance s.flt
  complete [numResult f.delay3] Events.none (s.withFlt f)

/-- `FLT_STEP` (rule R171). -/
def execFltStep (input cutoff resonance : NumWord) (s : State) : Result :=
  withNum3 input cutoff resonance s fun x fc r => fltStep Config.current x fc r s

end Sys2Proof.Machine
end

