-- ==== Sys2Proof/Machine/Osc.lean ====
section
/-! DEFINITION. The oscillator engine's commands (unit 2, 42_oscillator.md, rules R130 to R147), one
definition per part of the sample step. -/

namespace Sys2Proof.Machine

/-- Advance a modulator's phase by `2π * freq / SR`, wrapped, while `freq > 0`; else hold it (rules R132,
R133, R136, R137, R139). -/
def advanceModulator (freq phase : RNum) : RNum :=
  RNum.ifPos freq ((phase.add ((RNum.twoPi.mul freq).div .sr)).wrap) phase

/-- Part 1, FM: `frequency_mod` (rule R132). -/
def frequencyMod (p : Params) (o : OscState) : RNum :=
  RNum.ifPos p.fmFreq (p.fmDepth.mul o.fmPhase.sin) (.lit 0)

/-- Part 2, DCM: the effective duty `d` (rule R133). -/
def effectiveDuty (p : Params) (o : OscState) : RNum :=
  RNum.ifPos p.dcmFreq
    ((p.dutyCycle.add (p.dcmDepth.mul o.dcmPhase.sin)).clamp Const.dutyMin Const.dutyMax) p.dutyCycle

/-- The sine (rule R134). -/
def waveSine (θ : RNum) : RNum := θ.sin

/-- The square wave of duty `d`: `+1` if `θ <= d * 2π`, else `-1` (rule R134). -/
def waveSquare (θ d : RNum) : RNum := RNum.ifLe θ (d.mul RNum.twoPi) (.lit 1) (.lit (-1))

/-- The sawtooth `θ / π - 1` (rule R134). -/
def waveSaw (θ : RNum) : RNum := (θ.div .pi).sub (.lit 1)

/-- The triangle: with `t = θ / (2π)`, `4*t - 1` if `t < 0.5`, else `3 - 4*t` (rule R134). -/
def waveTriangle (θ : RNum) : RNum :=
  let t := θ.div RNum.twoPi
  RNum.ifLt t (.lit (1 / 2)) (((RNum.lit 4).mul t).sub (.lit 1)) ((RNum.lit 3).sub ((RNum.lit 4).mul t))

/-- The value of a pink step whose white sample is `w` and whose running sum is `sum`:
`(w + sum / PINK_TAPS) / 2` (rule R135). -/
def pinkValue (c : Config) (w sum : RNum) : RNum :=
  (w.add (sum.div (RNum.ofNat c.pinkTaps))).div (.lit 2)

/-- One pink-noise step (rule R135): draw a white sample, replace the oldest tap, update the running sum
and the index; the value, and the state with them written. -/
def pinkStep (c : Config) (s : State) : Except Fault (RNum × State) :=
  match fetchTap c s.pink s.osc.pinkIdx with
  | .error e => .error e
  | .ok old =>
    let w := RNum.white s.whiteDraws
    let sum := (s.osc.pinkSum.sub old).add w
    .ok (pinkValue c w sum,
      ((s.withPink (Memory.write (some (.lit 0)) s.pink s.osc.pinkIdx w)).withOsc
        { s.osc with pinkSum := sum, pinkIdx := (s.osc.pinkIdx + 1) % c.pinkTaps }).countWhite)

/-- Part 3, the base waveform at `θ = O.phase` (rules R134, R135); only pink touches the state. -/
def baseWave (c : Config) (p : Params) (d : RNum) (s : State) : Except Fault (RNum × State) :=
  match p.waveform with
  | .sine => .ok (waveSine s.osc.phase, s)
  | .square => .ok (waveSquare s.osc.phase d, s)
  | .saw => .ok (waveSaw s.osc.phase, s)
  | .triangle => .ok (waveTriangle s.osc.phase, s)
  | .pink => pinkStep c s

/-- Part 4, the cutoff LFO and the resonance LFO: the modulation scalars from the phases before their
advance, and the advanced phases (rules R136, R137). -/
def filterLfos (p : Params) (f : FltState) : FltState :=
  { f with
    cutoffMod :=
      RNum.ifPos p.cutoffLfoFreq
        ((p.cutoffLfoAmount.mul f.cutoffLfoPhase.sin).mul (p.cutoff.sub Const.cutoffMinHz)) (.lit 0)
    cutoffLfoPhase := advanceModulator p.cutoffLfoFreq f.cutoffLfoPhase
    resMod := RNum.ifPos p.resLfoFreq (p.resLfoAmount.mul f.resLfoPhase.sin) (.lit 0)
    resLfoPhase := advanceModulator p.resLfoFreq f.resLfoPhase }

/-- Part 6, AM: `amplitude_mod` (rule R139). -/
def amplitudeMod (p : Params) (o : OscState) : RNum :=
  RNum.ifPos p.amFreq ((RNum.lit 1).add (p.amDepth.mul o.amPhase.sin)) (.lit 1)

/-- Part 8, the carrier's advance: `wrap(phase + 2π * frequency / SR * (1 + frequency_mod))` (rule
R141). -/
def advanceCarrier (frequency fmod phase : RNum) : RNum :=
  (phase.add (((RNum.twoPi.mul frequency).div .sr).mul ((RNum.lit 1).add fmod))).wrap

/-- The four accumulators of `O` after a sample. Every `sin` above uses the value before this advance
(rule R130). -/
def advancePhases (p : Params) (fmod : RNum) (o : OscState) : OscState :=
  { o with
    phase := advanceCarrier p.frequency fmod o.phase
    fmPhase := advanceModulator p.fmFreq o.fmPhase
    amPhase := advanceModulator p.amFreq o.amPhase
    dcmPhase := advanceModulator p.dcmFreq o.dcmPhase }

/-- One sample step from the snapshot `p` (rules R130, R144): the frame, and the state after it. -/
def sampleStep (c : Config) (p : Params) (s : State) : Except Fault (Frame × State) :=
  let fmod := frequencyMod p s.osc
  let amod := amplitudeMod p s.osc
  match baseWave c p (effectiveDuty p s.osc) s with
  | .error e => .error e
  | .ok (base, t) =>
    let f := ladderStep c base p.cutoff p.resonance (filterLfos p t.flt)
    let out := (f.delay3.mul p.amplitude).mul amod
    .ok (⟨out, out⟩, (t.withFlt f).withOsc (advancePhases p fmod t.osc))

/-- `n` sample steps in order: their frames, and the state after them (rule R145). -/
def sampleSteps (c : Config) (p : Params) : Nat → State → Except Fault (List Frame × State)
  | 0, s => .ok ([], s)
  | n + 1, s =>
    match sampleStep c p s with
    | .error e => .error e
    | .ok (frame, t) =>
      match sampleSteps c p n t with
      | .error e => .error e
      | .ok (frames, u) => .ok (frame :: frames, u)

/-- `OSC_RESET` (rule R142): `O`, `PINK` and all of `F` zero. -/
def execOscReset (s : State) : Result :=
  complete [] Events.none (((s.withOsc OscState.zero).withPink []).withFlt FltState.zero)

/-- `OSC_SNAP` (rule R143). -/
def execOscSnap (s : State) : Result :=
  needParams s fun p => complete [] Events.none (s.withSnap p)

/-- `OSC_SAMPLE` under a configuration (rule R144). -/
def oscSample (c : Config) (s : State) : Result :=
  needSnap s fun p =>
    match sampleStep c p s with
    | .error e => .fault e
    | .ok (frame, t) => complete (frameResults [frame]) Events.none t

/-- `OSC_SAMPLE` (rule R144). -/
def execOscSample (s : State) : Result := oscSample Config.current s

/-- `OSC_BLOCK` under a configuration (rule R145): a snapshot, then `BLOCK_FRAMES` samples. -/
def oscBlock (c : Config) (s : State) : Result :=
  needParams s fun p =>
    match sampleSteps c p c.blockFrames (s.withSnap p) with
    | .error e => .fault e
    | .ok (frames, t) => complete (frameResults frames) Events.none t

/-- `OSC_BLOCK` (rule R145). -/
def execOscBlock (s : State) : Result := oscBlock Config.current s

end Sys2Proof.Machine
end

