-- ==== Sys2Proof/Machine/Par.lean ====
section
/-! DEFINITION. The parameter store's commands (unit 0, 40_parameter_store.md, rules R90 to R102). -/

namespace Sys2Proof.Machine

/-- What every setter does with the group it has written (rule R90): the pending parameters become `p`,
`ev_par_change` is raised, no result is returned, nothing else changes. -/
def setGroup (p : PendingParams) (s : State) : Result := complete [] parChange (s.withPar p)

/-- `SET_WAVEFORM` (rule R91). -/
def execSetWaveform (kind : BitVec 3) (s : State) : Result :=
  withKind kind s fun k => setGroup { s.par with waveform := some k } s

/-- `SET_FREQ` (rule R92). -/
def execSetFreq (frequency : NumWord) (s : State) : Result :=
  withNum frequency s fun x => setGroup { s.par with frequency := some x } s

/-- `SET_AMP` (rule R93). -/
def execSetAmp (amplitude : NumWord) (s : State) : Result :=
  withNum amplitude s fun x => setGroup { s.par with amplitude := some x } s

/-- `SET_DUTY` (rule R94). -/
def execSetDuty (dutyCycle : NumWord) (s : State) : Result :=
  withNum dutyCycle s fun x => setGroup { s.par with dutyCycle := some x } s

/-- `SET_FM` (rule R95). -/
def execSetFm (fmFreq fmDepth : NumWord) (s : State) : Result :=
  withNum2 fmFreq fmDepth s fun x y => setGroup { s.par with fmFreq := some x, fmDepth := some y } s

/-- `SET_AM` (rule R96). -/
def execSetAm (amFreq amDepth : NumWord) (s : State) : Result :=
  withNum2 amFreq amDepth s fun x y => setGroup { s.par with amFreq := some x, amDepth := some y } s

/-- `SET_DCM` (rule R97). -/
def execSetDcm (dcmFreq dcmDepth : NumWord) (s : State) : Result :=
  withNum2 dcmFreq dcmDepth s fun x y => setGroup { s.par with dcmFreq := some x, dcmDepth := some y } s

/-- `SET_FILTER` (rule R98). -/
def execSetFilter (cutoff resonance : NumWord) (s : State) : Result :=
  withNum2 cutoff resonance s fun x y => setGroup { s.par with cutoff := some x, resonance := some y } s

/-- `SET_CUTOFF_LFO` (rule R99). -/
def execSetCutoffLfo (freq amount : NumWord) (s : State) : Result :=
  withNum2 freq amount s fun x y =>
    setGroup { s.par with cutoffLfoFreq := some x, cutoffLfoAmount := some y } s

/-- `SET_RES_LFO` (rule R100). -/
def execSetResLfo (freq amount : NumWord) (s : State) : Result :=
  withNum2 freq amount s fun x y => setGroup { s.par with resLfoFreq := some x, resLfoAmount := some y } s

end Sys2Proof.Machine
end

