-- ==== Sys2Proof/Machine/Spa.lean ====
section
/-! DEFINITION. The spectrum analyzer's commands (unit 4, 44_spectrum_analyzer.md, rules R180 to R192), one
definition per part of a process step. -/

namespace Sys2Proof.Machine

/-- The angle `2π * a / b`. -/
def turn (a b : Nat) : RNum := RNum.twoPi.mul (.lit ((a : Rat) / (b : Rat)))

/-- The Hann window `0.5 * (1 - cos(2π * n / D))` (rule R183). -/
def hann (c : Config) (n : Nat) : RNum :=
  (RNum.lit (1 / 2)).mul ((RNum.lit 1).sub (turn n c.hannD).cos)

/-- The window coefficients `0 .. N-1` (rule R181). -/
def hannWindow (c : Config) : List RNum := (List.range c.fftSize).map (hann c)

/-- The mean square of the window coefficients (rules R181, R183). -/
def meanSquare (c : Config) : RNum :=
  (RNum.total ((hannWindow c).map RNum.sq)).div (RNum.ofNat c.fftSize)

/-- The input copy (rule R182): the left samples of the first `min(count, N)` frames, zero-padded to
`N`. -/
def inputCopy (c : Config) (frames : List Frame) : List RNum :=
  let taken := (frames.take c.fftSize).map Frame.left
  taken ++ List.replicate (c.fftSize - taken.length) (.lit 0)

/-- The windowed input (rule R183). -/
def windowed (input win : List RNum) : List RNum := List.zipWith RNum.mul input win

/-- `XF[k]` of a real sequence of length `N`: the unnormalised forward transform (rule R184). -/
def transformBin (c : Config) (xs : List RNum) (k : Nat) : RNum × RNum :=
  (RNum.total (xs.zipIdx.map fun p => p.1.mul (turn (k * p.2) c.fftSize).cos),
   (RNum.lit 0).sub (RNum.total (xs.zipIdx.map fun p => p.1.mul (turn (k * p.2) c.fftSize).sin)))

/-- The transform's bins `0 .. N/2` (rule R184). -/
def transform (c : Config) (xs : List RNum) : List (RNum × RNum) :=
  (List.range c.bins).map (transformBin c xs)

/-- `1 / (N * sqrt(window_power))` (rule R185). -/
def magScale (c : Config) (power : RNum) : RNum :=
  (RNum.lit 1).div ((RNum.ofNat c.fftSize).mul power.sqrt)

/-- The magnitude `sqrt(re^2 + im^2) * scale` (rule R185). -/
def magnitude (scale : RNum) (z : RNum × RNum) : RNum := ((z.1.sq.add z.2.sq).sqrt).mul scale

/-- `20 * log10(max(mag, 1e-6))` (rule R186). -/
def decibels (mag : RNum) : RNum := Const.dbScale.mul (mag.max Const.magFloor).log10

/-- The decibel value clamped to `[MIN_DB, MAX_DB]` and mapped onto `[0, 1]` (rule R186). -/
def normalise (db : RNum) : RNum := ((db.clamp .minDb .maxDb).sub .minDb).div (RNum.maxDb.sub .minDb)

/-- The smoothing step `old * ALPHA + norm * (1 - ALPHA)` (rule R187). -/
def smoothStep (old norm : RNum) : RNum := (old.mul .alpha).add (norm.mul ((RNum.lit 1).sub .alpha))

/-- The analyzer after `SPA_PROCESS` on the frames of its operand (rules R182 to R188). -/
def processFrames (c : Config) (frames : List Frame) (a : Analyzer) : Except Fault Analyzer :=
  match a.windowPower with
  | none => .error .unwrittenWindowPower
  | some power =>
    match Memory.fetchAll .win a.win c.fftSize with
    | .error e => .error e
    | .ok win =>
      match Memory.fetchAll .smooth a.smooth c.bins with
      | .error e => .error e
      | .ok old =>
        let scratch := windowed (inputCopy c frames) win
        let xf := transform c scratch
        let raw := xf.map fun z => normalise (decibels (magnitude (magScale c power) z))
        .ok { a with
          scratch := Memory.writeArray a.scratch scratch
          xf := Memory.writeArray a.xf xf
          raw := Memory.writeArray a.raw raw
          smooth := Memory.writeArray a.smooth (List.zipWith smoothStep old raw) }

/-- The analyzer after `SPA_INIT` (rule R181); `SCRATCH` and `XF` are not written. -/
def constructed (c : Config) (a : Analyzer) : Analyzer :=
  { a with
    windowPower := some (meanSquare c)
    ready := true
    win := Memory.writeArray a.win (hannWindow c)
    raw := Memory.writeArray a.raw (List.replicate c.bins (.lit 0))
    smooth := Memory.writeArray a.smooth (List.replicate c.bins (.lit 0)) }

/-- `freq_to_bin(f) = f * N / SR` (rule R189). -/
def freqToBin (c : Config) (f : RNum) : RNum := (f.mul (RNum.ofNat c.fftSize)).div .sr

/-- `bin_to_freq(b) = b * SR / N` (rule R190). -/
def binToFreq (c : Config) (b : RNum) : RNum := (b.mul .sr).div (RNum.ofNat c.fftSize)

/-- `SPA_INIT` (rule R181). -/
def execSpaInit (s : State) : Result :=
  complete [] Events.none (s.withSpa (constructed Config.current s.spa))

/-- `SPA_PROCESS` on the frames of its operand (rule R188). -/
def spaProcess (c : Config) (frames : List Frame) (s : State) : Result :=
  match processFrames c frames s.spa with
  | .error e => .fault e
  | .ok a => complete [] Events.none (s.withSpa a)

/-- `SPA_PROCESS` (rule R188): the state precondition, then the operands (rule R208). -/
def execSpaProcess (count : Nat) (buffer : List NumWord) (s : State) : Result :=
  needReady s (withFrames count buffer s fun frames => spaProcess Config.current frames s)

/-- `SPA_F2B` (rule R189). -/
def execSpaF2b (f : NumWord) (s : State) : Result :=
  withNum f s fun x => complete [numResult (freqToBin Config.current x)] Events.none s

/-- `SPA_B2F` (rule R190). -/
def execSpaB2f (b : NumWord) (s : State) : Result :=
  withNum b s fun x => complete [numResult (binToFreq Config.current x)] Events.none s

/-- `SPA_READ k` under a configuration (rule R191), the analyzer being constructed. -/
def spaRead (c : Config) (k : Nat) (s : State) : Result :=
  if c.lastBin < k then takeFault (badOperand 0) s
  else
    match Memory.fetch .raw s.spa.raw k, Memory.fetch .smooth s.spa.smooth k with
    | .ok raw, .ok smooth => complete [numResult raw, numResult smooth] Events.none s
    | .error e, _ => .fault e
    | _, .error e => .fault e

/-- `SPA_READ` (rule R191): `F_UNINIT` has priority over the index check (rule R208). -/
def execSpaRead (k : Nat) (s : State) : Result := needReady s (spaRead Config.current k s)

end Sys2Proof.Machine
end

