-- ==== Sys2Proof/Machine/Dispatch.lean ====
section
/-! DEFINITION. What each command does: one arm per constructor of `Instr`. -/

namespace Sys2Proof.Machine

def exec (i : Instr) (s : State) : Host.Outcome State Fault Refusal :=
  match i with
  | .setWaveform kind => Sys2Proof.Machine.execSetWaveform kind s
  | .setFreq frequency => Sys2Proof.Machine.execSetFreq frequency s
  | .setAmp amplitude => Sys2Proof.Machine.execSetAmp amplitude s
  | .setDuty dutyCycle => Sys2Proof.Machine.execSetDuty dutyCycle s
  | .setFm fmFreq fmDepth => Sys2Proof.Machine.execSetFm fmFreq fmDepth s
  | .setAm amFreq amDepth => Sys2Proof.Machine.execSetAm amFreq amDepth s
  | .setDcm dcmFreq dcmDepth => Sys2Proof.Machine.execSetDcm dcmFreq dcmDepth s
  | .setFilter cutoff resonance => Sys2Proof.Machine.execSetFilter cutoff resonance s
  | .setCutoffLfo freq amount => Sys2Proof.Machine.execSetCutoffLfo freq amount s
  | .setResLfo freq amount => Sys2Proof.Machine.execSetResLfo freq amount s
  | .fifoClear => Sys2Proof.Machine.execFifoClear s
  | .fifoWrite n data => Sys2Proof.Machine.execFifoWrite n data s
  | .fifoRead n => Sys2Proof.Machine.execFifoRead n s
  | .fifoLevel => Sys2Proof.Machine.execFifoLevel s
  | .oscReset => Sys2Proof.Machine.execOscReset s
  | .oscSnap => Sys2Proof.Machine.execOscSnap s
  | .oscSample => Sys2Proof.Machine.execOscSample s
  | .oscBlock => Sys2Proof.Machine.execOscBlock s
  | .fltReset => Sys2Proof.Machine.execFltReset s
  | .fltStep input cutoff resonance => Sys2Proof.Machine.execFltStep input cutoff resonance s
  | .spaInit => Sys2Proof.Machine.execSpaInit s
  | .spaProcess count buffer => Sys2Proof.Machine.execSpaProcess count buffer s
  | .spaF2b f => Sys2Proof.Machine.execSpaF2b f s
  | .spaB2f b => Sys2Proof.Machine.execSpaB2f b s
  | .spaRead k => Sys2Proof.Machine.execSpaRead k s

end Sys2Proof.Machine
end

