-- ==== Sys2Proof/Machine/Step.lean ====
section
/-! DEFINITION. One step of the core: the next transaction presented at the command port is decoded and
performed (rules R31, R70, R199). -/

namespace Sys2Proof.Machine

/-- One step. With no transaction presented, no command is performed and the state persists, its one-step
outputs no longer driven (rules R33, R232). -/
def step (s : State) : Host.Outcome State Fault Refusal :=
  match s.port with
  | [] => .next (s.withOut Output.idle)
  | r :: rest =>
    match decode r.op r.operands with
    | .ok i => exec i (s.accept r rest)
    | .error e => performReject e (s.accept r rest)

/-- The state whose next step performs the command of a word of spec/opcode_table.json, with operands of
zeros: its transaction stands first in the port (notes/assumptions/6.md, 13.md). -/
def State.withFetchWord (s : State) (nbits w : Nat) : State := presentTableWord s nbits w

end Sys2Proof.Machine
end

