-- ==== Sys2Proof/Ideal.lean ====
section
/-! DEFINITION. The formulas of the rules over the real numbers (rule R9), written a second time and
without `RNum`: what the claims about computed values compare the machine with. -/

namespace Sys2Proof.Ideal

open Sys2Proof.Machine

/-- The real values of a snapshot (rule R22). -/
structure Params where
  frequency : ℝ
  amplitude : ℝ
  dutyCycle : ℝ
  fmFreq : ℝ
  fmDepth : ℝ
  amFreq : ℝ
  amDepth : ℝ
  dcmFreq : ℝ
  dcmDepth : ℝ
  cutoff : ℝ
  resonance : ℝ
  cutoffLfoFreq : ℝ
  cutoffLfoAmount : ℝ
  resLfoFreq : ℝ
  resLfoAmount : ℝ

/-- The real values of `O`'s phase accumulators (rule R24). -/
structure Phases where
  phase : ℝ
  fmPhase : ℝ
  amPhase : ℝ
  dcmPhase : ℝ

/-- The real values of `F` (rule R26). -/
structure Flt where
  delay0 : ℝ
  delay1 : ℝ
  delay2 : ℝ
  delay3 : ℝ
  cutoffMod : ℝ
  resMod : ℝ
  cutoffLfoPhase : ℝ
  resLfoPhase : ℝ

noncomputable def params (ρ : Env) (p : Machine.Params) : Params where
  frequency := p.frequency.eval ρ
  amplitude := p.amplitude.eval ρ
  dutyCycle := p.dutyCycle.eval ρ
  fmFreq := p.fmFreq.eval ρ
  fmDepth := p.fmDepth.eval ρ
  amFreq := p.amFreq.eval ρ
  amDepth := p.amDepth.eval ρ
  dcmFreq := p.dcmFreq.eval ρ
  dcmDepth := p.dcmDepth.eval ρ
  cutoff := p.cutoff.eval ρ
  resonance := p.resonance.eval ρ
  cutoffLfoFreq := p.cutoffLfoFreq.eval ρ
  cutoffLfoAmount := p.cutoffLfoAmount.eval ρ
  resLfoFreq := p.resLfoFreq.eval ρ
  resLfoAmount := p.resLfoAmount.eval ρ

noncomputable def phases (ρ : Env) (o : OscState) : Phases where
  phase := o.phase.eval ρ
  fmPhase := o.fmPhase.eval ρ
  amPhase := o.amPhase.eval ρ
  dcmPhase := o.dcmPhase.eval ρ

noncomputable def flt (ρ : Env) (f : FltState) : Flt where
  delay0 := f.delay0.eval ρ
  delay1 := f.delay1.eval ρ
  delay2 := f.delay2.eval ρ
  delay3 := f.delay3.eval ρ
  cutoffMod := f.cutoffMod.eval ρ
  resMod := f.resMod.eval ρ
  cutoffLfoPhase := f.cutoffLfoPhase.eval ρ
  resLfoPhase := f.resLfoPhase.eval ρ

/-- `clamp(x, lo, hi)` (rule R12). -/
noncomputable def clamp (x lo hi : ℝ) : ℝ := max lo (min hi x)

/-- `wrap(x)` (rules R12, R131). -/
noncomputable def wrap (x : ℝ) : ℝ := x - 2 * Real.pi * (⌊x / (2 * Real.pi)⌋ : ℤ)

/-! ### The ladder filter (rules R161 to R169) -/

/-- The saturator (rule R167). -/
noncomputable def sat (x : ℝ) : ℝ := x * (27 + x ^ 2) / (27 + 9 * x ^ 2)

/-- `Sr` (rule R167). -/
noncomputable def shape (scale : SatScale) (r x : ℝ) : ℝ :=
  match scale with
  | .output => (1 + 0.3 * r) * sat x
  | .input => sat ((1 + 0.3 * r) * x)

/-- `fc` after step 1 (rules R161, R162). -/
noncomputable def cutoffHz (sr fc : ℝ) : ℝ := max (clamp fc 20 20000) (0.0005 * sr)

/-- `f` (rule R163). -/
noncomputable def normFreq (sr fc : ℝ) : ℝ := min (fc / sr) 0.499

/-- `p` (rule R165). -/
noncomputable def onePole (f : ℝ) : ℝ := 4 * Real.pi * f / (1 + 4 * Real.pi * f)

/-- `g` for the clamped resonance (rule R164). -/
noncomputable def feedback (r : ℝ) : ℝ := 3.8 * Real.sqrt r

/-- One stage of the cascade (rule R168). -/
noncomputable def stage (p d shaped : ℝ) : ℝ := d + p * (shaped - d)

/-- `LadderStep(input, cutoff, resonance)` on the real values of `F` (rule R171). -/
noncomputable def ladderStep (c : Config) (sr input cutoff resonance : ℝ) (f : Flt) : Flt :=
  let p := onePole (normFreq sr (cutoffHz sr (cutoff + f.cutoffMod)))
  let r := clamp (resonance + f.resMod) 0 1
  let g := feedback r
  let xin := (input - g * f.delay3) * (1 / (1 + 0.1 * g))
  let d0 := stage p f.delay0 (shape c.satScale r xin)
  match c.ladderOrder with
  | .sequential =>
    let d1 := stage p f.delay1 (shape c.satScale r d0)
    let d2 := stage p f.delay2 (shape c.satScale r d1)
    let d3 := stage p f.delay3 (shape c.satScale r d2)
    { f with delay0 := d0, delay1 := d1, delay2 := d2, delay3 := d3 }
  | .simultaneous =>
    { f with
      delay0 := d0
      delay1 := stage p f.delay1 (shape c.satScale r f.delay0)
      delay2 := stage p f.delay2 (shape c.satScale r f.delay1)
      delay3 := stage p f.delay3 (shape c.satScale r f.delay2) }

/-! ### The oscillator (rules R132 to R141) -/

/-- A modulator's phase after one sample (rules R132, R133, R136, R137, R139). -/
noncomputable def advance (sr freq phase : ℝ) : ℝ :=
  if 0 < freq then wrap (phase + 2 * Real.pi * freq / sr) else phase

/-- `frequency_mod` (rule R132). -/
noncomputable def frequencyMod (p : Params) (o : Phases) : ℝ :=
  if 0 < p.fmFreq then p.fmDepth * Real.sin o.fmPhase else 0

/-- The effective duty (rule R133). -/
noncomputable def duty (p : Params) (o : Phases) : ℝ :=
  if 0 < p.dcmFreq then clamp (p.dutyCycle + p.dcmDepth * Real.sin o.dcmPhase) 0.1 0.9 else p.dutyCycle

/-- The base waveform of the four kinds that rule R134 tabulates, at phase `θ` and duty `d`. The row of
`pink` is rule R135's: `pinkBase`. -/
noncomputable def wave (θ d : ℝ) : Kind → Option ℝ
  | .sine => some (Real.sin θ)
  | .square => some (if θ ≤ d * (2 * Real.pi) then 1 else -1)
  | .saw => some (θ / Real.pi - 1)
  | .triangle =>
    some (if θ / (2 * Real.pi) < 0.5 then 4 * (θ / (2 * Real.pi)) - 1 else 3 - 4 * (θ / (2 * Real.pi)))
  | .pink => none

/-- The pink base value for the white sample `w` and the updated sum (rule R135). -/
noncomputable def pinkBase (c : Config) (w sum : ℝ) : ℝ := (w + sum / c.pinkTaps) / 2

/-- `F` after the two LFOs (rules R136, R137). -/
noncomputable def lfos (sr : ℝ) (p : Params) (f : Flt) : Flt :=
  { f with
    cutoffMod :=
      if 0 < p.cutoffLfoFreq then p.cutoffLfoAmount * Real.sin f.cutoffLfoPhase * (p.cutoff - 20) else 0
    cutoffLfoPhase := advance sr p.cutoffLfoFreq f.cutoffLfoPhase
    resMod := if 0 < p.resLfoFreq then p.resLfoAmount * Real.sin f.resLfoPhase else 0
    resLfoPhase := advance sr p.resLfoFreq f.resLfoPhase }

/-- `amplitude_mod` (rule R139). -/
noncomputable def amplitudeMod (p : Params) (o : Phases) : ℝ :=
  if 0 < p.amFreq then 1 + p.amDepth * Real.sin o.amPhase else 1

/-- The phases after one sample (rules R132, R133, R139, R141). -/
noncomputable def sampledPhases (sr : ℝ) (p : Params) (o : Phases) : Phases where
  phase := wrap (o.phase + 2 * Real.pi * p.frequency / sr * (1 + frequencyMod p o))
  fmPhase := advance sr p.fmFreq o.fmPhase
  amPhase := advance sr p.amFreq o.amPhase
  dcmPhase := advance sr p.dcmFreq o.dcmPhase

/-- `F` after one sample of base value `base` (rules R136 to R138). -/
noncomputable def sampledFlt (c : Config) (sr base : ℝ) (p : Params) (f : Flt) : Flt :=
  ladderStep c sr base p.cutoff p.resonance (lfos sr p f)

/-- The final sample (rule R140). -/
noncomputable def sampleOut (c : Config) (sr base : ℝ) (p : Params) (o : Phases) (f : Flt) : ℝ :=
  (sampledFlt c sr base p f).delay3 * p.amplitude * amplitudeMod p o

/-! ### The analyzer (rules R182 to R187) -/

/-- The Hann window (rule R183). -/
noncomputable def hann (c : Config) (n : ℕ) : ℝ := 0.5 * (1 - Real.cos (2 * Real.pi * n / c.hannD))

/-- `A.window_power` as `SPA_INIT` leaves it (rules R181, R183). -/
noncomputable def windowPower (c : Config) : ℝ :=
  (∑ n ∈ Finset.range c.fftSize, hann c n ^ 2) / c.fftSize

/-- The left sample of frame `i` of a buffer, 0 past its end (rule R182). -/
noncomputable def leftSample (ρ : Env) (frames : List Frame) (i : ℕ) : ℝ :=
  ((frames.getD i Frame.silence).left).eval ρ

/-- `XF[k].re` of the sequence `x` (rule R184). -/
noncomputable def transformRe (c : Config) (x : ℕ → ℝ) (k : ℕ) : ℝ :=
  ∑ n ∈ Finset.range c.fftSize, x n * Real.cos (2 * Real.pi * k * n / c.fftSize)

/-- `XF[k].im` of the sequence `x` (rule R184). -/
noncomputable def transformIm (c : Config) (x : ℕ → ℝ) (k : ℕ) : ℝ :=
  -∑ n ∈ Finset.range c.fftSize, x n * Real.sin (2 * Real.pi * k * n / c.fftSize)

/-- `mag_k` (rule R185). -/
noncomputable def magnitude (c : Config) (power re im : ℝ) : ℝ :=
  Real.sqrt (re ^ 2 + im ^ 2) * (1 / (c.fftSize * Real.sqrt power))

/-- `norm_k` (rule R186). -/
noncomputable def normalised (ρ : Env) (mag : ℝ) : ℝ :=
  (clamp (20 * Real.logb 10 (max mag 0.000001)) ρ.minDb ρ.maxDb - ρ.minDb) / (ρ.maxDb - ρ.minDb)

end Sys2Proof.Ideal
end

