-- ==== Sys2Proof/Safety.lean ====
section
/-! DEFINITION. The terms in which runs are called good: the ownership duty of the agents (rule R210), and
the invariants of the state that the spec states. -/

namespace Sys2Proof.Safety

open Sys2Proof.Machine

/-- Which agent may issue which command (rules R10, R210). A duty of the agents; no command checks it. -/
def mayIssue : Agent → Opcode → Bool
  | .ctrl, .setWaveform | .ctrl, .setFreq | .ctrl, .setAmp | .ctrl, .setDuty | .ctrl, .setFm
  | .ctrl, .setAm | .ctrl, .setDcm | .ctrl, .setFilter | .ctrl, .setCutoffLfo | .ctrl, .setResLfo => true
  | .gen, .oscReset | .gen, .fltReset | .gen, .oscSnap | .gen, .oscSample | .gen, .oscBlock
  | .gen, .fltStep | .gen, .fifoWrite | .gen, .fifoLevel => true
  | .cons, .fifoRead => true
  | .disp, .spaInit | .disp, .spaProcess | .disp, .spaRead | .disp, .spaF2b | .disp, .spaB2f => true
  | .host, .oscReset | .host, .fltReset | .host, .fifoClear | .host, .spaInit => true
  | _, _ => false

/-- Every transaction presented at the port is one its agent may issue. -/
def keepsOwnership (s : State) : Bool :=
  s.port.all fun r =>
    match Opcode.ofByte r.op with
    | some oc => mayIssue r.agent oc
    | none => true

/-- The FIFO's invariant (rules R27, R110). -/
structure FifoOk (c : Config) (q : FifoState) : Prop where
  count_le : q.count ≤ c.capacity
  wr_lt : q.wr < c.capacity
  rd_lt : q.rd < c.capacity
  cursors : (q.rd + q.count) % c.capacity = q.wr

/-- Every memory space is in its canonical form and lists only elements it has (rule R50). -/
structure MemoryOk (c : Config) (s : State) : Prop where
  store : Memory.wf (some Frame.silence) s.store = true ∧ Memory.within c.capacity s.store = true
  pink : Memory.wf (some (.lit 0)) s.pink = true ∧ Memory.within c.pinkTaps s.pink = true
  win : Memory.wf none s.spa.win = true ∧ Memory.within c.fftSize s.spa.win = true
  scratch : Memory.wf none s.spa.scratch = true ∧ Memory.within c.fftSize s.spa.scratch = true
  xf : Memory.wf none s.spa.xf = true ∧ Memory.within c.bins s.spa.xf = true
  raw : Memory.wf none s.spa.raw = true ∧ Memory.within c.bins s.spa.raw = true
  smooth : Memory.wf none s.spa.smooth = true ∧ Memory.within c.bins s.spa.smooth = true

/-- Element `i` of a space that starts unwritten holds a value. -/
def Written {α : Type} (m : Memory α) (i : Nat) : Prop := ∃ v, Memory.read none m i = some v

/-- Once the analyzer is constructed, its power, its window and its magnitude arrays are written (rules
R29, R30, R181). -/
structure AnalyzerOk (c : Config) (a : Analyzer) : Prop where
  power : a.ready = true → ∃ p, a.windowPower = some p
  win : a.ready = true → ∀ n, n < c.fftSize → Written a.win n
  raw : a.ready = true → ∀ k, k < c.bins → Written a.raw k
  smooth : a.ready = true → ∀ k, k < c.bins → Written a.smooth k

/-- The invariant of the machine under a configuration, but for the values of the reals. -/
structure StateOk (c : Config) (s : State) : Prop where
  fifo : FifoOk c s.fifo
  memory : MemoryOk c s
  pinkIdx : s.osc.pinkIdx < c.pinkTaps
  analyzer : AnalyzerOk c s.spa

/-- A phase lies in `[0, 2π)` (rules R24, R26, R131). -/
def PhaseOk (ρ : Env) (x : RNum) : Prop := 0 ≤ x.eval ρ ∧ x.eval ρ < 2 * Real.pi

/-- The six phase accumulators lie in `[0, 2π)` (rules R24, R26). -/
structure PhasesOk (ρ : Env) (s : State) : Prop where
  phase : PhaseOk ρ s.osc.phase
  fmPhase : PhaseOk ρ s.osc.fmPhase
  amPhase : PhaseOk ρ s.osc.amPhase
  dcmPhase : PhaseOk ρ s.osc.dcmPhase
  cutoffLfoPhase : PhaseOk ρ s.flt.cutoffLfoPhase
  resLfoPhase : PhaseOk ρ s.flt.resLfoPhase

/-- `O.pink_sum` is the sum of the taps (rule R38), and every tap is in the range of a white sample (rule
R135). -/
structure PinkOk (c : Config) (ρ : Env) (s : State) : Prop where
  idx : s.osc.pinkIdx < c.pinkTaps
  sum : s.osc.pinkSum.eval ρ = ∑ i ∈ Finset.range c.pinkTaps, (tap s.pink i).eval ρ
  range : ∀ i, i < c.pinkTaps → -1 ≤ (tap s.pink i).eval ρ ∧ (tap s.pink i).eval ρ ≤ 1

/-- Every written magnitude is in `[0, 1]` (rules R30, R50, R186, R187). -/
structure SpectrumOk (ρ : Env) (a : Analyzer) : Prop where
  raw : ∀ k v, Memory.read none a.raw k = some v → 0 ≤ v.eval ρ ∧ v.eval ρ ≤ 1
  smooth : ∀ k v, Memory.read none a.smooth k = some v → 0 ≤ v.eval ρ ∧ v.eval ρ ≤ 1

/-- `Q.tick_time` is a time value already drawn: no draw still to come (rules R28, R114). -/
def StampOk (s : State) : Prop :=
  ∀ k, s.fifo.tickTime = .reading k ∨ s.fifo.tickTime = .unspecified k → k < s.clockDraws

/-- The outputs with which a command answers `rs` and raises `ev` (rules R33, R80). -/
def answered (s : State) (rs : List Operand) (ev : Events) : Output := ⟨s.out.agent, .results rs, ev⟩

/-- The outputs with which a command reports a fault: no results, no event (rule R201). -/
def reported (s : State) (code : FaultCode) (info : Option Nat) : Output :=
  ⟨s.out.agent, .fault ⟨code, info⟩, ⟨false, false, false⟩⟩

/-- No event output is raised. -/
def quiet : Events := ⟨false, false, false⟩

/-- The unit of a command: `op[7:4]` of its opcode byte (rules R2, R71). -/
def unitOf (i : Instr) : Nat := opUnit i.opcode.toByte

/-- The position of the first bad operand of an ill-formed command: 1 for a `FRAMES` operand, the place of
the first `NUM` word that is not finite elsewhere, 0 for a `KIND` (rule R201; notes/assumptions/11.md). -/
def firstBad : Instr → Nat
  | .fifoWrite _ _ | .spaProcess _ _ => 1
  | i => i.numWords.findIdx fun w => !w.isFinite

/-- Operand `p` of a transaction is there and is legal: a finite `NUM`, a `NAT` (for `SPA_READ` at most
`N/2`) or a `KIND` code that names a kind, as the opcode calls for there (rules R72, R73, R203). A `FRAMES`
operand, which is legal only as a whole, is not said to be. -/
def goodOperand (oc : Opcode) (ops : List Operand) (p : Nat) : Prop :=
  (∃ x, oc.signature[p]? = some .num ∧ ops[p]? = some (.num (.finite x))) ∨
  (∃ n, oc.signature[p]? = some .nat ∧ ops[p]? = some (.nat n) ∧
    (oc = .spaRead → n ≤ Config.current.fftSize / 2)) ∨
  ∃ code, oc.signature[p]? = some .kind ∧ ops[p]? = some (.kind code) ∧ code.toNat < 5

/-- Perform a sequence of commands one after another: the replies, in order, and the last state (a run in
the sense of rule R199); none where one of them has no next state. -/
def perform : List Instr → State → Option (List Reply × State)
  | [], s => some ([], s)
  | i :: is, s =>
    match exec i s with
    | .next t =>
      match perform is t with
      | some (rs, u) => some (t.out.reply :: rs, u)
      | none => none
    | .fault _ => none
    | .refused _ => none

/-- A safe step: the core goes on (rule R199: no step is ever disabled). -/
def StepSafe (s : State) : Prop := ∃ t, step s = .next t

end Sys2Proof.Safety
end

