-- ==== Sys2Proof/Certificates/Slice0/Obligations.lean ====
section
/-! DEFINITION. The statements for the provers. Each formalises the rules its entry of OBLIGATIONS.json cites;
`Config.current` is an arbitrary configuration that meets rule R7, and a statement about values holds for
every valid `Env`, the real parameters and the draws. Where a statement is parametrised by a configuration
`c`, it holds for every one. The fields `port`, `out`, `whiteDraws` and `clockDraws` of the state are the
model's own (notes/assumptions/6.md, 7.md, 21.md). -/

open Sys2Proof Sys2Proof.Machine Sys2Proof.Safety

/-- For every command, with every operand at every value (bad operand values included), decoding its opcode
byte and its operand words gives exactly that command. (Rules R70, R72, R74.) -/
def Obligations.DecodeInvertsEncode : Prop :=
  ∀ i : Instr, decode (encode i).1 (encode i).2 = .ok i

/-- If an opcode byte and an operand list decode to a command, then that byte and that list are exactly the
encoding of the command: no bit and no operand is dropped, and no command has two transactions. (Rules R70,
R74, R77.) -/
def Obligations.EncodeInvertsDecode : Prop :=
  ∀ (op : Byte) (operands : List Operand) (i : Instr), decode op operands = .ok i → encode i = (op, operands)

/-- An opcode byte is illegal exactly where its unit and function fields fall in the listed ranges; there
are 231 such bytes. A transaction with an illegal byte, whatever its operands, is answered with
F_ILLEGAL_CMD and the byte as info; every piece of state keeps its value and no event is raised. (The port
queue and the outputs are the model's own fields: logs 6 and 7.) (Rules R75, R202.) -/
def Obligations.IllegalOpcodesFault : Prop :=
  (∀ op : Byte, Opcode.ofByte op = none ↔
      opUnit op = 0 ∧ 10 ≤ opFn op ∨ opUnit op = 1 ∧ 4 ≤ opFn op ∨ opUnit op = 2 ∧ 4 ≤ opFn op ∨
      opUnit op = 3 ∧ 2 ≤ opFn op ∨ opUnit op = 4 ∧ 5 ≤ opFn op ∨ 5 ≤ opUnit op) ∧
    ((Finset.univ : Finset Byte).filter fun op => Opcode.ofByte op = none).card = 231 ∧
    ∀ (s : State) (r : Request) (rest : List Request), s.port = r :: rest → Opcode.ofByte r.op = none →
      step s = .next { s with
        port := rest
        out := ⟨some r.agent, .fault ⟨.illegalCmd, some r.op.toNat⟩, quiet⟩ }

/-- A transaction with a legal opcode byte whose operand words are those of no command of that opcode is
answered with a fault: that of the command's state precondition where it fails, else F_BAD_OPERAND with the
position of the first operand that is not there and legal (a NUM finite, a KIND code named, a NAT, for
SPA_READ at most N/2, as the opcode calls for in that place). Nothing else changes and no event is raised.
MODEL'S CHOICE in the position of a FRAMES operand and of a missing or surplus one, and in the place of the
state precondition: logs 11 and 12. (Rules R81, R201, R203, R208.) -/
def Obligations.MalformedTransactionFaults : Prop :=
  ∀ (s : State) (r : Request) (rest : List Request) (oc : Opcode), s.port = r :: rest →
    Opcode.ofByte r.op = some oc → (∀ i : Instr, i.opcode = oc → i.operands ≠ r.operands) →
    (∀ report, precondition oc s = some report →
      step s = .next { s with port := rest, out := ⟨some r.agent, .fault report, quiet⟩ }) ∧
    ∀ p, precondition oc s = none → (∀ q, q < p → goodOperand oc r.operands q) →
      ¬goodOperand oc r.operands p →
      step s = .next { s with
        port := rest
        out := ⟨some r.agent, .fault ⟨.badOperand, some p⟩, quiet⟩ }

/-- Nine transactions written out from the opcode map and the test vectors (00 with kind code 1, 01 with
447A0000, 04, 11 with one frame, 13, 23, 31, 41, 44) decode to the commands they stand for. The two that
carry NUM operands as bit patterns (01 and 11) rest on the binary32 format, which rule R72 only proposes and
which the model PRESUMES from general knowledge: log 10. (Rules R72, R73, R74.) -/
def Obligations.TransactionsDecodeAsTabled : Prop :=
  decode 0x00 [.kind 1] = .ok (.setWaveform 1) ∧
    decode 0x01 [.num (binary32 0x447A0000)] = .ok (.setFreq (.finite (.lit 1000))) ∧
    decode 0x04 [.num (.finite (.lit 5)), .num (.finite (.lit (1 / 4)))] =
      .ok (.setFm (.finite (.lit 5)) (.finite (.lit (1 / 4)))) ∧
    decode 0x11 [.nat 1, .num (binary32 0x3F800000), .num (binary32 0xBF800000)] =
      .ok (.fifoWrite 1 [.finite (.lit 1), .finite (.lit (-1))]) ∧
    decode 0x13 [] = .ok .fifoLevel ∧
    decode 0x23 [] = .ok .oscBlock ∧
    decode 0x31 [.num (.finite (.lit 1)), .num (.finite (.lit 1000)), .num (.finite (.lit 0))] =
      .ok (.fltStep (.finite (.lit 1)) (.finite (.lit 1000)) (.finite (.lit 0))) ∧
    decode 0x41 [.nat 0] = .ok (.spaProcess 0 []) ∧
    decode 0x44 [.nat 5] = .ok (.spaRead 5)

/-- Where the transaction that stands first at the port decodes to a command i, the step is exec of i on the
state in which the transaction has been taken off the port and the outputs are addressed to the agent that
issued it. (Port and outputs are the model's own fields: logs 6 and 7.) (Rules R31, R57, R70, R199.) -/
def Obligations.StepRunsDecoded : Prop :=
  ∀ (s : State) (r : Request) (rest : List Request) (i : Instr), s.port = r :: rest →
    decode r.op r.operands = .ok i →
    step s = exec i { s with port := rest, out := ⟨some r.agent, .idle, quiet⟩ }

/-- Where the port is empty the step answers the same state, with the one-step outputs no longer driven.
MODEL'S CHOICE that such a step exists at all: log 6. (Rules R33, R232.) -/
def Obligations.IdleStepKeepsState : Prop :=
  ∀ s : State, s.port = [] → step s = .next { s with out := ⟨none, .idle, quiet⟩ }

/-- Whatever agent stands in a transaction, the step has the same outcome but for the agent its outputs are
addressed to: if it answers next t for one agent, then for another it answers t with the outputs addressed
to that one. (Rule R210.) -/
def Obligations.IssuerIsNotChecked : Prop :=
  ∀ (s t : State) (r : Request) (rest : List Request) (agent : Agent), s.port = r :: rest →
    step s = .next t →
    step { s with port := { r with agent := agent } :: rest } =
      .next { t with out := { t.out with agent := some agent } }

/-- The codes 0 to 4 name sine, square, saw, triangle, pink. SET_WAVEFORM of such a code completes:
P.waveform holds the kind, ev_par_change is raised, and every other piece of state is unchanged. With a code
of 5 to 7 it is answered with F_BAD_OPERAND and changes nothing (the info value 0, the operand's position,
is rule R201's). (Rules R73, R91.) -/
def Obligations.SetWaveformEffect : Prop :=
  encode (.setWaveform 1) = (0x00, [.kind 1]) ∧
    (∀ (code : BitVec 3) (s : State) (kind : Kind),
      (code, kind) ∈ [((0 : BitVec 3), Kind.sine), (1, .square), (2, .saw), (3, .triangle), (4, .pink)] →
      exec (.setWaveform code) s = .next { s with
        par := { s.par with waveform := some kind }
        out := answered s [] ⟨false, true, false⟩ }) ∧
    ∀ (code : BitVec 3) (s : State), 5 ≤ code.toNat →
      exec (.setWaveform code) s = .next { s with out := reported s .badOperand (some 0) }

/-- With a finite operand each of the three completes: its register of P holds the operand as given (no
clamp), ev_par_change is raised, no result is returned, and every other piece of state is unchanged. (Rules
R90, R92, R93, R94.) -/
def Obligations.SingleSettersEffect : Prop :=
  (∀ x, encode (.setFreq x) = (0x01, [.num x]) ∧ encode (.setAmp x) = (0x02, [.num x]) ∧
      encode (.setDuty x) = (0x03, [.num x])) ∧
    ∀ (x : RNum) (s : State),
      exec (.setFreq (.finite x)) s = .next { s with
        par := { s.par with frequency := some x }
        out := answered s [] ⟨false, true, false⟩ } ∧
      exec (.setAmp (.finite x)) s = .next { s with
        par := { s.par with amplitude := some x }
        out := answered s [] ⟨false, true, false⟩ } ∧
      exec (.setDuty (.finite x)) s = .next { s with
        par := { s.par with dutyCycle := some x }
        out := answered s [] ⟨false, true, false⟩ }

/-- SET_FM, SET_AM, SET_DCM, SET_FILTER, SET_CUTOFF_LFO and SET_RES_LFO with finite operands complete: both
registers of the group hold the operands as given, ev_par_change is raised once, no result is returned, and
every other piece of state is unchanged. (Rules R60, R90, R95, R96, R97, R98, R99, R100.) -/
def Obligations.PairSettersEffect : Prop :=
  (∀ x y, encode (.setFm x y) = (0x04, [.num x, .num y]) ∧ encode (.setAm x y) = (0x05, [.num x, .num y]) ∧
      encode (.setDcm x y) = (0x06, [.num x, .num y]) ∧ encode (.setFilter x y) = (0x07, [.num x, .num y]) ∧
      encode (.setCutoffLfo x y) = (0x08, [.num x, .num y]) ∧
      encode (.setResLfo x y) = (0x09, [.num x, .num y])) ∧
    ∀ (x y : RNum) (s : State),
      exec (.setFm (.finite x) (.finite y)) s = .next { s with
        par := { s.par with fmFreq := some x, fmDepth := some y }
        out := answered s [] ⟨false, true, false⟩ } ∧
      exec (.setAm (.finite x) (.finite y)) s = .next { s with
        par := { s.par with amFreq := some x, amDepth := some y }
        out := answered s [] ⟨false, true, false⟩ } ∧
      exec (.setDcm (.finite x) (.finite y)) s = .next { s with
        par := { s.par with dcmFreq := some x, dcmDepth := some y }
        out := answered s [] ⟨false, true, false⟩ } ∧
      exec (.setFilter (.finite x) (.finite y)) s = .next { s with
        par := { s.par with cutoff := some x, resonance := some y }
        out := answered s [] ⟨false, true, false⟩ } ∧
      exec (.setCutoffLfo (.finite x) (.finite y)) s = .next { s with
        par := { s.par with cutoffLfoFreq := some x, cutoffLfoAmount := some y }
        out := answered s [] ⟨false, true, false⟩ } ∧
      exec (.setResLfo (.finite x) (.finite y)) s = .next { s with
        par := { s.par with resLfoFreq := some x, resLfoAmount := some y }
        out := answered s [] ⟨false, true, false⟩ }

/-- A command with a kind code of 5 to 7, a NUM word that is not finite, or a FRAMES(n) operand that does
not hold 2n words, and whose state precondition does not fail, is answered with F_BAD_OPERAND and the
position of the first bad operand; where the precondition fails, with the precondition's fault. Nothing else
changes, no event is raised. MODEL'S CHOICE in what counts as a word that is not finite (log 10) and in the
position of a FRAMES operand (log 11). (Rules R72, R81, R201, R203, R208.) -/
def Obligations.IllFormedCommandFaults : Prop :=
  ∀ (i : Instr) (s : State), i.wf = false →
    (precondition i.opcode s = none →
      exec i s = .next { s with out := reported s .badOperand (some (firstBad i)) }) ∧
    ∀ report, precondition i.opcode s = some report →
      exec i s = .next { s with out := reported s report.code report.info }

/-- Where register n is the lowest-numbered unwritten register of P, OSC_SNAP and OSC_BLOCK are answered
with F_UNWRITTEN_PARAM and info n; where the snapshot is unwritten, OSC_SAMPLE is answered with
F_UNWRITTEN_PARAM and info 16. Nothing else changes and no event is raised. (Rules R23, R143, R144, R145,
R201, R204.) -/
def Obligations.UnwrittenParameterFaults : Prop :=
  (∀ (s : State) (n : Nat), (∀ m, m < n → s.par.isWritten.getD m false = true) →
      s.par.isWritten[n]? = some false →
      exec .oscSnap s = .next { s with out := reported s .unwrittenParam (some n) } ∧
      exec .oscBlock s = .next { s with out := reported s .unwrittenParam (some n) }) ∧
    ∀ s : State, s.snap = none →
      exec .oscSample s = .next { s with out := reported s .unwrittenParam (some 16) }

/-- While A.ready = 0, SPA_PROCESS and SPA_READ are answered with F_UNINIT, without info, whatever their
operands (a bad operand included: F_UNINIT has priority), and nothing else changes. (Rules R188, R191, R205,
R208.) -/
def Obligations.UninitialisedAnalyzerFaults : Prop :=
  ∀ s : State, s.spa.ready = false →
    (∀ n words, exec (.spaProcess n words) s = .next { s with out := reported s .uninit none }) ∧
    ∀ k, exec (.spaRead k) s = .next { s with out := reported s .uninit none }

/-- For every command and every state: where exec answers a next state whose reply is a fault report, that
state differs from the one before in the outputs alone, and no event is raised. (Rules R200, R201, R209.) -/
def Obligations.FaultChangesNothing : Prop :=
  ∀ (i : Instr) (s t : State) (report : FaultReport), exec i s = .next t → t.out.reply = .fault report →
    t = { s with out := ⟨s.out.agent, .fault report, quiet⟩ }

/-- Where a command answers a next state: ev_par_change is raised exactly if the command is a setter and
reports no fault; ev_tick exactly if it is FIFO_READ; ev_underrun exactly if it is FIFO_READ and Q.count was
below MIN_FILL. (Rules R33, R90, R102, R113, R114, R207.) -/
def Obligations.EventsRaisedExactly : Prop :=
  ∀ (i : Instr) (s t : State), exec i s = .next t →
    (t.out.events.parChange = true ↔ unitOf i = 0 ∧ ∀ report, t.out.reply ≠ .fault report) ∧
    (t.out.events.tick = true ↔ i.opcode = .fifoRead) ∧
    (t.out.events.underrun = true ↔ i.opcode = .fifoRead ∧ s.fifo.count < Config.current.minFill)

/-- For every command that answers a next state: P changes only by a command of unit PAR; S only by OSC_SNAP
and OSC_BLOCK; O only by OSC_RESET, OSC_SAMPLE and OSC_BLOCK; every tap of PINK likewise; F only by those
three, FLT_RESET and FLT_STEP; Q and every slot of STORE only by FIFO_CLEAR, FIFO_WRITE and FIFO_READ, STORE
not by FIFO_READ; the analyzer only by SPA_INIT and SPA_PROCESS. No command changes the port or the agent
its outputs are addressed to. (Rules R2, R21, R22, R24, R26, R27, R35, R50, R54, R180, R225.) -/
def Obligations.UnitsKeepToTheirState : Prop :=
  ∀ (i : Instr) (s t : State), exec i s = .next t →
    (unitOf i ≠ 0 → t.par = s.par) ∧
    (i.opcode ∉ [Opcode.oscSnap, .oscBlock] → t.snap = s.snap) ∧
    (i.opcode ∉ [Opcode.oscReset, .oscSample, .oscBlock] →
      t.osc = s.osc ∧ t.pink = s.pink ∧ t.whiteDraws = s.whiteDraws) ∧
    (i.opcode ∉ [Opcode.oscReset, .oscSample, .oscBlock, .fltReset, .fltStep] → t.flt = s.flt) ∧
    (i.opcode ∉ [Opcode.fifoClear, .fifoWrite, .fifoRead] →
      t.fifo = s.fifo ∧ t.clockDraws = s.clockDraws) ∧
    (i.opcode ∉ [Opcode.fifoClear, .fifoWrite] → t.store = s.store) ∧
    (i.opcode ∉ [Opcode.spaInit, .spaProcess] → t.spa = s.spa) ∧
    t.port = s.port ∧ t.out.agent = s.out.agent

/-- Across every step: a register of P that is written stays written, a written snapshot stays written, and
a constructed analyzer stays constructed. (Rules R23, R204, R221.) -/
def Obligations.WrittenStaysWritten : Prop :=
  ∀ s t : State, step s = .next t →
    (∀ n, s.par.isWritten.getD n false = true → t.par.isWritten.getD n false = true) ∧
    (s.snap.isSome = true → t.snap.isSome = true) ∧
    (s.spa.ready = true → t.spa.ready = true)

/-- OSC_SAMPLE, FLT_STEP, OSC_RESET and FLT_RESET do the same whatever P holds: where one answers next t
from s, it answers t with the other P from s with that other P. OSC_SNAP with P complete makes S equal to P.
(Rules R34, R57, R58, R143.) -/
def Obligations.SettersReachSamplesOnlyThroughSnap : Prop :=
  (∀ (i : Instr) (s t : State) (p : PendingParams),
      i.opcode ∈ [Opcode.oscSample, .fltStep, .oscReset, .fltReset] → exec i s = .next t →
      exec i { s with par := p } = .next { t with par := p }) ∧
    ∀ (s t : State) (p : Params), s.par = p.written → exec .oscSnap s = .next t → t.snap = some p

/-- A command of the units PAR, FIFO, OSC and FLT does the same whatever the analyzer holds and leaves it
alone; a command of the analyzer leaves, in two states that agree on the analyzer and on the agent
addressed, the same analyzer and the same outputs. (Rules R180, R212.) -/
def Obligations.AnalyzerIsIndependent : Prop :=
  (∀ (i : Instr) (s t : State) (a : Analyzer), unitOf i ≠ 4 → exec i s = .next t →
      exec i { s with spa := a } = .next { t with spa := a }) ∧
    ∀ (i : Instr) (s s' t : State), unitOf i = 4 → s.spa = s'.spa → s.out.agent = s'.out.agent →
      exec i s = .next t → exec i s' = .next { s' with spa := t.spa, out := t.out }

/-- After reset, and after every step from any state in which it holds: 0 <= Q.count <= C, Q.wr < C, Q.rd <
C and (Q.rd + Q.count) mod C = Q.wr. (Rule R110.) -/
def Obligations.FifoInvariantKept : Prop :=
  FifoOk Config.current State.reset.fifo ∧
    ∀ s t : State, FifoOk Config.current s.fifo → step s = .next t → FifoOk Config.current t.fifo

/-- FIFO_CLEAR completes from every state: Q.wr, Q.rd, Q.count and Q.tick_count are 0, every slot of STORE
reads (0, 0), Q.tick_time is an unspecified value (a free value of its own draw), no result, no event, and
nothing else changes. (Rule R111.) -/
def Obligations.FifoClearEffect : Prop :=
  encode .fifoClear = (0x10, []) ∧
    ∀ s : State, ∃ store,
      exec .fifoClear s = .next { s with
        fifo := ⟨0, 0, 0, 0, .unspecified s.clockDraws⟩
        store := store
        clockDraws := s.clockDraws + 1
        out := answered s [] quiet } ∧
      ∀ i, slot store i = ⟨.lit 0, .lit 0⟩

/-- FIFO_WRITE of n finite frames completes from every state. With a = min(n, C - Q.count): frame j of the
operand stands in slot (Q.wr + j) mod C for every j < a, every other slot reads as before, Q.wr becomes
(Q.wr + a) mod C, Q.count becomes Q.count + a, the result is a, no event is raised, and nothing else
changes. (Rules R112, R117, R197, R229.) -/
def Obligations.FifoWriteEffect : Prop :=
  (∀ n data, encode (.fifoWrite n data) = (0x11, .nat n :: data.map .num)) ∧
    ∀ (s : State) (data : List Frame), ∃ store,
      exec (.fifoWrite data.length (frameWords data)) s = .next { s with
        store := store
        fifo := { s.fifo with
          wr := (s.fifo.wr + min data.length (Config.current.capacity - s.fifo.count)) %
            Config.current.capacity
          count := s.fifo.count + min data.length (Config.current.capacity - s.fifo.count) }
        out := answered s [.nat (min data.length (Config.current.capacity - s.fifo.count))] quiet } ∧
      (∀ j, j < min data.length (Config.current.capacity - s.fifo.count) →
        slot store ((s.fifo.wr + j) % Config.current.capacity) = data.getD j Frame.silence) ∧
      ∀ i, (∀ j, j < min data.length (Config.current.capacity - s.fifo.count) →
          (s.fifo.wr + j) % Config.current.capacity ≠ i) →
        slot store i = slot s.store i

/-- FIFO_READ n completes from every state. It stamps Q.tick_time with the next clock draw, adds 1 to
Q.tick_count and raises ev_tick. Where Q.count < MIN_FILL it answers n frames of silence, raises ev_underrun
and changes nothing else. Otherwise, with m = min(n, Q.count), it answers n frames: frame j is slot (Q.rd +
j) mod C for j < m and silence from m on; Q.rd becomes (Q.rd + m) mod C, Q.count becomes Q.count - m; STORE
and everything else is unchanged. (Rules R113, R114, R117, R118, R197, R211.) -/
def Obligations.FifoReadEffect : Prop :=
  (∀ n, encode (.fifoRead n) = (0x12, [.nat n])) ∧
    ∀ (s : State) (n : Nat), ∃ data : List Frame,
      exec (.fifoRead n) s = .next { s with
        fifo :=
          { wr := s.fifo.wr
            rd :=
              if s.fifo.count < Config.current.minFill then s.fifo.rd
              else (s.fifo.rd + min n s.fifo.count) % Config.current.capacity
            count :=
              if s.fifo.count < Config.current.minFill then s.fifo.count
              else s.fifo.count - min n s.fifo.count
            tickCount := s.fifo.tickCount + 1
            tickTime := .reading s.clockDraws }
        clockDraws := s.clockDraws + 1
        out :=
          answered s (frameResults data) ⟨true, false, decide (s.fifo.count < Config.current.minFill)⟩ } ∧
      data.length = n ∧
      ∀ j, j < n → data[j]? = some
        (if s.fifo.count < Config.current.minFill then ⟨.lit 0, .lit 0⟩
        else if j < min n s.fifo.count then slot s.store ((s.fifo.rd + j) % Config.current.capacity)
        else ⟨.lit 0, .lit 0⟩)

/-- FIFO_LEVEL completes from every state with the result Q.count, raises no event, and changes nothing.
(Rule R115.) -/
def Obligations.FifoLevelAnswersCount : Prop :=
  encode .fifoLevel = (0x13, []) ∧
    ∀ s : State, exec .fifoLevel s = .next { s with out := answered s [.nat s.fifo.count] quiet }

/-- Let the queue be the stored frames, oldest first. From every state that meets the FIFO's invariant:
FIFO_WRITE appends the first C - length of the offered frames; FIFO_READ n takes nothing where the queue is
shorter than MIN_FILL, else answers its first n frames, padded with silence, and drops them; FIFO_CLEAR
empties it; every other command leaves it as it is. (Rules R51, R57, R63, R112, R113, R118.) -/
def Obligations.FifoRefinesQueue : Prop :=
  ∀ s : State, FifoOk Config.current s.fifo →
    (storedFrames Config.current s).length = s.fifo.count ∧
    (∀ (data : List Frame) (t : State), exec (.fifoWrite data.length (frameWords data)) s = .next t →
      storedFrames Config.current t =
        storedFrames Config.current s ++
          data.take (Config.current.capacity - (storedFrames Config.current s).length)) ∧
    (∀ (n : Nat) (t : State), exec (.fifoRead n) s = .next t →
      storedFrames Config.current t =
        (if s.fifo.count < Config.current.minFill then storedFrames Config.current s
        else (storedFrames Config.current s).drop n) ∧
      t.out.reply = .results (frameResults
        (if s.fifo.count < Config.current.minFill then List.replicate n Frame.silence
        else (storedFrames Config.current s).take n ++
          List.replicate (n - s.fifo.count) Frame.silence))) ∧
    (∀ t : State, exec .fifoClear s = .next t → storedFrames Config.current t = []) ∧
    ∀ (i : Instr) (t : State), i.opcode ∉ [Opcode.fifoClear, .fifoWrite, .fifoRead] →
      exec i s = .next t → storedFrames Config.current t = storedFrames Config.current s

/-- From a cleared FIFO, any sequence of FIFO_WRITE commands whose sizes sum to at most C, with no read
between them, completes; each write answers its own size, and then Q.count is the sum of the sizes. (Rules
R112, R116.) -/
def Obligations.WritesThatFitAccumulate : Prop :=
  ∀ (s : State) (blocks : List (List Frame)), FifoOk Config.current s.fifo → s.fifo.count = 0 →
    (blocks.map List.length).sum ≤ Config.current.capacity →
    ∃ t, perform (blocks.map fun b => .fifoWrite b.length (frameWords b)) s =
        some (blocks.map fun b => .results [.nat b.length], t) ∧
      t.fifo.count = (blocks.map List.length).sum

/-- For every configuration with C divisible by 4 and MIN_FILL <= C/2, from a cleared FIFO: a write of C/2
frames is accepted in full, a read of C/4 answers the first C/4 frames written, a second write of C/2 frames
is accepted in full and wraps the write cursor to 0 with Q.count = 3C/4, and the frames then stored are the
remaining C/4 of the first write and the C/2 of the second, in order. (The configuration is an argument: the
property is stated for each.) (Rules R116, R117.) -/
def Obligations.WraparoundRoundTrip : Prop :=
  ∀ (c : Config) (s : State) (first second : List Frame), c.valid = true → 4 ∣ c.capacity →
    c.minFill ≤ c.capacity / 2 → s.fifo.wr = 0 → s.fifo.rd = 0 → s.fifo.count = 0 →
    first.length = c.capacity / 2 → second.length = c.capacity / 2 →
    ∃ t u v, fifoWrite c (c.capacity / 2) first s = .next t ∧
      t.out.reply = .results [.nat (c.capacity / 2)] ∧
      fifoRead c (c.capacity / 4) t = .next u ∧
      u.out.reply = .results (frameResults (first.take (c.capacity / 4))) ∧
      fifoWrite c (c.capacity / 2) second u = .next v ∧
      v.out.reply = .results [.nat (c.capacity / 2)] ∧
      v.fifo.wr = 0 ∧ v.fifo.count = 3 * c.capacity / 4 ∧
      storedFrames c v = first.drop (c.capacity / 4) ++ second

/-- Any command but FIFO_WRITE that answers a next state leaves Q.count as it was or lower; so a write sized
to C minus a level read before it, with no other write between, is accepted in full. (Rules R115, R229.) -/
def Obligations.LevelOnlyFallsWithoutWrites : Prop :=
  (∀ (i : Instr) (s t : State), i.opcode ≠ .fifoWrite → exec i s = .next t →
      t.fifo.count ≤ s.fifo.count) ∧
    ∀ (level : Nat) (s t : State) (data : List Frame), s.fifo.count ≤ level →
      data.length ≤ Config.current.capacity - level →
      exec (.fifoWrite data.length (frameWords data)) s = .next t →
      t.out.reply = .results [.nat data.length]

/-- After reset, and after every step from a state in which it holds, Q.tick_time is no time draw still to
come. From such a state a FIFO_READ leaves a stamp whose clock value, for every monotonic sequence of clock
values, is at least that of the stamp it replaces, where that one is a clock draw; and a FIFO_CLEAR leaves a
stamp that can be any value whatever the value of the stamp before it. (The draws are the model's: log 5.)
(Rules R28, R111, R114, R211.) -/
def Obligations.StampsNeverDecrease : Prop :=
  StampOk State.reset ∧
    (∀ s t : State, StampOk s → step s = .next t → StampOk t) ∧
    (∀ (ρ : Env) (s t : State) (n k : Nat), ρ.Valid → StampOk s → s.fifo.tickTime = .reading k →
      exec (.fifoRead n) s = .next t → s.fifo.tickTime.eval ρ ≤ t.fifo.tickTime.eval ρ) ∧
    ∀ (ρ : Env) (s t : State) (v : ℝ), StampOk s → exec .fifoClear s = .next t →
      ∃ anyTime : ℕ → ℝ,
        s.fifo.tickTime.eval { ρ with anyTime := anyTime } = s.fifo.tickTime.eval ρ ∧
        t.fifo.tickTime.eval { ρ with anyTime := anyTime } = v

/-- OSC_RESET completes from every state: the four phases, pink_sum and pink_idx are 0, every tap of PINK
reads 0, all eight registers of F are 0, no result, no event, and nothing else (P and S in particular)
changes. (Rule R142.) -/
def Obligations.OscResetEffect : Prop :=
  encode .oscReset = (0x20, []) ∧
    ∀ s : State, ∃ pink,
      exec .oscReset s = .next { s with
        osc := ⟨.lit 0, .lit 0, .lit 0, .lit 0, .lit 0, 0⟩
        pink := pink
        flt := ⟨.lit 0, .lit 0, .lit 0, .lit 0, .lit 0, .lit 0, .lit 0, .lit 0⟩
        out := answered s [] quiet } ∧
      ∀ i, tap pink i = .lit 0

/-- Where all sixteen registers of P are written, OSC_SNAP completes: S holds all their values, no result,
no event, and nothing else changes. Where register n is the lowest-numbered unwritten one, it is answered
with F_UNWRITTEN_PARAM and info n, and S is unchanged. (Rule R143.) -/
def Obligations.OscSnapEffect : Prop :=
  encode .oscSnap = (0x21, []) ∧
    (∀ (s : State) (p : Params), s.par = p.written →
      exec .oscSnap s = .next { s with snap := some p, out := answered s [] quiet }) ∧
    ∀ (s : State) (n : Nat), (∀ m, m < n → s.par.isWritten.getD m false = true) →
      s.par.isWritten[n]? = some false →
      exec .oscSnap s = .next { s with out := reported s .unwrittenParam (some n) }

/-- Where S is written with a waveform other than pink, OSC_SAMPLE completes. Under every valid choice of
the real parameters, with base the value of the waveform table at theta = O.phase and the effective duty:
the four phases, the eight registers of F and the answered frame (out, out) have exactly the real values of
rules R132 to R141; O.pink_sum, O.pink_idx and everything else (PINK, S, P, Q, STORE, the analyzer) are
unchanged, no draw is consumed and no event raised. (Rules R130, R132, R133, R134, R136, R137, R138, R139,
R140, R141, R144.) -/
def Obligations.OscSampleComputesSample : Prop :=
  encode .oscSample = (0x22, []) ∧
    ∀ (s : State) (p : Params), s.snap = some p → p.waveform ≠ .pink →
    ∃ (out : RNum) (osc : OscState) (flt : FltState),
      exec .oscSample s = .next { s with
        osc := osc
        flt := flt
        out := answered s [.num (.finite out), .num (.finite out)] quiet } ∧
      osc.pinkSum = s.osc.pinkSum ∧ osc.pinkIdx = s.osc.pinkIdx ∧
      ∀ (ρ : Env) (base : ℝ), ρ.Valid →
        Ideal.wave (s.osc.phase.eval ρ) (Ideal.duty (Ideal.params ρ p) (Ideal.phases ρ s.osc)) p.waveform =
          some base →
        Ideal.phases ρ osc = Ideal.sampledPhases ρ.sr (Ideal.params ρ p) (Ideal.phases ρ s.osc) ∧
        Ideal.flt ρ flt = Ideal.sampledFlt Config.current ρ.sr base (Ideal.params ρ p) (Ideal.flt ρ s.flt) ∧
        out.eval ρ =
          Ideal.sampleOut Config.current ρ.sr base (Ideal.params ρ p) (Ideal.phases ρ s.osc)
            (Ideal.flt ρ s.flt)

/-- Where S is written with the pink waveform and O.pink_idx is below PINK_TAPS, OSC_SAMPLE completes: it
consumes one white draw w, tap O.pink_idx becomes w and every other tap reads as before, O.pink_idx advances
by 1 modulo PINK_TAPS. Under every valid choice of the real parameters and draws, O.pink_sum becomes
pink_sum - old + w, base is (w + pink_sum / PINK_TAPS) / 2, and the phases, F and the answered frame (out,
out) have the real values of rules R132 to R141 for that base; nothing else changes, no event is raised.
(Rules R25, R38, R130, R132, R135, R136, R137, R138, R139, R140, R141, R144.) -/
def Obligations.OscSampleComputesPink : Prop :=
  ∀ (s : State) (p : Params), s.snap = some p → p.waveform = .pink →
    s.osc.pinkIdx < Config.current.pinkTaps →
    ∃ (out : RNum) (osc : OscState) (pink : Memory RNum) (flt : FltState),
      exec .oscSample s = .next { s with
        osc := osc
        pink := pink
        flt := flt
        whiteDraws := s.whiteDraws + 1
        out := answered s [.num (.finite out), .num (.finite out)] quiet } ∧
      (∀ i, tap pink i = if i = s.osc.pinkIdx then .white s.whiteDraws else tap s.pink i) ∧
      osc.pinkIdx = (s.osc.pinkIdx + 1) % Config.current.pinkTaps ∧
      ∀ (ρ : Env) (base : ℝ), ρ.Valid →
        base = Ideal.pinkBase Config.current (ρ.white s.whiteDraws) (osc.pinkSum.eval ρ) →
        osc.pinkSum.eval ρ =
          s.osc.pinkSum.eval ρ - (tap s.pink s.osc.pinkIdx).eval ρ + ρ.white s.whiteDraws ∧
        Ideal.phases ρ osc = Ideal.sampledPhases ρ.sr (Ideal.params ρ p) (Ideal.phases ρ s.osc) ∧
        Ideal.flt ρ flt = Ideal.sampledFlt Config.current ρ.sr base (Ideal.params ρ p) (Ideal.flt ρ s.flt) ∧
        out.eval ρ =
          Ideal.sampleOut Config.current ρ.sr base (Ideal.params ρ p) (Ideal.phases ρ s.osc)
            (Ideal.flt ρ s.flt)

/-- Where P is complete and O.pink_idx is below PINK_TAPS, OSC_BLOCK completes: S holds the values of P, the
answer is BLOCK_FRAMES frames with equal left and right samples, no event is raised, and nothing but S, O,
PINK, F and the count of white draws changes; for pink the draws grow by BLOCK_FRAMES, O.pink_idx advances
as often and only the taps from O.pink_idx on, BLOCK_FRAMES of them modulo PINK_TAPS, may change; for
another waveform no draw is consumed and PINK and O.pink_idx keep their values. (Rules R140, R145, R195.) -/
def Obligations.OscBlockCompletes : Prop :=
  encode .oscBlock = (0x23, []) ∧
    ∀ (s : State) (p : Params), s.par = p.written → s.osc.pinkIdx < Config.current.pinkTaps →
    ∃ (frames : List Frame) (osc : OscState) (pink : Memory RNum) (flt : FltState),
      exec .oscBlock s = .next { s with
        snap := some p
        osc := osc
        pink := pink
        flt := flt
        whiteDraws := s.whiteDraws + if p.waveform = .pink then Config.current.blockFrames else 0
        out := answered s (frameResults frames) quiet } ∧
      frames.length = Config.current.blockFrames ∧ (∀ f ∈ frames, f.right = f.left) ∧
      osc.pinkIdx = (s.osc.pinkIdx + if p.waveform = .pink then Config.current.blockFrames else 0) %
        Config.current.pinkTaps ∧
      (p.waveform ≠ .pink → pink = s.pink) ∧
      ∀ i, (∀ j, j < Config.current.blockFrames → (s.osc.pinkIdx + j) % Config.current.pinkTaps ≠ i) →
        tap pink i = tap s.pink i

/-- Where P is complete and O.pink_idx is below PINK_TAPS, performing OSC_SNAP and then BLOCK_FRAMES times
OSC_SAMPLE completes, each sample with one frame; OSC_BLOCK completes, its answer is those frames in order,
and the state it leaves is the state the sequence leaves, but for the outputs. (Rules R79, R145.) -/
def Obligations.BlockIsSnapThenSamples : Prop :=
  ∀ (s : State) (p : Params), s.par = p.written → s.osc.pinkIdx < Config.current.pinkTaps →
    ∃ (t u : State) (frames : List Frame),
      exec .oscBlock s = .next t ∧
      perform (.oscSnap :: List.replicate Config.current.blockFrames .oscSample) s =
        some (.results [] :: frames.map fun f => .results (frameResults [f]), u) ∧
      t.out.reply = .results (frameResults frames) ∧
      t = { u with out := t.out }

/-- wrap(x) is x - 2 pi floor(x / 2 pi) and lies in [0, 2 pi) for every real x. After reset the six phase
accumulators lie in [0, 2 pi), and so they do after every step from a state in which they do, under every
choice of the real parameters and draws. (Rules R24, R26, R131.) -/
def Obligations.PhasesStayInRange : Prop :=
  ∀ ρ : Env,
    (∀ x : RNum, x.wrap.eval ρ = Ideal.wrap (x.eval ρ) ∧ PhaseOk ρ x.wrap) ∧
    PhasesOk ρ State.reset ∧
    ∀ s t : State, PhasesOk ρ s → step s = .next t → PhasesOk ρ t

/-- Under every valid choice of the real parameters and draws: after reset, and after every step from a
state in which it holds, O.pink_idx is below PINK_TAPS, O.pink_sum equals the sum of the PINK_TAPS elements
of PINK, and every tap lies in [-1, 1]. (Rules R25, R38, R135.) -/
def Obligations.PinkSumIsTapTotal : Prop :=
  ∀ ρ : Env, ρ.Valid →
    PinkOk Config.current ρ State.reset ∧
    ∀ s t : State, PinkOk Config.current ρ s → step s = .next t → PinkOk Config.current ρ t

/-- For every configuration, every valid choice of the reals, every snapshot and every duty: from a state
with O.phase in [0, 2 pi) whose pink registers meet their invariant, the base value of one sample step lies
in [-1, 1]. (Rules R134, R135, R147.) -/
def Obligations.BaseWaveBounded : Prop :=
  ∀ (c : Config) (ρ : Env) (p : Params) (d base : RNum) (s t : State), c.valid = true → ρ.Valid →
    PhaseOk ρ s.osc.phase → PinkOk c ρ s → baseWave c p d s = .ok (base, t) →
    -1 ≤ base.eval ρ ∧ base.eval ρ ≤ 1

/-- The base value of sine, square, saw and triangle at theta = 0, pi/2, pi and 3 pi/2 is that of the table
of reference values, and, for every duty d, a square wave is +1 for theta up to and including d * 2 pi and
-1 above it (for d = 0.5: at pi). (Rules R134, R146.) -/
def Obligations.WaveformsAtReferencePhases : Prop :=
  ∀ (ρ : Env) (θ d : RNum),
    (θ.eval ρ = 0 → (waveSine θ).eval ρ = 0 ∧ (waveSaw θ).eval ρ = -1 ∧ (waveTriangle θ).eval ρ = -1 ∧
      (0 ≤ d.eval ρ → (waveSquare θ d).eval ρ = 1)) ∧
    (θ.eval ρ = Real.pi / 2 → (waveSine θ).eval ρ = 1 ∧ (waveSaw θ).eval ρ = -0.5 ∧
      (waveTriangle θ).eval ρ = 0 ∧ (waveSquare θ d).eval ρ = if 0.25 ≤ d.eval ρ then 1 else -1) ∧
    (θ.eval ρ = Real.pi → (waveSine θ).eval ρ = 0 ∧ (waveSaw θ).eval ρ = 0 ∧ (waveTriangle θ).eval ρ = 1 ∧
      (waveSquare θ d).eval ρ = if 0.5 ≤ d.eval ρ then 1 else -1) ∧
    (θ.eval ρ = 3 * Real.pi / 2 → (waveSine θ).eval ρ = -1 ∧ (waveSaw θ).eval ρ = 0.5 ∧
      (waveTriangle θ).eval ρ = 0 ∧ (waveSquare θ d).eval ρ = if 0.75 ≤ d.eval ρ then 1 else -1) ∧
    (θ.eval ρ ≤ d.eval ρ * (2 * Real.pi) → (waveSquare θ d).eval ρ = 1) ∧
    (d.eval ρ * (2 * Real.pi) < θ.eval ρ → (waveSquare θ d).eval ρ = -1) ∧
    (d.eval ρ = 0.5 → (θ.eval ρ ≤ Real.pi → (waveSquare θ d).eval ρ = 1) ∧
      (Real.pi < θ.eval ρ → (waveSquare θ d).eval ρ = -1))

/-- Where S has fm_freq, am_freq, dcm_freq, cutoff_lfo_freq and res_lfo_freq at or below 0: frequency_mod is
0, amplitude_mod is 1, the duty is the static duty, and an OSC_SAMPLE that answers a next state leaves the
modulator phases and LFO phases at their values and cutoff_mod and res_mod at 0. (For frequencies below 0
this is the reading of rules R101 and R132, decision D10.) (Rules R101, R132, R133, R136, R137, R139, R146.)
-/
def Obligations.ModulatorsOffAreNeutral : Prop :=
  ∀ (ρ : Env) (s t : State) (p : Params), ρ.Valid → s.snap = some p → p.fmFreq.eval ρ ≤ 0 →
    p.amFreq.eval ρ ≤ 0 → p.dcmFreq.eval ρ ≤ 0 → p.cutoffLfoFreq.eval ρ ≤ 0 → p.resLfoFreq.eval ρ ≤ 0 →
    exec .oscSample s = .next t →
    (frequencyMod p s.osc).eval ρ = 0 ∧ (amplitudeMod p s.osc).eval ρ = 1 ∧
    (effectiveDuty p s.osc).eval ρ = p.dutyCycle.eval ρ ∧
    t.osc.fmPhase.eval ρ = s.osc.fmPhase.eval ρ ∧ t.osc.amPhase.eval ρ = s.osc.amPhase.eval ρ ∧
    t.osc.dcmPhase.eval ρ = s.osc.dcmPhase.eval ρ ∧
    t.flt.cutoffLfoPhase.eval ρ = s.flt.cutoffLfoPhase.eval ρ ∧
    t.flt.resLfoPhase.eval ρ = s.flt.resLfoPhase.eval ρ ∧
    t.flt.cutoffMod.eval ρ = 0 ∧ t.flt.resMod.eval ρ = 0

/-- For every snapshot and oscillator state: amplitude_mod lies between 1 - |am_depth| and 1 + |am_depth|, 1
+ frequency_mod between 1 - |fm_depth| and 1 + |fm_depth|, and while dcm_freq > 0 the effective duty lies in
[0.1, 0.9]. (Rules R133, R147.) -/
def Obligations.ModulatorRanges : Prop :=
  ∀ (ρ : Env) (p : Params) (o : OscState),
    |(amplitudeMod p o).eval ρ - 1| ≤ |p.amDepth.eval ρ| ∧
    |(frequencyMod p o).eval ρ| ≤ |p.fmDepth.eval ρ| ∧
    (0 < p.dcmFreq.eval ρ → 0.1 ≤ (effectiveDuty p o).eval ρ ∧ (effectiveDuty p o).eval ρ ≤ 0.9)

/-- FLT_RESET completes from every state: all eight registers of F are 0, no result, no event, and nothing
else changes. A FLT_STEP with input 0 after it, whatever its cutoff and resonance, completes, answers 0 and
leaves all four delays 0. (Rule R170.) -/
def Obligations.FltResetEffect : Prop :=
  encode .fltReset = (0x30, []) ∧
    (∀ s : State, exec .fltReset s = .next { s with
      flt := ⟨.lit 0, .lit 0, .lit 0, .lit 0, .lit 0, .lit 0, .lit 0, .lit 0⟩
      out := answered s [] quiet }) ∧
    ∀ (s : State) (fc r : RNum), s.flt = FltState.zero →
      ∃ (flt : FltState) (out : RNum), exec (.fltStep (.finite (.lit 0)) (.finite fc) (.finite r)) s =
        .next { s with flt := flt, out := answered s [.num (.finite out)] quiet } ∧
      ∀ ρ : Env, ρ.Valid → out.eval ρ = 0 ∧ flt.delay0.eval ρ = 0 ∧ flt.delay1.eval ρ = 0 ∧
        flt.delay2.eval ρ = 0 ∧ flt.delay3.eval ρ = 0

/-- FLT_STEP with finite operands completes from every state: under every choice of the real parameters the
registers of F have exactly the real values of the seven steps, for both settings of LADDER_ORDER and
SAT_SCALE; the two modulation scalars and the two LFO phases are not written; the answer is the new
delay[3]; no event is raised and nothing but F changes. (Rules R160, R161, R162, R163, R164, R165, R166,
R167, R168, R169, R171.) -/
def Obligations.FltStepComputesLadder : Prop :=
  (∀ x fc r, encode (.fltStep x fc r) = (0x31, [.num x, .num fc, .num r])) ∧
    ∀ (s : State) (x fc r : RNum), ∃ flt : FltState,
      exec (.fltStep (.finite x) (.finite fc) (.finite r)) s = .next { s with
        flt := flt
        out := answered s [.num (.finite flt.delay3)] quiet } ∧
      flt.cutoffMod = s.flt.cutoffMod ∧ flt.resMod = s.flt.resMod ∧
      flt.cutoffLfoPhase = s.flt.cutoffLfoPhase ∧ flt.resLfoPhase = s.flt.resLfoPhase ∧
      ∀ ρ : Env, Ideal.flt ρ flt =
        Ideal.ladderStep Config.current ρ.sr (x.eval ρ) (fc.eval ρ) (r.eval ρ) (Ideal.flt ρ s.flt)

/-- For every cutoff and every resonance, under every valid choice of the reals: f = min(fc/SR, 0.499) for
the clamped fc and 0.0005 <= f <= 0.499; r is clamped to [0, 1], g = 3.8 sqrt(r) and 0 <= g <= 3.8; k = 4 pi
f, p = k / (1 + k) and 0 < p < 1. (Rules R162, R163, R164, R165.) -/
def Obligations.FilterCoefficientsBounded : Prop :=
  ∀ (ρ : Env) (fc r : RNum), ρ.Valid →
    (normFreq (clampCutoff fc)).eval ρ = min (Ideal.cutoffHz ρ.sr (fc.eval ρ) / ρ.sr) 0.499 ∧
    0.0005 ≤ (normFreq (clampCutoff fc)).eval ρ ∧ (normFreq (clampCutoff fc)).eval ρ ≤ 0.499 ∧
    (clampResonance r).eval ρ = max 0 (min 1 (r.eval ρ)) ∧
    (feedbackGain (clampResonance r)).eval ρ = 3.8 * Real.sqrt ((clampResonance r).eval ρ) ∧
    0 ≤ (feedbackGain (clampResonance r)).eval ρ ∧ (feedbackGain (clampResonance r)).eval ρ ≤ 3.8 ∧
    (poleK (normFreq (clampCutoff fc))).eval ρ = 4 * Real.pi * (normFreq (clampCutoff fc)).eval ρ ∧
    (onePole (poleK (normFreq (clampCutoff fc)))).eval ρ =
      (poleK (normFreq (clampCutoff fc))).eval ρ / (1 + (poleK (normFreq (clampCutoff fc))).eval ρ) ∧
    0 < (onePole (poleK (normFreq (clampCutoff fc)))).eval ρ ∧
    (onePole (poleK (normFreq (clampCutoff fc)))).eval ρ < 1

/-- The saturator computes x (27 + x^2) / (27 + 9 x^2); the stage nonlinearity is drive * sat(x) or
sat(drive * x) with drive = 1 + 0.3 r, by SAT_SCALE, and 1 <= drive <= 1.3 for the clamped r. sat is odd,
sat(0) = 0, its slope at 0 is 1, its derivative at every x is (729 - 162 x^2 + 9 x^4) / (27 + 9 x^2)^2 = 9
(x^2 - 9)^2 / (27 + 9 x^2)^2, which is never negative and zero only at |x| = 3, it is strictly increasing,
sat(3) = 1, |sat(x)| <= |x| for all x, and it is not bounded: sat(x) - x/9 tends to 0 for large |x|. (Rule
R167.) -/
def Obligations.SaturatorLaws : Prop :=
  (∀ (ρ : Env) (x : RNum), (saturate x).eval ρ = Ideal.sat (x.eval ρ)) ∧
    (∀ (ρ : Env) (c : Config) (r x : RNum), (stageShape c r x).eval ρ =
      match c.satScale with
      | .output => (1 + 0.3 * r.eval ρ) * Ideal.sat (x.eval ρ)
      | .input => Ideal.sat ((1 + 0.3 * r.eval ρ) * x.eval ρ)) ∧
    (∀ (ρ : Env) (r : RNum), 1 ≤ (drive (clampResonance r)).eval ρ ∧
      (drive (clampResonance r)).eval ρ ≤ 1.3) ∧
    (∀ x : ℝ, Ideal.sat (-x) = -Ideal.sat x) ∧ Ideal.sat 0 = 0 ∧ HasDerivAt Ideal.sat 1 0 ∧
    (∀ x : ℝ, HasDerivAt Ideal.sat (9 * (x ^ 2 - 9) ^ 2 / (27 + 9 * x ^ 2) ^ 2) x ∧
      (729 - 162 * x ^ 2 + 9 * x ^ 4) / (27 + 9 * x ^ 2) ^ 2 =
        9 * (x ^ 2 - 9) ^ 2 / (27 + 9 * x ^ 2) ^ 2 ∧
      0 ≤ 9 * (x ^ 2 - 9) ^ 2 / (27 + 9 * x ^ 2) ^ 2 ∧
      (9 * (x ^ 2 - 9) ^ 2 / (27 + 9 * x ^ 2) ^ 2 = 0 ↔ |x| = 3)) ∧
    StrictMono Ideal.sat ∧ Ideal.sat 3 = 1 ∧ (∀ x : ℝ, |Ideal.sat x| ≤ |x|) ∧
    Filter.Tendsto (fun x => Ideal.sat x - x / 9) Filter.atTop (nhds 0) ∧
    Filter.Tendsto (fun x => Ideal.sat x - x / 9) Filter.atBot (nhds 0) ∧
    Filter.Tendsto Ideal.sat Filter.atTop Filter.atTop

/-- For every configuration, every valid choice of the reals, every cutoff and every input u >= 0: from the
zero filter state, repeated filter steps with input u and resonance 0 leave an output that never falls,
never exceeds sat(sat(sat(sat(u)))), and tends to it. (Rules R168, R170, R172.) -/
def Obligations.StepResponseMonotone : Prop :=
  ∀ (c : Config) (ρ : Env) (u fc : RNum), ρ.Valid → 0 ≤ u.eval ρ →
    (∀ n : ℕ, (((ladderStep c u fc (.lit 0))^[n] FltState.zero).delay3).eval ρ ≤
        (((ladderStep c u fc (.lit 0))^[n + 1] FltState.zero).delay3).eval ρ ∧
      (((ladderStep c u fc (.lit 0))^[n] FltState.zero).delay3).eval ρ ≤
        Ideal.sat (Ideal.sat (Ideal.sat (Ideal.sat (u.eval ρ))))) ∧
    Filter.Tendsto (fun n : ℕ => (((ladderStep c u fc (.lit 0))^[n] FltState.zero).delay3).eval ρ)
      Filter.atTop (nhds (Ideal.sat (Ideal.sat (Ideal.sat (Ideal.sat (u.eval ρ))))))

/-- SPA_INIT completes from every state: A.ready is 1; WIN[n] has the real value hann(n) for n < N;
A.window_power is the mean square of the window; RAW[k] and SMOOTH[k] are 0 for k <= N/2; SCRATCH and XF
keep their contents, as does every index outside those ranges; no result, no event, and nothing but the
analyzer changes. (Rules R181, R183.) -/
def Obligations.SpaInitConstructs : Prop :=
  encode .spaInit = (0x40, []) ∧
    ∀ s : State, ∃ (a : Analyzer) (power : RNum),
      exec .spaInit s = .next { s with spa := a, out := answered s [] quiet } ∧
      a.ready = true ∧ a.windowPower = some power ∧
      (∀ ρ : Env, power.eval ρ = Ideal.windowPower Config.current) ∧
      (∀ n, n < Config.current.fftSize → ∃ w, Memory.read none a.win n = some w ∧
        ∀ ρ : Env, w.eval ρ = Ideal.hann Config.current n) ∧
      (∀ n, Config.current.fftSize ≤ n → Memory.read none a.win n = Memory.read none s.spa.win n) ∧
      (∀ k, k < Config.current.bins → Memory.read none a.raw k = some (.lit 0) ∧
        Memory.read none a.smooth k = some (.lit 0)) ∧
      (∀ k, Config.current.bins ≤ k → Memory.read none a.raw k = Memory.read none s.spa.raw k ∧
        Memory.read none a.smooth k = Memory.read none s.spa.smooth k) ∧
      a.scratch = s.spa.scratch ∧ a.xf = s.spa.xf

/-- From a constructed analyzer, SPA_PROCESS of any number of finite frames completes. With x(n) the left
sample of frame n (0 past the end of the buffer) times WIN[n], under every choice of the reals: SCRATCH[n]
is x(n); XF[k] is the transform of x; RAW[k] is the normalised decibel magnitude of XF[k] under the stored
window power; SMOOTH[k] is SMOOTH[k] * ALPHA + RAW[k] * (1 - ALPHA). WIN, A.window_power, A.ready and every
index outside the arrays are unchanged; no result, no event, and nothing but the analyzer changes. (Rules
R182, R183, R184, R185, R186, R187, R188.) -/
def Obligations.SpaProcessComputesSpectrum : Prop :=
  (∀ n words, encode (.spaProcess n words) = (0x41, .nat n :: words.map .num)) ∧
    ∀ (s : State) (frames : List Frame), s.spa.ready = true → AnalyzerOk Config.current s.spa →
    ∃ (a : Analyzer) (power : RNum),
      exec (.spaProcess frames.length (frameWords frames)) s =
        .next { s with spa := a, out := answered s [] quiet } ∧
      s.spa.windowPower = some power ∧
      a.win = s.spa.win ∧ a.windowPower = s.spa.windowPower ∧ a.ready = s.spa.ready ∧
      (∀ n, Config.current.fftSize ≤ n →
        Memory.read none a.scratch n = Memory.read none s.spa.scratch n) ∧
      (∀ k, Config.current.bins ≤ k →
        Memory.read none a.xf k = Memory.read none s.spa.xf k ∧
        Memory.read none a.raw k = Memory.read none s.spa.raw k ∧
        Memory.read none a.smooth k = Memory.read none s.spa.smooth k) ∧
      ∃ x : Env → ℕ → ℝ,
        (∀ n, n < Config.current.fftSize → ∃ w v, Memory.read none s.spa.win n = some w ∧
          Memory.read none a.scratch n = some v ∧
          ∀ ρ : Env, x ρ n = Ideal.leftSample ρ frames n * w.eval ρ ∧ v.eval ρ = x ρ n) ∧
        ∀ k, k < Config.current.bins → ∃ re im raw old smooth, Memory.read none a.xf k = some (re, im) ∧
          Memory.read none a.raw k = some raw ∧ Memory.read none s.spa.smooth k = some old ∧
          Memory.read none a.smooth k = some smooth ∧
          ∀ ρ : Env, re.eval ρ = Ideal.transformRe Config.current (x ρ) k ∧
            im.eval ρ = Ideal.transformIm Config.current (x ρ) k ∧
            raw.eval ρ = Ideal.normalised ρ
              (Ideal.magnitude Config.current (power.eval ρ) (re.eval ρ) (im.eval ρ)) ∧
            smooth.eval ρ = old.eval ρ * ρ.alpha + raw.eval ρ * (1 - ρ.alpha)

/-- SPA_F2B f and SPA_B2F b complete from every state for a finite operand, answer f*N/SR and b*SR/N as
exact reals, not rounded and not clamped, and change nothing; for an operand that is not finite they are
answered with F_BAD_OPERAND and change nothing; under every valid choice of the reals SPA_B2F(SPA_F2B(f)) =
f and SPA_F2B(SPA_B2F(b)) = b. (Rules R189, R190.) -/
def Obligations.BinConversions : Prop :=
  (∀ x, encode (.spaF2b x) = (0x42, [.num x]) ∧ encode (.spaB2f x) = (0x43, [.num x])) ∧
    (∀ (s : State) (x : RNum), ∃ bin freq : RNum,
      exec (.spaF2b (.finite x)) s = .next { s with out := answered s [.num (.finite bin)] quiet } ∧
      exec (.spaB2f (.finite x)) s = .next { s with out := answered s [.num (.finite freq)] quiet } ∧
      ∀ ρ : Env, bin.eval ρ = x.eval ρ * Config.current.fftSize / ρ.sr ∧
        freq.eval ρ = x.eval ρ * ρ.sr / Config.current.fftSize) ∧
    (∀ s : State,
      exec (.spaF2b .nonFinite) s = .next { s with out := reported s .badOperand (some 0) } ∧
      exec (.spaB2f .nonFinite) s = .next { s with out := reported s .badOperand (some 0) }) ∧
    ∀ (ρ : Env) (c : Config) (x : RNum), ρ.Valid →
      (binToFreq c (freqToBin c x)).eval ρ = x.eval ρ ∧ (freqToBin c (binToFreq c x)).eval ρ = x.eval ρ

/-- From a constructed analyzer, SPA_READ k completes for k <= N/2 with the results RAW[k] and SMOOTH[k],
raises no event and changes nothing; for k > N/2 it is answered with F_BAD_OPERAND and changes nothing.
(Rules R191, R201, R203.) -/
def Obligations.SpaReadAnswersBin : Prop :=
  (∀ k, encode (.spaRead k) = (0x44, [.nat k])) ∧
    ∀ (s : State) (k : Nat), s.spa.ready = true → AnalyzerOk Config.current s.spa →
      (k ≤ Config.current.fftSize / 2 → ∃ raw smooth,
        Memory.read none s.spa.raw k = some raw ∧ Memory.read none s.spa.smooth k = some smooth ∧
        exec (.spaRead k) s =
          .next { s with out := answered s [.num (.finite raw), .num (.finite smooth)] quiet }) ∧
      (Config.current.fftSize / 2 < k →
        exec (.spaRead k) s = .next { s with out := reported s .badOperand (some 0) })

/-- Under every valid choice of the real parameters: after reset, and after every step from a state in which
it holds, every written element of RAW and SMOOTH lies in [0, 1]. (Rules R30, R50, R186, R187, R191.) -/
def Obligations.SpectrumStaysNormalised : Prop :=
  ∀ ρ : Env, ρ.Valid →
    SpectrumOk ρ State.reset.spa ∧
    ∀ s t : State, SpectrumOk ρ s.spa → step s = .next t → SpectrumOk ρ t.spa

/-- Two buffers whose first N frames have the same left samples (a buffer shorter than N counts as padded
with 0) leave the same state: the right channel and the frames from N on have no effect. (Rule R182.) -/
def Obligations.OnlyLeftSamplesAreAnalysed : Prop :=
  ∀ (s : State) (frames frames' : List Frame),
    (∀ i, i < Config.current.fftSize →
      (frames.getD i Frame.silence).left = (frames'.getD i Frame.silence).left) →
    exec (.spaProcess frames.length (frameWords frames)) s =
      exec (.spaProcess frames'.length (frameWords frames')) s

/-- Applying the smoothing step j times with the same normalised value v, starting from 0, gives v * (1 -
ALPHA^j); and one step from a value in [0, 1] with v in [0, 1] stays in [0, 1]. (Rule R187.) -/
def Obligations.SmoothingClosedForm : Prop :=
  ∀ (ρ : Env) (v old : RNum) (j : ℕ), ρ.Valid →
    (((fun x => smoothStep x v)^[j] (.lit 0)).eval ρ = v.eval ρ * (1 - ρ.alpha ^ j)) ∧
    (0 ≤ old.eval ρ → old.eval ρ ≤ 1 → 0 ≤ v.eval ρ → v.eval ρ ≤ 1 →
      0 ≤ (smoothStep old v).eval ρ ∧ (smoothStep old v).eval ρ ≤ 1)

/-- For every configuration that meets the constraints, A.window_power as SPA_INIT computes it is positive;
for N >= 4 it is 0.375 for the periodic window and 0.375 (N - 1) / N for the symmetric one. (Rules R7, R181,
R183.) -/
def Obligations.WindowPowerClosedForm : Prop :=
  ∀ (c : Config) (ρ : Env), c.valid = true →
    0 < (meanSquare c).eval ρ ∧
    (4 ≤ c.fftSize → c.hannDenom = .periodic → (meanSquare c).eval ρ = 0.375) ∧
    (4 ≤ c.fftSize → c.hannDenom = .symmetric →
      (meanSquare c).eval ρ = 0.375 * ((c.fftSize : ℝ) - 1) / c.fftSize)

/-- For every configuration that meets the constraints and every valid choice of the reals: SR, pi, 2 pi,
PINK_TAPS, N, D, 1 + k, 1 + 0.1 g, 27 + 9 x^2 and MAX_DB - MIN_DB are positive; the window power that
SPA_INIT computes is positive, and so is N * sqrt(window_power) for it and for any positive power; the
clamped resonance and re^2 + im^2 are non-negative, and the logarithm's argument is at least 1e-6. (Rules
R7, R9, R194.) -/
def Obligations.NoDivisionByZero : Prop :=
  ∀ (c : Config) (ρ : Env) (x fc r power re im : RNum), c.valid = true → ρ.Valid →
    0 < ρ.sr ∧ 0 < RNum.pi.eval ρ ∧ 0 < RNum.twoPi.eval ρ ∧ 0 < c.pinkTaps ∧ 0 < c.fftSize ∧ 0 < c.hannD ∧
    0 < 1 + (poleK (normFreq (clampCutoff fc))).eval ρ ∧
    0 < 1 + 0.1 * (feedbackGain (clampResonance r)).eval ρ ∧
    0 < 27 + 9 * x.eval ρ ^ 2 ∧ 0 < ρ.maxDb - ρ.minDb ∧
    0 < (meanSquare c).eval ρ ∧ 0 < (c.fftSize : ℝ) * Real.sqrt ((meanSquare c).eval ρ) ∧
    (0 < power.eval ρ → 0 < (c.fftSize : ℝ) * Real.sqrt (power.eval ρ)) ∧
    0 ≤ (re.sq.add im.sq).eval ρ ∧
    0 ≤ (clampResonance r).eval ρ ∧ 0.000001 ≤ (x.max Const.magFloor).eval ρ

/-- After reset: the machine's invariant holds; every register of P and the snapshot is unwritten; O and F
are zero; every tap is 0 and every slot silent; the FIFO counters are 0; the analyzer is not ready, its
power and its arrays are unwritten; no event is raised. (Rules R36, R220.) -/
def Obligations.ResetMeetsInvariants : Prop :=
  StateOk Config.current State.reset ∧
    (∀ n, State.reset.par.isWritten.getD n false = false) ∧ State.reset.snap = none ∧
    State.reset.osc = ⟨.lit 0, .lit 0, .lit 0, .lit 0, .lit 0, 0⟩ ∧
    State.reset.flt = ⟨.lit 0, .lit 0, .lit 0, .lit 0, .lit 0, .lit 0, .lit 0, .lit 0⟩ ∧
    (∀ i, tap State.reset.pink i = .lit 0) ∧ (∀ i, slot State.reset.store i = ⟨.lit 0, .lit 0⟩) ∧
    State.reset.fifo.wr = 0 ∧ State.reset.fifo.rd = 0 ∧ State.reset.fifo.count = 0 ∧
    State.reset.fifo.tickCount = 0 ∧ State.reset.spa.ready = false ∧ State.reset.spa.windowPower = none ∧
    (∀ n, Memory.read none State.reset.spa.win n = none ∧ Memory.read none State.reset.spa.scratch n = none ∧
      Memory.read none State.reset.spa.xf n = none ∧ Memory.read none State.reset.spa.raw n = none ∧
      Memory.read none State.reset.spa.smooth n = none) ∧
    State.reset.out.events = ⟨false, false, false⟩

/-- From every state in which it holds, a step that answers a next state answers one in which it holds: the
FIFO's invariant; every memory space in canonical form and listing only elements it has; O.pink_idx below
PINK_TAPS; and, once the analyzer is constructed, its power, window and magnitude arrays written. (Rules
R25, R29, R30, R50, R110.) -/
def Obligations.InvariantKept : Prop :=
  ∀ s t : State, StateOk Config.current s → step s = .next t → StateOk Config.current t

/-- From every state that meets the machine's invariant, with any transactions at the port, the step answers
a next state: no fault of the host's interface and no refusal. So no run from reset gets stuck. (Rules R118,
R199, R200.) -/
def Obligations.NoStepIsDisabled : Prop :=
  ∀ s : State, StateOk Config.current s → StepSafe s
end

