-- ==== Sys2Proof/Laws/Memory.lean ====
section
/-! SUPPORT. The laws of the memory spaces: a read after a write, and every operation keeps the canonical
form. -/

namespace Sys2Proof.Machine.Laws

open Sys2Proof.Machine

variable {α : Type}

theorem lookup_insert (m : Memory α) (i j : Nat) (v : α) :
    Memory.lookup (Memory.insert m i v) j = if i = j then some v else Memory.lookup m j := by
  induction m with
  | nil => simp [Memory.insert, Memory.lookup]
  | cons c rest ih =>
    obtain ⟨a, w⟩ := c
    by_cases h1 : i < a
    · simp [Memory.insert, h1, Memory.lookup]
    · by_cases h2 : i = a
      · subst h2
        by_cases hj : i = j <;> simp [Memory.insert, Memory.lookup, hj]
      · simp only [Memory.insert, h1, h2, if_false, Memory.lookup, ih]
        by_cases ha : a = j
        · have : i ≠ j := fun e => h2 (e.trans ha.symm)
          simp [ha, this]
        · simp [ha]

theorem lookup_erase (m : Memory α) (i j : Nat) :
    Memory.lookup (Memory.erase m i) j = if i = j then none else Memory.lookup m j := by
  induction m with
  | nil => simp [Memory.erase, Memory.lookup]
  | cons c rest ih =>
    obtain ⟨a, w⟩ := c
    unfold Memory.erase at ih ⊢
    by_cases ha : a = i
    · subst ha
      rw [List.filter_cons_of_neg (by simp), ih]
      by_cases hj : a = j <;> simp [Memory.lookup, hj]
    · rw [List.filter_cons_of_pos (by simpa using ha)]
      by_cases hj : a = j
      · have : i ≠ j := fun e => ha (hj.trans e.symm)
        simp [Memory.lookup, hj, this]
      · simp only [Memory.lookup, hj, if_false]
        exact ih

/-- A read after a write: the written element holds the value, every other holds what it held. -/
theorem read_write [DecidableEq α] (dflt : Option α) (m : Memory α) (i j : Nat) (v : α) :
    Memory.read dflt (Memory.write dflt m i v) j = if i = j then some v else Memory.read dflt m j := by
  unfold Memory.write Memory.read
  by_cases h : dflt = some v
  · rw [if_pos h, lookup_erase]
    by_cases hj : i = j <;> simp [hj, h]
  · rw [if_neg h, lookup_insert]
    by_cases hj : i = j <;> simp [hj]

@[simp] theorem read_nil (dflt : Option α) (i : Nat) : Memory.read dflt ([] : Memory α) i = dflt := rfl

@[simp] theorem writeAll_nil [DecidableEq α] (dflt : Option α) (m : Memory α) :
    Memory.writeAll dflt m [] = m := rfl

@[simp] theorem writeAll_cons [DecidableEq α] (dflt : Option α) (m : Memory α) (w : Nat × α)
    (ws : List (Nat × α)) :
    Memory.writeAll dflt m (w :: ws) = Memory.writeAll dflt (Memory.write dflt m w.1 w.2) ws := rfl

/-- An element that no write of a sequence names holds what it held. -/
theorem read_writeAll_of_notMem [DecidableEq α] (dflt : Option α) (ws : List (Nat × α)) :
    ∀ (m : Memory α) (j : Nat), (∀ w ∈ ws, w.1 ≠ j) →
      Memory.read dflt (Memory.writeAll dflt m ws) j = Memory.read dflt m j := by
  induction ws with
  | nil => intro m j _; rfl
  | cons w ws ih =>
    intro m j h
    rw [writeAll_cons, ih _ _ fun x hx => h x (List.mem_cons_of_mem _ hx), read_write,
      if_neg (h w List.mem_cons_self)]

/-- An element that one write of a sequence of distinct elements names holds its value. -/
theorem read_writeAll_of_mem [DecidableEq α] (dflt : Option α) (ws : List (Nat × α)) :
    ∀ (m : Memory α) (j : Nat) (v : α), (ws.map Prod.fst).Nodup → (j, v) ∈ ws →
      Memory.read dflt (Memory.writeAll dflt m ws) j = some v := by
  induction ws with
  | nil => intro m j v _ h; cases h
  | cons w ws ih =>
    intro m j v hn h
    rw [List.map_cons, List.nodup_cons] at hn
    rw [writeAll_cons]
    rcases List.mem_cons.1 h with h | h
    · subst h
      rw [read_writeAll_of_notMem, read_write, if_pos rfl]
      intro x hx e
      exact hn.1 (List.mem_map.2 ⟨x, hx, e⟩)
    · exact ih _ _ _ hn.2 h

/-- Writing a whole array: element `i` holds `vs[i]`, an element past its end what it held. -/
theorem read_writeArray [DecidableEq α] (m : Memory α) (vs : List α) (i : Nat) :
    Memory.read none (Memory.writeArray m vs) i =
      if h : i < vs.length then some vs[i] else Memory.read none m i := by
  unfold Memory.writeArray
  have hkeys : (vs.zipIdx.map fun p => (p.2, p.1)).map Prod.fst = List.range vs.length := by
    simp [List.map_map, Function.comp_def, List.range_eq_range']
  split
  · rename_i h
    apply read_writeAll_of_mem
    · rw [hkeys]; exact List.nodup_range
    · exact List.mem_map.2 ⟨(vs[i], i), by simp [List.mem_zipIdx_iff_getElem?, h], rfl⟩
  · rename_i h
    apply read_writeAll_of_notMem
    intro w hw e
    have : w.1 ∈ List.range vs.length := hkeys ▸ List.mem_map.2 ⟨w, hw, rfl⟩
    simp at this
    omega

/-! ### The canonical form -/

theorem wf_iff [DecidableEq α] (dflt : Option α) (m : Memory α) :
    Memory.wf dflt m = true ↔
      (m.map Prod.fst).Pairwise (· < ·) ∧ ∀ c ∈ m, dflt ≠ some c.2 := by
  simp [Memory.wf, List.all_eq_true]

theorem insert_keys (m : Memory α) (i : Nat) (v : α) :
    ∀ c ∈ Memory.insert m i v, c.1 = i ∧ c.2 = v ∨ c ∈ m := by
  induction m with
  | nil => intro c hc; simp [Memory.insert] at hc; simp [hc]
  | cons d rest ih =>
    obtain ⟨a, w⟩ := d
    intro c hc
    unfold Memory.insert at hc
    split_ifs at hc with h1 h2
    · rcases List.mem_cons.1 hc with h | h
      · left; simp [h]
      · right; exact h
    · rcases List.mem_cons.1 hc with h | h
      · left; simp [h]
      · right; exact List.mem_cons_of_mem _ h
    · rcases List.mem_cons.1 hc with h | h
      · right; rw [h]; exact List.mem_cons_self
      · rcases ih c h with h | h
        · left; exact h
        · right; exact List.mem_cons_of_mem _ h

theorem insert_sorted (m : Memory α) (i : Nat) (v : α) (h : (m.map Prod.fst).Pairwise (· < ·)) :
    ((Memory.insert m i v).map Prod.fst).Pairwise (· < ·) := by
  induction m with
  | nil => simp [Memory.insert]
  | cons d rest ih =>
    obtain ⟨a, w⟩ := d
    rw [List.map_cons, List.pairwise_cons] at h
    unfold Memory.insert
    split_ifs with h1 h2
    · rw [List.map_cons, List.map_cons, List.pairwise_cons, List.pairwise_cons]
      refine ⟨fun b hb => ?_, h⟩
      rcases List.mem_cons.1 hb with e | e
      · exact e ▸ h1
      · exact h1.trans (h.1 b e)
    · rw [List.map_cons, List.pairwise_cons]
      exact ⟨fun b hb => h2 ▸ h.1 b hb, h.2⟩
    · rw [List.map_cons, List.pairwise_cons]
      refine ⟨fun b hb => ?_, ih h.2⟩
      obtain ⟨c, hc, rfl⟩ := List.mem_map.1 hb
      rcases insert_keys rest i v c hc with e | e
      · have : a < i := by omega
        exact e.1 ▸ this
      · exact h.1 _ (List.mem_map.2 ⟨c, e, rfl⟩)

/-- A write keeps the canonical form. -/
theorem wf_write [DecidableEq α] (dflt : Option α) (m : Memory α) (i : Nat) (v : α)
    (h : Memory.wf dflt m = true) : Memory.wf dflt (Memory.write dflt m i v) = true := by
  rw [wf_iff] at h ⊢
  unfold Memory.write
  split
  · exact ⟨List.Pairwise.sublist (List.Sublist.map _ List.filter_sublist) h.1,
      fun c hc => h.2 c (List.mem_filter.1 hc).1⟩
  · rename_i hv
    refine ⟨insert_sorted m i v h.1, fun c hc => ?_⟩
    rcases insert_keys m i v c hc with e | e
    · rw [e.2]; exact hv
    · exact h.2 c e

/-- A sequence of writes keeps the canonical form. -/
theorem wf_writeAll [DecidableEq α] (dflt : Option α) (ws : List (Nat × α)) :
    ∀ m : Memory α, Memory.wf dflt m = true → Memory.wf dflt (Memory.writeAll dflt m ws) = true := by
  induction ws with
  | nil => intro m h; exact h
  | cons w ws ih => intro m h; exact ih _ (wf_write dflt m w.1 w.2 h)

/-- Writing a whole array keeps the canonical form. -/
theorem wf_writeArray [DecidableEq α] (m : Memory α) (vs : List α) (h : Memory.wf none m = true) :
    Memory.wf none (Memory.writeArray m vs) = true := wf_writeAll none _ m h

@[simp] theorem wf_nil [DecidableEq α] (dflt : Option α) : Memory.wf dflt ([] : Memory α) = true := rfl

theorem within_iff (size : Nat) (m : Memory α) : Memory.within size m = true ↔ ∀ c ∈ m, c.1 < size := by
  simp [Memory.within, List.all_eq_true]

/-- A write inside a space lists no index outside it. -/
theorem within_write [DecidableEq α] (dflt : Option α) (size : Nat) (m : Memory α) (i : Nat) (v : α)
    (hi : i < size) (h : Memory.within size m = true) :
    Memory.within size (Memory.write dflt m i v) = true := by
  rw [within_iff] at h ⊢
  unfold Memory.write
  split
  · exact fun c hc => h c (List.mem_filter.1 hc).1
  · intro c hc
    rcases insert_keys m i v c hc with e | e
    · rw [e.1]; exact hi
    · exact h c e

theorem within_writeAll [DecidableEq α] (dflt : Option α) (size : Nat) (ws : List (Nat × α)) :
    ∀ m : Memory α, (∀ w ∈ ws, w.1 < size) → Memory.within size m = true →
      Memory.within size (Memory.writeAll dflt m ws) = true := by
  induction ws with
  | nil => intro m _ h; exact h
  | cons w ws ih =>
    intro m hw h
    exact ih _ (fun x hx => hw x (List.mem_cons_of_mem _ hx))
      (within_write dflt size m w.1 w.2 (hw w List.mem_cons_self) h)

theorem within_writeArray [DecidableEq α] (size : Nat) (m : Memory α) (vs : List α)
    (hl : vs.length ≤ size) (h : Memory.within size m = true) :
    Memory.within size (Memory.writeArray m vs) = true := by
  refine within_writeAll none size _ m (fun w hw => ?_) h
  obtain ⟨p, hp, rfl⟩ := List.mem_map.1 hw
  have := List.snd_lt_of_mem_zipIdx hp
  simp at this
  omega

/-- What reading all of an array answers: an element each, or the fault of an unwritten one. -/
theorem fetchAll_eq_ok (space : Space) (m : Memory α) (n : Nat) :
    ∀ vs : List α, Memory.fetchAll space m n = .ok vs ↔
      vs.length = n ∧ ∀ i (h : i < vs.length), Memory.read none m i = some vs[i] := by
  induction n with
  | zero =>
    intro vs
    cases vs <;> simp [Memory.fetchAll]
  | succ n ih =>
    intro vs
    constructor
    · intro h
      simp only [Memory.fetchAll] at h
      split at h
      · cases h
      rename_i us hus
      split at h
      · cases h
      rename_i v hv
      cases h
      obtain ⟨hl, hr⟩ := (ih us).1 hus
      refine ⟨by simp [hl], fun i hi => ?_⟩
      by_cases hin : i < us.length
      · rw [List.getElem_append_left hin]; exact hr i hin
      · have : i = n := by simp at hi; omega
        subst this
        unfold Memory.fetch at hv
        split at hv
        · rename_i u hu; cases hv; simp [hl, hu]
        · cases hv
    · rintro ⟨hl, hr⟩
      have h1 : Memory.fetchAll space m n = .ok (vs.take n) := by
        refine (ih _).2 ⟨by simp [hl], fun i hi => ?_⟩
        simp at hi
        rw [hr i (by omega)]
        simp
      have h2 : Memory.fetch space m n = .ok (vs[n]'(by omega)) := by
        unfold Memory.fetch; rw [hr n (by omega)]
      simp only [Memory.fetchAll, h1, h2]
      congr 1
      apply List.ext_getElem
      · simp [hl]
      · intro i h1 h2
        by_cases hin : i < n
        · rw [List.getElem_append_left (by simp [hl, hin])]; simp
        · have : i = n := by omega
          subst this
          simp

end Sys2Proof.Machine.Laws
end

