-- ==== Sys2Proof/Laws/State.lean ====
section
/-! SUPPORT. One lemma per field per named update of `State`, so that no proof unfolds an update. -/

namespace Sys2Proof.Machine.Laws

@[simp] theorem withPar_par (s : State) (p : PendingParams) : (s.withPar p).par = p := rfl
@[simp] theorem withPar_snap (s : State) (p : PendingParams) : (s.withPar p).snap = s.snap := rfl
@[simp] theorem withPar_osc (s : State) (p : PendingParams) : (s.withPar p).osc = s.osc := rfl
@[simp] theorem withPar_pink (s : State) (p : PendingParams) : (s.withPar p).pink = s.pink := rfl
@[simp] theorem withPar_flt (s : State) (p : PendingParams) : (s.withPar p).flt = s.flt := rfl
@[simp] theorem withPar_fifo (s : State) (p : PendingParams) : (s.withPar p).fifo = s.fifo := rfl
@[simp] theorem withPar_store (s : State) (p : PendingParams) : (s.withPar p).store = s.store := rfl
@[simp] theorem withPar_spa (s : State) (p : PendingParams) : (s.withPar p).spa = s.spa := rfl
@[simp] theorem withPar_out (s : State) (p : PendingParams) : (s.withPar p).out = s.out := rfl
@[simp] theorem withPar_port (s : State) (p : PendingParams) : (s.withPar p).port = s.port := rfl
@[simp] theorem withPar_whiteDraws (s : State) (p : PendingParams) : (s.withPar p).whiteDraws = s.whiteDraws := rfl
@[simp] theorem withPar_clockDraws (s : State) (p : PendingParams) : (s.withPar p).clockDraws = s.clockDraws := rfl

@[simp] theorem withSnap_par (s : State) (p : Params) : (s.withSnap p).par = s.par := rfl
@[simp] theorem withSnap_snap (s : State) (p : Params) : (s.withSnap p).snap = some p := rfl
@[simp] theorem withSnap_osc (s : State) (p : Params) : (s.withSnap p).osc = s.osc := rfl
@[simp] theorem withSnap_pink (s : State) (p : Params) : (s.withSnap p).pink = s.pink := rfl
@[simp] theorem withSnap_flt (s : State) (p : Params) : (s.withSnap p).flt = s.flt := rfl
@[simp] theorem withSnap_fifo (s : State) (p : Params) : (s.withSnap p).fifo = s.fifo := rfl
@[simp] theorem withSnap_store (s : State) (p : Params) : (s.withSnap p).store = s.store := rfl
@[simp] theorem withSnap_spa (s : State) (p : Params) : (s.withSnap p).spa = s.spa := rfl
@[simp] theorem withSnap_out (s : State) (p : Params) : (s.withSnap p).out = s.out := rfl
@[simp] theorem withSnap_port (s : State) (p : Params) : (s.withSnap p).port = s.port := rfl
@[simp] theorem withSnap_whiteDraws (s : State) (p : Params) : (s.withSnap p).whiteDraws = s.whiteDraws := rfl
@[simp] theorem withSnap_clockDraws (s : State) (p : Params) : (s.withSnap p).clockDraws = s.clockDraws := rfl

@[simp] theorem withOsc_par (s : State) (o : OscState) : (s.withOsc o).par = s.par := rfl
@[simp] theorem withOsc_snap (s : State) (o : OscState) : (s.withOsc o).snap = s.snap := rfl
@[simp] theorem withOsc_osc (s : State) (o : OscState) : (s.withOsc o).osc = o := rfl
@[simp] theorem withOsc_pink (s : State) (o : OscState) : (s.withOsc o).pink = s.pink := rfl
@[simp] theorem withOsc_flt (s : State) (o : OscState) : (s.withOsc o).flt = s.flt := rfl
@[simp] theorem withOsc_fifo (s : State) (o : OscState) : (s.withOsc o).fifo = s.fifo := rfl
@[simp] theorem withOsc_store (s : State) (o : OscState) : (s.withOsc o).store = s.store := rfl
@[simp] theorem withOsc_spa (s : State) (o : OscState) : (s.withOsc o).spa = s.spa := rfl
@[simp] theorem withOsc_out (s : State) (o : OscState) : (s.withOsc o).out = s.out := rfl
@[simp] theorem withOsc_port (s : State) (o : OscState) : (s.withOsc o).port = s.port := rfl
@[simp] theorem withOsc_whiteDraws (s : State) (o : OscState) : (s.withOsc o).whiteDraws = s.whiteDraws := rfl
@[simp] theorem withOsc_clockDraws (s : State) (o : OscState) : (s.withOsc o).clockDraws = s.clockDraws := rfl

@[simp] theorem withPink_par (s : State) (m : Memory RNum) : (s.withPink m).par = s.par := rfl
@[simp] theorem withPink_snap (s : State) (m : Memory RNum) : (s.withPink m).snap = s.snap := rfl
@[simp] theorem withPink_osc (s : State) (m : Memory RNum) : (s.withPink m).osc = s.osc := rfl
@[simp] theorem withPink_pink (s : State) (m : Memory RNum) : (s.withPink m).pink = m := rfl
@[simp] theorem withPink_flt (s : State) (m : Memory RNum) : (s.withPink m).flt = s.flt := rfl
@[simp] theorem withPink_fifo (s : State) (m : Memory RNum) : (s.withPink m).fifo = s.fifo := rfl
@[simp] theorem withPink_store (s : State) (m : Memory RNum) : (s.withPink m).store = s.store := rfl
@[simp] theorem withPink_spa (s : State) (m : Memory RNum) : (s.withPink m).spa = s.spa := rfl
@[simp] theorem withPink_out (s : State) (m : Memory RNum) : (s.withPink m).out = s.out := rfl
@[simp] theorem withPink_port (s : State) (m : Memory RNum) : (s.withPink m).port = s.port := rfl
@[simp] theorem withPink_whiteDraws (s : State) (m : Memory RNum) : (s.withPink m).whiteDraws = s.whiteDraws := rfl
@[simp] theorem withPink_clockDraws (s : State) (m : Memory RNum) : (s.withPink m).clockDraws = s.clockDraws := rfl

@[simp] theorem withFlt_par (s : State) (f : FltState) : (s.withFlt f).par = s.par := rfl
@[simp] theorem withFlt_snap (s : State) (f : FltState) : (s.withFlt f).snap = s.snap := rfl
@[simp] theorem withFlt_osc (s : State) (f : FltState) : (s.withFlt f).osc = s.osc := rfl
@[simp] theorem withFlt_pink (s : State) (f : FltState) : (s.withFlt f).pink = s.pink := rfl
@[simp] theorem withFlt_flt (s : State) (f : FltState) : (s.withFlt f).flt = f := rfl
@[simp] theorem withFlt_fifo (s : State) (f : FltState) : (s.withFlt f).fifo = s.fifo := rfl
@[simp] theorem withFlt_store (s : State) (f : FltState) : (s.withFlt f).store = s.store := rfl
@[simp] theorem withFlt_spa (s : State) (f : FltState) : (s.withFlt f).spa = s.spa := rfl
@[simp] theorem withFlt_out (s : State) (f : FltState) : (s.withFlt f).out = s.out := rfl
@[simp] theorem withFlt_port (s : State) (f : FltState) : (s.withFlt f).port = s.port := rfl
@[simp] theorem withFlt_whiteDraws (s : State) (f : FltState) : (s.withFlt f).whiteDraws = s.whiteDraws := rfl
@[simp] theorem withFlt_clockDraws (s : State) (f : FltState) : (s.withFlt f).clockDraws = s.clockDraws := rfl

@[simp] theorem withFifo_par (s : State) (q : FifoState) : (s.withFifo q).par = s.par := rfl
@[simp] theorem withFifo_snap (s : State) (q : FifoState) : (s.withFifo q).snap = s.snap := rfl
@[simp] theorem withFifo_osc (s : State) (q : FifoState) : (s.withFifo q).osc = s.osc := rfl
@[simp] theorem withFifo_pink (s : State) (q : FifoState) : (s.withFifo q).pink = s.pink := rfl
@[simp] theorem withFifo_flt (s : State) (q : FifoState) : (s.withFifo q).flt = s.flt := rfl
@[simp] theorem withFifo_fifo (s : State) (q : FifoState) : (s.withFifo q).fifo = q := rfl
@[simp] theorem withFifo_store (s : State) (q : FifoState) : (s.withFifo q).store = s.store := rfl
@[simp] theorem withFifo_spa (s : State) (q : FifoState) : (s.withFifo q).spa = s.spa := rfl
@[simp] theorem withFifo_out (s : State) (q : FifoState) : (s.withFifo q).out = s.out := rfl
@[simp] theorem withFifo_port (s : State) (q : FifoState) : (s.withFifo q).port = s.port := rfl
@[simp] theorem withFifo_whiteDraws (s : State) (q : FifoState) : (s.withFifo q).whiteDraws = s.whiteDraws := rfl
@[simp] theorem withFifo_clockDraws (s : State) (q : FifoState) : (s.withFifo q).clockDraws = s.clockDraws := rfl

@[simp] theorem withStore_par (s : State) (m : Memory Frame) : (s.withStore m).par = s.par := rfl
@[simp] theorem withStore_snap (s : State) (m : Memory Frame) : (s.withStore m).snap = s.snap := rfl
@[simp] theorem withStore_osc (s : State) (m : Memory Frame) : (s.withStore m).osc = s.osc := rfl
@[simp] theorem withStore_pink (s : State) (m : Memory Frame) : (s.withStore m).pink = s.pink := rfl
@[simp] theorem withStore_flt (s : State) (m : Memory Frame) : (s.withStore m).flt = s.flt := rfl
@[simp] theorem withStore_fifo (s : State) (m : Memory Frame) : (s.withStore m).fifo = s.fifo := rfl
@[simp] theorem withStore_store (s : State) (m : Memory Frame) : (s.withStore m).store = m := rfl
@[simp] theorem withStore_spa (s : State) (m : Memory Frame) : (s.withStore m).spa = s.spa := rfl
@[simp] theorem withStore_out (s : State) (m : Memory Frame) : (s.withStore m).out = s.out := rfl
@[simp] theorem withStore_port (s : State) (m : Memory Frame) : (s.withStore m).port = s.port := rfl
@[simp] theorem withStore_whiteDraws (s : State) (m : Memory Frame) : (s.withStore m).whiteDraws = s.whiteDraws := rfl
@[simp] theorem withStore_clockDraws (s : State) (m : Memory Frame) : (s.withStore m).clockDraws = s.clockDraws := rfl

@[simp] theorem withSpa_par (s : State) (a : Analyzer) : (s.withSpa a).par = s.par := rfl
@[simp] theorem withSpa_snap (s : State) (a : Analyzer) : (s.withSpa a).snap = s.snap := rfl
@[simp] theorem withSpa_osc (s : State) (a : Analyzer) : (s.withSpa a).osc = s.osc := rfl
@[simp] theorem withSpa_pink (s : State) (a : Analyzer) : (s.withSpa a).pink = s.pink := rfl
@[simp] theorem withSpa_flt (s : State) (a : Analyzer) : (s.withSpa a).flt = s.flt := rfl
@[simp] theorem withSpa_fifo (s : State) (a : Analyzer) : (s.withSpa a).fifo = s.fifo := rfl
@[simp] theorem withSpa_store (s : State) (a : Analyzer) : (s.withSpa a).store = s.store := rfl
@[simp] theorem withSpa_spa (s : State) (a : Analyzer) : (s.withSpa a).spa = a := rfl
@[simp] theorem withSpa_out (s : State) (a : Analyzer) : (s.withSpa a).out = s.out := rfl
@[simp] theorem withSpa_port (s : State) (a : Analyzer) : (s.withSpa a).port = s.port := rfl
@[simp] theorem withSpa_whiteDraws (s : State) (a : Analyzer) : (s.withSpa a).whiteDraws = s.whiteDraws := rfl
@[simp] theorem withSpa_clockDraws (s : State) (a : Analyzer) : (s.withSpa a).clockDraws = s.clockDraws := rfl

@[simp] theorem withOut_par (s : State) (o : Output) : (s.withOut o).par = s.par := rfl
@[simp] theorem withOut_snap (s : State) (o : Output) : (s.withOut o).snap = s.snap := rfl
@[simp] theorem withOut_osc (s : State) (o : Output) : (s.withOut o).osc = s.osc := rfl
@[simp] theorem withOut_pink (s : State) (o : Output) : (s.withOut o).pink = s.pink := rfl
@[simp] theorem withOut_flt (s : State) (o : Output) : (s.withOut o).flt = s.flt := rfl
@[simp] theorem withOut_fifo (s : State) (o : Output) : (s.withOut o).fifo = s.fifo := rfl
@[simp] theorem withOut_store (s : State) (o : Output) : (s.withOut o).store = s.store := rfl
@[simp] theorem withOut_spa (s : State) (o : Output) : (s.withOut o).spa = s.spa := rfl
@[simp] theorem withOut_out (s : State) (o : Output) : (s.withOut o).out = o := rfl
@[simp] theorem withOut_port (s : State) (o : Output) : (s.withOut o).port = s.port := rfl
@[simp] theorem withOut_whiteDraws (s : State) (o : Output) : (s.withOut o).whiteDraws = s.whiteDraws := rfl
@[simp] theorem withOut_clockDraws (s : State) (o : Output) : (s.withOut o).clockDraws = s.clockDraws := rfl

@[simp] theorem withPort_par (s : State) (rs : List Request) : (s.withPort rs).par = s.par := rfl
@[simp] theorem withPort_snap (s : State) (rs : List Request) : (s.withPort rs).snap = s.snap := rfl
@[simp] theorem withPort_osc (s : State) (rs : List Request) : (s.withPort rs).osc = s.osc := rfl
@[simp] theorem withPort_pink (s : State) (rs : List Request) : (s.withPort rs).pink = s.pink := rfl
@[simp] theorem withPort_flt (s : State) (rs : List Request) : (s.withPort rs).flt = s.flt := rfl
@[simp] theorem withPort_fifo (s : State) (rs : List Request) : (s.withPort rs).fifo = s.fifo := rfl
@[simp] theorem withPort_store (s : State) (rs : List Request) : (s.withPort rs).store = s.store := rfl
@[simp] theorem withPort_spa (s : State) (rs : List Request) : (s.withPort rs).spa = s.spa := rfl
@[simp] theorem withPort_out (s : State) (rs : List Request) : (s.withPort rs).out = s.out := rfl
@[simp] theorem withPort_port (s : State) (rs : List Request) : (s.withPort rs).port = rs := rfl
@[simp] theorem withPort_whiteDraws (s : State) (rs : List Request) : (s.withPort rs).whiteDraws = s.whiteDraws := rfl
@[simp] theorem withPort_clockDraws (s : State) (rs : List Request) : (s.withPort rs).clockDraws = s.clockDraws := rfl

@[simp] theorem countWhite_par (s : State) : s.countWhite.par = s.par := rfl
@[simp] theorem countWhite_snap (s : State) : s.countWhite.snap = s.snap := rfl
@[simp] theorem countWhite_osc (s : State) : s.countWhite.osc = s.osc := rfl
@[simp] theorem countWhite_pink (s : State) : s.countWhite.pink = s.pink := rfl
@[simp] theorem countWhite_flt (s : State) : s.countWhite.flt = s.flt := rfl
@[simp] theorem countWhite_fifo (s : State) : s.countWhite.fifo = s.fifo := rfl
@[simp] theorem countWhite_store (s : State) : s.countWhite.store = s.store := rfl
@[simp] theorem countWhite_spa (s : State) : s.countWhite.spa = s.spa := rfl
@[simp] theorem countWhite_out (s : State) : s.countWhite.out = s.out := rfl
@[simp] theorem countWhite_port (s : State) : s.countWhite.port = s.port := rfl
@[simp] theorem countWhite_whiteDraws (s : State) : s.countWhite.whiteDraws = s.whiteDraws + 1 := rfl
@[simp] theorem countWhite_clockDraws (s : State) : s.countWhite.clockDraws = s.clockDraws := rfl

@[simp] theorem countClock_par (s : State) : s.countClock.par = s.par := rfl
@[simp] theorem countClock_snap (s : State) : s.countClock.snap = s.snap := rfl
@[simp] theorem countClock_osc (s : State) : s.countClock.osc = s.osc := rfl
@[simp] theorem countClock_pink (s : State) : s.countClock.pink = s.pink := rfl
@[simp] theorem countClock_flt (s : State) : s.countClock.flt = s.flt := rfl
@[simp] theorem countClock_fifo (s : State) : s.countClock.fifo = s.fifo := rfl
@[simp] theorem countClock_store (s : State) : s.countClock.store = s.store := rfl
@[simp] theorem countClock_spa (s : State) : s.countClock.spa = s.spa := rfl
@[simp] theorem countClock_out (s : State) : s.countClock.out = s.out := rfl
@[simp] theorem countClock_port (s : State) : s.countClock.port = s.port := rfl
@[simp] theorem countClock_whiteDraws (s : State) : s.countClock.whiteDraws = s.whiteDraws := rfl
@[simp] theorem countClock_clockDraws (s : State) : s.countClock.clockDraws = s.clockDraws + 1 := rfl

end Sys2Proof.Machine.Laws
end

