-- ==== Sys2Proof/Laws/Ops.lean ====
section
/-! SUPPORT. What each shared operation can do, said once: ending a command, taking a fault, the operand
checks, the state preconditions. -/

namespace Sys2Proof.Machine.Laws

open Sys2Proof.Machine

/-! ### The configuration -/

/-- The machine's configuration meets the constraints of rule R7. -/
theorem current_valid : Config.current.valid = true := by
  unfold Config.current
  split
  · assumption
  · decide

theorem valid_iff (c : Config) : c.valid = true ↔
    1 ≤ c.capacity ∧ c.minFill ≤ c.capacity ∧ 1 ≤ c.blockFrames ∧ 1 ≤ c.fftExp ∧ 1 ≤ c.pinkTaps ∧
      (c.hannDenom = .symmetric → 2 ≤ c.fftExp) := by
  unfold Config.valid
  cases h : c.hannDenom <;> simp [and_assoc]

theorem capacity_pos : 0 < Config.current.capacity := ((valid_iff _).1 current_valid).1

theorem pinkTaps_pos : 0 < Config.current.pinkTaps := ((valid_iff _).1 current_valid).2.2.2.2.1

/-- `N` is positive. -/
theorem fftSize_pos (c : Config) : 0 < c.fftSize := by unfold Config.fftSize; positivity

theorem vectorsEnv_valid : Config.vectorsEnv.Valid where
  sr_pos := by norm_num [Config.vectorsEnv]
  db_order := by norm_num [Config.vectorsEnv]
  alpha_nonneg := by norm_num [Config.vectorsEnv]
  alpha_lt_one := by norm_num [Config.vectorsEnv]
  white_range := fun _ => by norm_num [Config.vectorsEnv]
  clock_mono := fun _ _ _ => le_refl _

/-- The reals of this machine's run meet the constraints of rules R7, R114 and R135. -/
theorem env_valid : Config.env.Valid := by
  unfold Config.env
  split
  · assumption
  · exact vectorsEnv_valid

/-! ### Ending a command -/

@[simp] theorem complete_eq (rs : List Operand) (ev : Events) (s : State) :
    complete rs ev s = .next (s.withOut ⟨s.out.agent, .results rs, ev⟩) := rfl

@[simp] theorem takeFault_eq (r : FaultReport) (s : State) :
    takeFault r s = .next (s.withOut ⟨s.out.agent, .fault r, Events.none⟩) := rfl

/-- The outputs of a step are its own: driving them twice is driving them last. -/
@[simp] theorem withOut_withOut (s : State) (o o' : Output) : (s.withOut o).withOut o' = s.withOut o' := rfl

@[simp] theorem withOut_self (s : State) : s.withOut s.out = s := rfl

theorem accept_eq (s : State) (r : Request) (rest : List Request) :
    s.accept r rest = (s.withPort rest).withOut ⟨some r.agent, .idle, Events.none⟩ := rfl

/-! ### Operand checks -/

/-- A `NUM` operand: either its value is handed on, or `F_BAD_OPERAND` is taken. -/
theorem withNumAt_next {position : Nat} {w : NumWord} {s t : State} {k : RNum → Result}
    (h : withNumAt position w s k = .next t) :
    (∃ x, w = .finite x ∧ k x = .next t) ∨
      w = .nonFinite ∧ t = s.withOut ⟨s.out.agent, .fault (badOperand position), Events.none⟩ := by
  cases w with
  | finite x => exact .inl ⟨x, rfl, h⟩
  | nonFinite => exact .inr ⟨rfl, by cases h; rfl⟩

@[simp] theorem withNum_finite (x : RNum) (s : State) (k : RNum → Result) :
    withNum (.finite x) s k = k x := rfl

@[simp] theorem withNum2_finite (x y : RNum) (s : State) (k : RNum → RNum → Result) :
    withNum2 (.finite x) (.finite y) s k = k x y := rfl

@[simp] theorem withNum3_finite (x y z : RNum) (s : State) (k : RNum → RNum → RNum → Result) :
    withNum3 (.finite x) (.finite y) (.finite z) s k = k x y z := rfl

@[simp] theorem numValues_frameWords (fs : List Frame) :
    (numValues (frameWords fs)).map pairFrames = some fs := by
  induction fs with
  | nil => rfl
  | cons f fs ih =>
    obtain ⟨xs, hx, hp⟩ := Option.map_eq_some_iff.1 ih
    simp [frameWords, numValues, numValue, hx, pairFrames, hp]

@[simp] theorem frameWords_length (fs : List Frame) : (frameWords fs).length = 2 * fs.length := by
  induction fs with
  | nil => rfl
  | cons f fs ih => simp only [frameWords, List.length_cons, ih]; omega

/-- The words of `n` finite frames are a good `FRAMES(n)` operand. -/
@[simp] theorem framesOf_frameWords (fs : List Frame) : framesOf fs.length (frameWords fs) = some fs := by
  simp [framesOf]

theorem pairFrames_length (n : Nat) : ∀ xs : List RNum, xs.length = 2 * n → (pairFrames xs).length = n := by
  induction n with
  | zero => intro xs h; cases xs with
    | nil => rfl
    | cons x xs => simp at h
  | succ n ih =>
    intro xs h
    match xs, h with
    | x :: y :: rest, h =>
      simp only [pairFrames, List.length_cons]
      rw [ih rest (by simp at h; omega)]

theorem numValues_length {ws : List NumWord} : ∀ {xs : List RNum}, numValues ws = some xs →
    xs.length = ws.length := by
  induction ws with
  | nil => intro xs h; cases h; rfl
  | cons w ws ih =>
    intro xs h
    unfold numValues at h
    split at h
    · rename_i x ys _ hy
      cases h
      simp [ih hy]
    · cases h

/-- A good `FRAMES(n)` operand holds `n` frames. -/
theorem framesOf_length {n : Nat} {ws : List NumWord} {fs : List Frame} (h : framesOf n ws = some fs) :
    fs.length = n := by
  unfold framesOf at h
  split at h
  · rename_i hl
    obtain ⟨xs, hx, rfl⟩ := Option.map_eq_some_iff.1 h
    exact pairFrames_length n xs ((numValues_length hx).trans hl)
  · cases h

/-- A `FRAMES` operand: either its frames are handed on, or `F_BAD_OPERAND` is taken. -/
theorem withFrames_next {n : Nat} {ws : List NumWord} {s t : State} {k : List Frame → Result}
    (h : withFrames n ws s k = .next t) :
    (∃ fs, framesOf n ws = some fs ∧ k fs = .next t) ∨
      framesOf n ws = none ∧ t = s.withOut ⟨s.out.agent, .fault (badOperand 1), Events.none⟩ := by
  unfold withFrames at h
  split at h
  · rename_i fs hf; exact .inl ⟨fs, hf, h⟩
  · rename_i hf; exact .inr ⟨hf, by cases h; rfl⟩

/-- A `KIND` operand: either its kind is handed on, or `F_BAD_OPERAND` is taken. -/
theorem withKind_next {code : BitVec 3} {s t : State} {k : Kind → Result}
    (h : withKind code s k = .next t) :
    (∃ kind, kindOfCode code = some kind ∧ k kind = .next t) ∨
      kindOfCode code = none ∧ t = s.withOut ⟨s.out.agent, .fault (badOperand 0), Events.none⟩ := by
  unfold withKind at h
  split at h
  · rename_i kind hk; exact .inl ⟨kind, hk, h⟩
  · rename_i hk; exact .inr ⟨hk, by cases h; rfl⟩

@[simp] theorem kindOfCode_codeOfKind (k : Kind) : kindOfCode (codeOfKind k) = some k := by
  cases k <;> rfl

/-! ### State preconditions -/

@[simp] theorem complete_written (p : Params) : p.written.complete = .ok p := rfl

/-- A register's value is there, and it is handed on, or its number is answered. -/
theorem need_bind_ok {α β : Type} {n : Nat} {r : Option α} {k : α → Except Nat β} {b : β} :
    (need n r >>= k) = .ok b ↔ ∃ v, r = some v ∧ k v = .ok b := by
  cases r with
  | none => exact ⟨(nomatch ·), fun ⟨_, h, _⟩ => nomatch h⟩
  | some v => exact ⟨fun h => ⟨v, rfl, h⟩, fun h => by obtain ⟨w, hw, hk⟩ := h; cases hw; exact hk⟩

/-- `P` is complete exactly when every register is written. -/
theorem complete_eq_ok {P : PendingParams} {p : Params} : P.complete = .ok p ↔ P = p.written := by
  constructor
  · intro h
    unfold PendingParams.complete at h
    simp only [need_bind_ok] at h
    obtain ⟨_, h0, _, h1, _, h2, _, h3, _, h4, _, h5, _, h6, _, h7, _, h8, _, h9, _, h10, _, h11, _, h12,
      _, h13, _, h14, _, h15, h⟩ := h
    cases h
    cases P
    simp only at h0 h1 h2 h3 h4 h5 h6 h7 h8 h9 h10 h11 h12 h13 h14 h15
    simp only [Params.written, h0, h1, h2, h3, h4, h5, h6, h7, h8, h9, h10, h11, h12, h13, h14, h15]
  · rintro rfl; rfl

theorem needParams_next {s t : State} {k : Params → Result} (h : needParams s k = .next t) :
    (∃ p, s.par = p.written ∧ k p = .next t) ∨
      ∃ n, s.par.complete = .error n ∧
        t = s.withOut ⟨s.out.agent, .fault (unwrittenParam n), Events.none⟩ := by
  unfold needParams at h
  split at h
  · rename_i p hp; exact .inl ⟨p, complete_eq_ok.1 hp, h⟩
  · rename_i n hn; exact .inr ⟨n, hn, by cases h; rfl⟩

theorem needSnap_next {s t : State} {k : Params → Result} (h : needSnap s k = .next t) :
    (∃ p, s.snap = some p ∧ k p = .next t) ∨
      s.snap = none ∧ t = s.withOut ⟨s.out.agent, .fault (unwrittenParam 16), Events.none⟩ := by
  unfold needSnap at h
  split at h
  · rename_i p hp; exact .inl ⟨p, hp, h⟩
  · rename_i hp; exact .inr ⟨hp, by cases h; rfl⟩

theorem needReady_next {s t : State} {k : Result} (h : needReady s k = .next t) :
    s.spa.ready = true ∧ k = .next t ∨
      s.spa.ready = false ∧ t = s.withOut ⟨s.out.agent, .fault uninit, Events.none⟩ := by
  unfold needReady at h
  split at h
  · rename_i hr; exact .inl ⟨hr, h⟩
  · rename_i hr; exact .inr ⟨by simpa using hr, by cases h; rfl⟩

/-- What the scan of a list that does not match answers: every operand before the position is legal, and
the one at the position, if signature and list both have one there, is not. -/
theorem firstBadOperand_spec (c : Config) (oc : Opcode) (ts : List OperandType) (ws : List Operand)
    (pos : Nat) :
    ∃ n, firstBadOperand c oc pos ts ws = pos + n ∧
      (∀ q, q < n → ∃ t w, ts[q]? = some t ∧ ws[q]? = some w ∧ operandLegal c oc t w = true) ∧
      ∀ t w, ts[n]? = some t → ws[n]? = some w → operandLegal c oc t w = false := by
  induction ts generalizing ws pos with
  | nil => exact ⟨0, by simp [firstBadOperand], by simp, by simp⟩
  | cons t ts ih =>
    cases ws with
    | nil => exact ⟨0, by cases t <;> simp [firstBadOperand], by simp, by simp⟩
    | cons w ws =>
      cases hl : operandLegal c oc t w with
      | false => exact ⟨0, by cases t <;> simp [firstBadOperand, hl], by simp, by simp [hl]⟩
      | true =>
        obtain ⟨n, hn, before, at_n⟩ := ih ws (pos + 1)
        have ht : t ≠ .frames := by rintro rfl; simp [operandLegal] at hl
        refine ⟨n + 1, ?_, ?_, by simpa using at_n⟩
        · rw [firstBadOperand, if_pos hl, hn]; omega
          exact ht
        · rintro (_ | q) hq
          · exact ⟨t, w, rfl, rfl, hl⟩
          · simpa using before q (by omega)

/-- A transaction that is no command ends in a fault report and changes nothing else. -/
theorem performReject_eq (r : Reject) (s : State) :
    ∃ report, performReject r s = .next (s.withOut ⟨s.out.agent, .fault report, Events.none⟩) := by
  unfold performReject
  cases r with
  | illegalOpcode op => exact ⟨_, rfl⟩
  | malformedOperands oc operands =>
    dsimp only
    split
    · exact ⟨_, rfl⟩
    · exact ⟨_, rfl⟩

end Sys2Proof.Machine.Laws
end

