-- ==== Sys2Proof/Laws/Commands.lean ====
section
/-! SUPPORT. What each part of a command, each command and one step can do, said once: the invariants of
the machine are read off `Effect` and never unfold `exec`. -/

namespace Sys2Proof.Machine.Laws

open Sys2Proof.Machine

/-! ### The parts of a sample step (rules R130 to R141) -/

/-- A pink step completes exactly where the tap index exists, and this is what it leaves. -/
theorem pinkStep_ok {c : Config} {s t : State} {base : RNum} (h : pinkStep c s = .ok (base, t)) :
    s.osc.pinkIdx < c.pinkTaps ∧
      ∃ w sum, w = RNum.white s.whiteDraws ∧
        sum = (s.osc.pinkSum.sub (tap s.pink s.osc.pinkIdx)).add w ∧ base = pinkValue c w sum ∧
        t = ((s.withPink (Memory.write (some (.lit 0)) s.pink s.osc.pinkIdx w)).withOsc
          { s.osc with pinkSum := sum, pinkIdx := (s.osc.pinkIdx + 1) % c.pinkTaps }).countWhite := by
  unfold pinkStep fetchTap at h
  by_cases hi : s.osc.pinkIdx < c.pinkTaps
  · simp only [hi, if_true] at h
    cases h
    exact ⟨hi, _, _, rfl, rfl, rfl, rfl⟩
  · simp only [hi, if_false] at h
    cases h

theorem pinkStep_of_lt {c : Config} {s : State} (hi : s.osc.pinkIdx < c.pinkTaps) :
    ∃ base t, pinkStep c s = .ok (base, t) := by
  unfold pinkStep fetchTap
  simp only [hi, if_true]
  exact ⟨_, _, rfl⟩

/-- The base waveform leaves the state alone, or takes one pink step. -/
theorem baseWave_ok {c : Config} {p : Params} {d base : RNum} {s t : State}
    (h : baseWave c p d s = .ok (base, t)) :
    p.waveform ≠ .pink ∧ t = s ∨ p.waveform = .pink ∧ pinkStep c s = .ok (base, t) := by
  unfold baseWave at h
  cases hw : p.waveform <;> rw [hw] at h
  case pink => exact .inr ⟨rfl, h⟩
  all_goals (cases h; exact .inl ⟨by decide, rfl⟩)

theorem baseWave_of_lt {c : Config} (p : Params) (d : RNum) {s : State}
    (hi : s.osc.pinkIdx < c.pinkTaps) : ∃ base t, baseWave c p d s = .ok (base, t) := by
  unfold baseWave
  cases p.waveform
  case pink => exact pinkStep_of_lt hi
  all_goals exact ⟨_, _, rfl⟩

/-- The base waveform writes only the pink registers and counts the draw. -/
theorem baseWave_frame {c : Config} {p : Params} {d base : RNum} {s t : State}
    (h : baseWave c p d s = .ok (base, t)) :
    t = { s with
      osc := { s.osc with pinkSum := t.osc.pinkSum, pinkIdx := t.osc.pinkIdx }
      pink := t.pink
      whiteDraws := t.whiteDraws } := by
  rcases baseWave_ok h with ⟨_, rfl⟩ | ⟨_, hp⟩
  · rfl
  · obtain ⟨_, _, _, _, _, _, rfl⟩ := pinkStep_ok hp
    rfl

/-- One sample step: the waveform, then the filter, then the phases. -/
theorem sampleStep_ok {c : Config} {p : Params} {s u : State} {frame : Frame}
    (h : sampleStep c p s = .ok (frame, u)) :
    ∃ base t f, baseWave c p (effectiveDuty p s.osc) s = .ok (base, t) ∧
      f = ladderStep c base p.cutoff p.resonance (filterLfos p t.flt) ∧
      frame.left = (f.delay3.mul p.amplitude).mul (amplitudeMod p s.osc) ∧ frame.right = frame.left ∧
      u = (t.withFlt f).withOsc (advancePhases p (frequencyMod p s.osc) t.osc) := by
  unfold sampleStep at h
  split at h
  · cases h
  · rename_i base t hb
    cases h
    exact ⟨base, t, _, hb, rfl, rfl, rfl, rfl⟩

theorem sampleStep_of_lt {c : Config} (p : Params) {s : State} (hi : s.osc.pinkIdx < c.pinkTaps) :
    ∃ frame u, sampleStep c p s = .ok (frame, u) := by
  obtain ⟨base, t, hb⟩ := baseWave_of_lt p (effectiveDuty p s.osc) hi
  unfold sampleStep
  simp only [hb]
  exact ⟨_, _, rfl⟩

/-- One sample step writes only `O`, `PINK` and `F`, and counts its draw. -/
theorem sampleStep_frame {c : Config} {p : Params} {s u : State} {frame : Frame}
    (h : sampleStep c p s = .ok (frame, u)) :
    u = { s with osc := u.osc, pink := u.pink, flt := u.flt, whiteDraws := u.whiteDraws } := by
  obtain ⟨base, t, f, hb, _, _, _, rfl⟩ := sampleStep_ok h
  have := baseWave_frame hb
  rw [this]
  rfl

/-- A sample step keeps the tap index in the history. -/
theorem sampleStep_pinkIdx {c : Config} {p : Params} {s u : State} {frame : Frame}
    (h : sampleStep c p s = .ok (frame, u)) (hi : s.osc.pinkIdx < c.pinkTaps) :
    u.osc.pinkIdx < c.pinkTaps := by
  obtain ⟨base, t, f, hb, _, _, _, rfl⟩ := sampleStep_ok h
  rcases baseWave_ok hb with ⟨_, rfl⟩ | ⟨_, hp⟩
  · exact hi
  · obtain ⟨hi, _, _, _, _, _, rfl⟩ := pinkStep_ok hp
    exact Nat.mod_lt _ (by omega)

theorem sampleSteps_zero (c : Config) (p : Params) (s : State) : sampleSteps c p 0 s = .ok ([], s) := rfl

theorem sampleSteps_succ_ok {c : Config} {p : Params} {n : Nat} {s u : State} {frames : List Frame}
    (h : sampleSteps c p (n + 1) s = .ok (frames, u)) :
    ∃ frame t rest, sampleStep c p s = .ok (frame, t) ∧ sampleSteps c p n t = .ok (rest, u) ∧
      frames = frame :: rest := by
  unfold sampleSteps at h
  split at h
  · cases h
  · rename_i frame t ht
    split at h
    · cases h
    · rename_i rest v hv
      cases h
      exact ⟨frame, t, rest, ht, hv, rfl⟩

theorem sampleSteps_of_lt {c : Config} (p : Params) (n : Nat) :
    ∀ {s : State}, s.osc.pinkIdx < c.pinkTaps → ∃ frames u, sampleSteps c p n s = .ok (frames, u) := by
  induction n with
  | zero => intro s _; exact ⟨[], s, rfl⟩
  | succ n ih =>
    intro s hi
    obtain ⟨frame, t, ht⟩ := sampleStep_of_lt p hi
    obtain ⟨frames, u, hu⟩ := ih (sampleStep_pinkIdx ht hi)
    unfold sampleSteps
    simp only [ht, hu]
    exact ⟨_, _, rfl⟩

/-- What holds of a state and is kept by a sample step holds after any number of them. -/
theorem sampleSteps_keeps {c : Config} {p : Params} (Keeps : State → Prop)
    (hstep : ∀ s frame t, sampleStep c p s = .ok (frame, t) → Keeps s → Keeps t) (n : Nat) :
    ∀ {s u : State} {frames : List Frame}, sampleSteps c p n s = .ok (frames, u) → Keeps s → Keeps u := by
  induction n with
  | zero => intro s u frames h hs; cases h; exact hs
  | succ n ih =>
    intro s u frames h hs
    obtain ⟨frame, t, rest, ht, hu, _⟩ := sampleSteps_succ_ok h
    exact ih hu (hstep s frame t ht hs)

theorem sampleSteps_length {c : Config} {p : Params} (n : Nat) :
    ∀ {s u : State} {frames : List Frame}, sampleSteps c p n s = .ok (frames, u) → frames.length = n := by
  induction n with
  | zero => intro s u frames h; cases h; rfl
  | succ n ih =>
    intro s u frames h
    obtain ⟨frame, t, rest, _, hu, rfl⟩ := sampleSteps_succ_ok h
    simp [ih hu]

/-- A sequence of sample steps writes only `O`, `PINK` and `F`, and counts its draws. -/
theorem sampleSteps_frame {c : Config} {p : Params} {n : Nat} {s u : State} {frames : List Frame}
    (h : sampleSteps c p n s = .ok (frames, u)) :
    u = { s with osc := u.osc, pink := u.pink, flt := u.flt, whiteDraws := u.whiteDraws } := by
  refine sampleSteps_keeps
    (fun v => v = { s with osc := v.osc, pink := v.pink, flt := v.flt, whiteDraws := v.whiteDraws })
    (fun v frame w hw hv => ?_) n h rfl
  rw [sampleStep_frame hw, hv]

/-! ### A process step (rules R182 to R188) -/

/-- A process step reads a written power, window and smoothed spectrum, and this is what it leaves. -/
theorem processFrames_ok {c : Config} {frames : List Frame} {a b : Analyzer}
    (h : processFrames c frames a = .ok b) :
    ∃ power win old scratch xf raw, a.windowPower = some power ∧
      Memory.fetchAll .win a.win c.fftSize = .ok win ∧
      Memory.fetchAll .smooth a.smooth c.bins = .ok old ∧
      scratch = windowed (inputCopy c frames) win ∧ xf = transform c scratch ∧
      raw = xf.map (fun z => normalise (decibels (magnitude (magScale c power) z))) ∧
      b = { a with
        scratch := Memory.writeArray a.scratch scratch
        xf := Memory.writeArray a.xf xf
        raw := Memory.writeArray a.raw raw
        smooth := Memory.writeArray a.smooth (List.zipWith smoothStep old raw) } := by
  unfold processFrames at h
  split at h
  · cases h
  rename_i power hp
  split at h
  · cases h
  rename_i win hw
  split at h
  · cases h
  rename_i old ho
  cases h
  exact ⟨power, win, old, _, _, _, hp, hw, ho, rfl, rfl, rfl, rfl⟩

theorem inputCopy_length (c : Config) (frames : List Frame) : (inputCopy c frames).length = c.fftSize := by
  simp [inputCopy]

theorem hannWindow_length (c : Config) : (hannWindow c).length = c.fftSize := by simp [hannWindow]

theorem transform_length (c : Config) (xs : List RNum) : (transform c xs).length = c.bins := by
  simp [transform]

/-! ### The commands -/

/-- How a command of each opcode may change the state, but for the outputs. -/
inductive Effect (c : Config) (s : State) : Opcode → State → Prop where
  /-- nothing: a fault report, or a command that only answers -/
  | same (oc : Opcode) : Effect c s oc s
  /-- a setter (rule R90): no register of `P` loses its value -/
  | par (oc : Opcode) (p : PendingParams) (setter : opUnit oc.toByte = 0)
      (keeps : ∀ n, s.par.isWritten.getD n false = true → p.isWritten.getD n false = true) :
      Effect c s oc (s.withPar p)
  /-- `OSC_SNAP` (rule R143) -/
  | snap (p : Params) (written : s.par = p.written) : Effect c s .oscSnap (s.withSnap p)
  /-- `FIFO_CLEAR` (rule R111) -/
  | clear :
      Effect c s .fifoClear
        (((s.withStore []).withFifo ⟨0, 0, 0, 0, .unspecified s.clockDraws⟩).countClock)
  /-- `FIFO_WRITE` (rule R112) -/
  | write (data : List Frame) (a : Nat) (accepted : a = acceptedFrames c s.fifo data.length) :
      Effect c s .fifoWrite
        ((s.withStore
          (Memory.writeAll (some Frame.silence) s.store (slotWrites c s.fifo.wr (data.take a)))).withFifo
            { s.fifo with wr := (s.fifo.wr + a) % c.capacity, count := s.fifo.count + a })
  /-- `FIFO_READ` (rules R113, R114) -/
  | read (n : Nat) :
      Effect c s .fifoRead
        ((s.withFifo
          { rd := readCursor c s.fifo n
            wr := s.fifo.wr
            count := s.fifo.count - takenFrames c s.fifo n
            tickCount := s.fifo.tickCount + 1
            tickTime := .reading s.clockDraws }).countClock)
  /-- `OSC_RESET` (rule R142) -/
  | oscReset : Effect c s .oscReset (((s.withOsc OscState.zero).withPink []).withFlt FltState.zero)
  /-- `OSC_SAMPLE` (rule R144) -/
  | sample (p : Params) (frame : Frame) (u : State) (snap : s.snap = some p)
      (ok : sampleStep c p s = .ok (frame, u)) : Effect c s .oscSample u
  /-- `OSC_BLOCK` (rule R145) -/
  | block (p : Params) (frames : List Frame) (u : State) (written : s.par = p.written)
      (ok : sampleSteps c p c.blockFrames (s.withSnap p) = .ok (frames, u)) : Effect c s .oscBlock u
  /-- `FLT_RESET` (rule R170) -/
  | fltReset : Effect c s .fltReset (s.withFlt FltState.zero)
  /-- `FLT_STEP` (rule R171) -/
  | fltStep (x fc r : RNum) : Effect c s .fltStep (s.withFlt (ladderStep c x fc r s.flt))
  /-- `SPA_INIT` (rule R181) -/
  | spaInit : Effect c s .spaInit (s.withSpa (constructed c s.spa))
  /-- `SPA_PROCESS` (rule R188) -/
  | spaProcess (frames : List Frame) (a : Analyzer) (ready : s.spa.ready = true)
      (ok : processFrames c frames s.spa = .ok a) : Effect c s .spaProcess (s.withSpa a)

/-- `t` is a state a command of opcode `oc` may leave from `s`. -/
def Reaches (c : Config) (oc : Opcode) (s t : State) : Prop :=
  ∃ u o, Effect c s oc u ∧ o.agent = s.out.agent ∧ t = u.withOut o

/-- No effect touches the port or the outputs. -/
theorem effect_port {c : Config} {oc : Opcode} {s u : State} (h : Effect c s oc u) :
    u.port = s.port ∧ u.out = s.out := by
  cases h with
  | sample p frame u _ ok => rw [sampleStep_frame ok]; exact ⟨rfl, rfl⟩
  | block p frames u _ ok => rw [sampleSteps_frame ok]; exact ⟨rfl, rfl⟩
  | _ => exact ⟨rfl, rfl⟩

theorem reaches_complete {c : Config} {oc : Opcode} {s u t : State} {rs : List Operand} {ev : Events}
    (he : Effect c s oc u) (h : complete rs ev u = .next t) : Reaches c oc s t := by
  cases h; exact
    ⟨u, ⟨u.out.agent, .results rs, ev⟩, he, show u.out.agent = _ by rw [(effect_port he).2], rfl⟩

theorem reaches_fault {c : Config} {oc : Opcode} {s t : State} {r : FaultReport}
    (h : t = s.withOut ⟨s.out.agent, .fault r, Events.none⟩) : Reaches c oc s t :=
  ⟨s, ⟨s.out.agent, .fault r, Events.none⟩, .same oc, rfl, h⟩

/-- A setter whose group keeps every written register written. -/
theorem setGroup_reaches {c : Config} {oc : Opcode} {p : PendingParams} {s t : State}
    (h : setGroup p s = .next t) (setter : opUnit oc.toByte = 0)
    (keeps : ∀ n, s.par.isWritten.getD n false = true → p.isWritten.getD n false = true) :
    Reaches c oc s t := reaches_complete (.par oc p setter keeps) h

theorem withNum_reaches {c : Config} {oc : Opcode} {a : NumWord} {s t : State} {k : RNum → Result}
    (h : withNum a s k = .next t) (hk : ∀ x, k x = .next t → Reaches c oc s t) : Reaches c oc s t := by
  rcases withNumAt_next h with ⟨x, _, hx⟩ | ⟨_, ht⟩
  · exact hk x hx
  · exact reaches_fault ht

theorem withNum2_reaches {c : Config} {oc : Opcode} {a b : NumWord} {s t : State}
    {k : RNum → RNum → Result} (h : withNum2 a b s k = .next t)
    (hk : ∀ x y, k x y = .next t → Reaches c oc s t) : Reaches c oc s t := by
  rcases withNumAt_next h with ⟨x, _, hx⟩ | ⟨_, ht⟩
  · rcases withNumAt_next hx with ⟨y, _, hy⟩ | ⟨_, ht⟩
    · exact hk x y hy
    · exact reaches_fault ht
  · exact reaches_fault ht

/-- Setting some registers of `P` leaves every written register written. -/
theorem isWritten_keeps (p : PendingParams) :
    (∀ x n, p.isWritten.getD n false = true →
      ({ p with waveform := some x } : PendingParams).isWritten.getD n false = true) ∧
    (∀ x n, p.isWritten.getD n false = true →
      ({ p with frequency := some x } : PendingParams).isWritten.getD n false = true) ∧
    (∀ x n, p.isWritten.getD n false = true →
      ({ p with amplitude := some x } : PendingParams).isWritten.getD n false = true) ∧
    (∀ x n, p.isWritten.getD n false = true →
      ({ p with dutyCycle := some x } : PendingParams).isWritten.getD n false = true) ∧
    (∀ x y n, p.isWritten.getD n false = true →
      ({ p with fmFreq := some x, fmDepth := some y } : PendingParams).isWritten.getD n false = true) ∧
    (∀ x y n, p.isWritten.getD n false = true →
      ({ p with amFreq := some x, amDepth := some y } : PendingParams).isWritten.getD n false = true) ∧
    (∀ x y n, p.isWritten.getD n false = true →
      ({ p with dcmFreq := some x, dcmDepth := some y } : PendingParams).isWritten.getD n false = true) ∧
    (∀ x y n, p.isWritten.getD n false = true →
      ({ p with cutoff := some x, resonance := some y } : PendingParams).isWritten.getD n false = true) ∧
    (∀ x y n, p.isWritten.getD n false = true →
      ({ p with cutoffLfoFreq := some x, cutoffLfoAmount := some y } : PendingParams).isWritten.getD n false
        = true) ∧
    (∀ x y n, p.isWritten.getD n false = true →
      ({ p with resLfoFreq := some x, resLfoAmount := some y } : PendingParams).isWritten.getD n false
        = true) := by
  refine ⟨?_, ?_, ?_, ?_, ?_, ?_, ?_, ?_, ?_, ?_⟩ <;> intros <;> rename_i n h <;>
    rcases n with _ | _ | _ | _ | _ | _ | _ | _ | _ | _ | _ | _ | _ | _ | _ | _ | n <;>
    first | exact h | rfl

theorem spaRead_next {c : Config} {k : Nat} {s t : State} (h : spaRead c k s = .next t) :
    c.lastBin < k ∧ t = s.withOut ⟨s.out.agent, .fault (badOperand 0), Events.none⟩ ∨
      k ≤ c.lastBin ∧ ∃ raw smooth, Memory.read none s.spa.raw k = some raw ∧
        Memory.read none s.spa.smooth k = some smooth ∧
        t = s.withOut ⟨s.out.agent, .results [numResult raw, numResult smooth], Events.none⟩ := by
  unfold spaRead at h
  split at h
  · rename_i hk; exact .inl ⟨hk, by cases h; rfl⟩
  · rename_i hk
    refine .inr ⟨not_lt.1 hk, ?_⟩
    unfold Memory.fetch at h
    cases hr : Memory.read none s.spa.raw k with
    | none => rw [hr] at h; cases h
    | some raw =>
      cases hs : Memory.read none s.spa.smooth k with
      | none => rw [hr, hs] at h; cases h
      | some smooth => rw [hr, hs] at h; cases h; exact ⟨raw, smooth, rfl, rfl, rfl⟩

/-- What a command may change: `exec` answers a next state only by one of the effects. -/
theorem exec_reaches {i : Instr} {s t : State} (h : exec i s = .next t) : Reaches Config.current i.opcode s t := by
  obtain ⟨k0, k1, k2, k3, k4, k5, k6, k7, k8, k9⟩ := isWritten_keeps s.par
  cases i with
  | setWaveform k =>
    rcases withKind_next (show execSetWaveform k s = _ from h) with ⟨x, _, hx⟩ | ⟨_, ht⟩
    · exact setGroup_reaches hx (show opUnit Opcode.setWaveform.toByte = 0 by decide) (k0 x)
    · exact reaches_fault ht
  | setFreq a =>
    exact withNum_reaches h fun x hx =>
      setGroup_reaches hx (show opUnit Opcode.setFreq.toByte = 0 by decide) (k1 x)
  | setAmp a =>
    exact withNum_reaches h fun x hx =>
      setGroup_reaches hx (show opUnit Opcode.setAmp.toByte = 0 by decide) (k2 x)
  | setDuty a =>
    exact withNum_reaches h fun x hx =>
      setGroup_reaches hx (show opUnit Opcode.setDuty.toByte = 0 by decide) (k3 x)
  | setFm a b =>
    exact withNum2_reaches h fun x y hx =>
      setGroup_reaches hx (show opUnit Opcode.setFm.toByte = 0 by decide) (k4 x y)
  | setAm a b =>
    exact withNum2_reaches h fun x y hx =>
      setGroup_reaches hx (show opUnit Opcode.setAm.toByte = 0 by decide) (k5 x y)
  | setDcm a b =>
    exact withNum2_reaches h fun x y hx =>
      setGroup_reaches hx (show opUnit Opcode.setDcm.toByte = 0 by decide) (k6 x y)
  | setFilter a b =>
    exact withNum2_reaches h fun x y hx =>
      setGroup_reaches hx (show opUnit Opcode.setFilter.toByte = 0 by decide) (k7 x y)
  | setCutoffLfo a b =>
    exact withNum2_reaches h fun x y hx =>
      setGroup_reaches hx (show opUnit Opcode.setCutoffLfo.toByte = 0 by decide) (k8 x y)
  | setResLfo a b =>
    exact withNum2_reaches h fun x y hx =>
      setGroup_reaches hx (show opUnit Opcode.setResLfo.toByte = 0 by decide) (k9 x y)
  | fifoClear => exact reaches_complete .clear h
  | fifoWrite n data =>
    rcases withFrames_next (show execFifoWrite n data s = _ from h) with ⟨fs, hf, hx⟩ | ⟨_, ht⟩
    · exact reaches_complete (.write fs _ (by rw [framesOf_length hf])) hx
    · exact reaches_fault ht
  | fifoRead n => exact reaches_complete (.read n) h
  | fifoLevel => exact reaches_complete (.same _) h
  | oscReset => exact reaches_complete .oscReset h
  | oscSnap =>
    rcases needParams_next (show execOscSnap s = _ from h) with ⟨p, hp, hx⟩ | ⟨_, _, ht⟩
    · exact reaches_complete (.snap p hp) hx
    · exact reaches_fault ht
  | oscSample =>
    rcases needSnap_next (show execOscSample s = _ from h) with ⟨p, hp, hx⟩ | ⟨_, ht⟩
    · split at hx
      · cases hx
      · rename_i frame u hu
        exact reaches_complete (.sample p frame u hp hu) hx
    · exact reaches_fault ht
  | oscBlock =>
    rcases needParams_next (show execOscBlock s = _ from h) with ⟨p, hp, hx⟩ | ⟨_, _, ht⟩
    · split at hx
      · cases hx
      · rename_i frames u hu
        exact reaches_complete (.block p frames u hp hu) hx
    · exact reaches_fault ht
  | fltReset => exact reaches_complete .fltReset h
  | fltStep a b c =>
    rcases withNumAt_next (show execFltStep a b c s = _ from h) with ⟨x, _, hx⟩ | ⟨_, ht⟩
    · rcases withNumAt_next hx with ⟨y, _, hy⟩ | ⟨_, ht⟩
      · rcases withNumAt_next hy with ⟨z, _, hz⟩ | ⟨_, ht⟩
        · exact reaches_complete (.fltStep x y z) hz
        · exact reaches_fault ht
      · exact reaches_fault ht
    · exact reaches_fault ht
  | spaInit => exact reaches_complete .spaInit h
  | spaProcess n ws =>
    rcases needReady_next (show execSpaProcess n ws s = _ from h) with ⟨hr, hx⟩ | ⟨_, ht⟩
    · rcases withFrames_next hx with ⟨fs, _, hf⟩ | ⟨_, ht⟩
      · unfold spaProcess at hf
        split at hf
        · cases hf
        · rename_i a ha
          exact reaches_complete (.spaProcess fs a hr ha) hf
      · exact reaches_fault ht
    · exact reaches_fault ht
  | spaF2b a => exact withNum_reaches h fun x hx => reaches_complete (.same _) hx
  | spaB2f a => exact withNum_reaches h fun x hx => reaches_complete (.same _) hx
  | spaRead k =>
    rcases needReady_next (show execSpaRead k s = _ from h) with ⟨_, hx⟩ | ⟨_, ht⟩
    · rcases spaRead_next hx with ⟨_, ht⟩ | ⟨_, raw, smooth, _, _, ht⟩
      · exact reaches_fault ht
      · exact
          ⟨s, ⟨s.out.agent, .results [numResult raw, numResult smooth], Events.none⟩, .same _, rfl, ht⟩
    · exact reaches_fault ht

/-- What one step can do: idle, report a transaction that is no command, or perform a command. -/
theorem step_reaches {s t : State} (h : step s = .next t) :
    s.port = [] ∧ t = s.withOut Output.idle ∨
      ∃ r rest oc, s.port = r :: rest ∧ Reaches Config.current oc (s.accept r rest) t := by
  unfold step at h
  split at h
  · rename_i hp; exact .inl ⟨hp, by cases h; rfl⟩
  · rename_i r rest hp
    right
    split at h
    · exact ⟨r, rest, _, hp, exec_reaches h⟩
    · rename_i e he
      obtain ⟨report, hr⟩ := performReject_eq e (s.accept r rest)
      rw [hr] at h
      cases h
      exact ⟨r, rest, .oscSnap, hp, reaches_fault rfl⟩

/-- What holds of a state, does not look at the outputs or the port, and is kept by every effect, is kept
by every step. -/
theorem step_keeps (Keeps : State → Prop) (hport : ∀ s rs, Keeps s → Keeps (s.withPort rs))
    (hout : ∀ s o, Keeps s → Keeps (s.withOut o))
    (heffect : ∀ s oc u, Effect Config.current s oc u → Keeps s → Keeps u) {s t : State}
    (h : step s = .next t) (hs : Keeps s) : Keeps t := by
  rcases step_reaches h with ⟨_, rfl⟩ | ⟨r, rest, oc, _, u, o, he, _, rfl⟩
  · exact hout _ _ hs
  · exact hout _ _ (heffect _ _ _ he (hout _ _ (hport _ _ hs)))

end Sys2Proof.Machine.Laws
end

