-- ==== Sys2Proof/Laws/Numerics.lean ====
section
/-! SUPPORT. What each operation on `RNum` computes: its value under every `Env` is the real operation's
(rule R9), and the first facts about `wrap` and `clamp`. -/

namespace Sys2Proof.RNum

variable (ρ : Env) (a b x y : RNum)

@[simp] theorem eval_lit (q : Rat) : (lit q).eval ρ = (q : ℝ) := rfl
@[simp] theorem eval_pi : pi.eval ρ = Real.pi := rfl
@[simp] theorem eval_sr : sr.eval ρ = ρ.sr := rfl
@[simp] theorem eval_minDb : minDb.eval ρ = ρ.minDb := rfl
@[simp] theorem eval_maxDb : maxDb.eval ρ = ρ.maxDb := rfl
@[simp] theorem eval_alpha : alpha.eval ρ = ρ.alpha := rfl
@[simp] theorem eval_white (k : Nat) : (white k).eval ρ = ρ.white k := rfl

@[simp] theorem eval_ofNat (n : Nat) : (ofNat n).eval ρ = (n : ℝ) := by simp [ofNat]

@[simp] theorem eval_add : (a.add b).eval ρ = a.eval ρ + b.eval ρ := by
  unfold add; split
  · simp
  · split <;> simp_all [eval]
  · split <;> simp_all [eval]
  · simp [eval]

@[simp] theorem eval_sub : (a.sub b).eval ρ = a.eval ρ - b.eval ρ := by
  unfold sub; split
  · simp
  · split <;> simp_all [eval]
  · simp [eval]

@[simp] theorem eval_mul : (a.mul b).eval ρ = a.eval ρ * b.eval ρ := by
  unfold mul; split
  · simp
  · split_ifs <;> simp_all [eval]
  · split_ifs <;> simp_all [eval]
  · simp [eval]

@[simp] theorem eval_div : (a.div b).eval ρ = a.eval ρ / b.eval ρ := by
  unfold div; split
  · simp
  · split <;> simp_all [eval]
  · split <;> simp_all [eval]
  · simp [eval]

@[simp] theorem eval_sin : a.sin.eval ρ = Real.sin (a.eval ρ) := by
  unfold sin; split
  · split <;> simp_all [eval]
  · simp [eval]

@[simp] theorem eval_cos : a.cos.eval ρ = Real.cos (a.eval ρ) := by
  unfold cos; split
  · split <;> simp_all [eval]
  · simp [eval]

@[simp] theorem eval_sqrt : a.sqrt.eval ρ = Real.sqrt (a.eval ρ) := by
  unfold sqrt; split
  · split_ifs <;> simp_all [eval]
  · simp [eval]

@[simp] theorem eval_log10 : a.log10.eval ρ = Real.logb 10 (a.eval ρ) := rfl

@[simp] theorem eval_floor : a.floor.eval ρ = ((⌊a.eval ρ⌋ : ℤ) : ℝ) := by
  unfold floor; split
  · rename_i q
    have h : q.floor = ⌊q⌋ := rfl
    simp [h]
  · simp [eval]

@[simp] theorem eval_min : (a.min b).eval ρ = Min.min (a.eval ρ) (b.eval ρ) := by
  unfold min; split
  · rename_i p q
    split_ifs with h
    · simp [min_eq_left (show (p : ℝ) ≤ q by exact_mod_cast h)]
    · simp [min_eq_right (show (q : ℝ) ≤ p by exact_mod_cast (not_le.1 h).le)]
  · simp [eval]

@[simp] theorem eval_max : (a.max b).eval ρ = Max.max (a.eval ρ) (b.eval ρ) := by
  unfold max; split
  · rename_i p q
    split_ifs with h
    · simp [max_eq_right (show (p : ℝ) ≤ q by exact_mod_cast h)]
    · simp [max_eq_left (show (q : ℝ) ≤ p by exact_mod_cast (not_le.1 h).le)]
  · simp [eval]

@[simp] theorem eval_ifLe : (ifLe a b x y).eval ρ = if a.eval ρ ≤ b.eval ρ then x.eval ρ else y.eval ρ := by
  unfold ifLe; split
  · rename_i p q
    by_cases h : p ≤ q <;> simp [h]
  · simp [eval]

@[simp] theorem eval_ifLt : (ifLt a b x y).eval ρ = if a.eval ρ < b.eval ρ then x.eval ρ else y.eval ρ := by
  unfold ifLt
  rw [eval_ifLe]
  by_cases h : a.eval ρ < b.eval ρ
  · simp [h, not_le.2 h]
  · simp [h, not_lt.1 h]

@[simp] theorem eval_ifPos (f : RNum) :
    (ifPos f x y).eval ρ = if 0 < f.eval ρ then x.eval ρ else y.eval ρ := by
  unfold ifPos
  rw [eval_ifLe]
  by_cases h : 0 < f.eval ρ
  · simp [h, not_le.2 h]
  · simp [h, not_lt.1 h]

@[simp] theorem eval_clamp (lo hi : RNum) :
    (x.clamp lo hi).eval ρ = Max.max (lo.eval ρ) (Min.min (hi.eval ρ) (x.eval ρ)) := by simp [clamp]

@[simp] theorem eval_sq : x.sq.eval ρ = x.eval ρ ^ 2 := by simp [sq, pow_two]

@[simp] theorem eval_twoPi : twoPi.eval ρ = 2 * Real.pi := by simp [twoPi]

@[simp] theorem eval_wrap :
    x.wrap.eval ρ = x.eval ρ - 2 * Real.pi * (⌊x.eval ρ / (2 * Real.pi)⌋ : ℤ) := by simp [wrap]

theorem eval_foldl_add (xs : List RNum) :
    (xs.foldl add a).eval ρ = a.eval ρ + (xs.map (eval ρ)).sum := by
  induction xs generalizing a with
  | nil => simp
  | cons z zs ih => simp [ih, add_assoc]

@[simp] theorem eval_total (xs : List RNum) : (total xs).eval ρ = (xs.map (eval ρ)).sum := by
  simp [total, eval_foldl_add]

/-- A wrapped phase lies in `[0, 2π)` (rule R131). -/
theorem wrap_range : 0 ≤ x.wrap.eval ρ ∧ x.wrap.eval ρ < 2 * Real.pi := by
  have hp : (0 : ℝ) < 2 * Real.pi := by positivity
  rw [eval_wrap]
  have h1 := Int.floor_le (x.eval ρ / (2 * Real.pi))
  have h2 := Int.lt_floor_add_one (x.eval ρ / (2 * Real.pi))
  rw [le_div_iff₀ hp] at h1
  rw [div_lt_iff₀ hp] at h2
  constructor <;> nlinarith

/-- A clamped value lies between the bounds, where they are in order (rule R12). -/
theorem clamp_range (lo hi : RNum) (h : lo.eval ρ ≤ hi.eval ρ) :
    lo.eval ρ ≤ (x.clamp lo hi).eval ρ ∧ (x.clamp lo hi).eval ρ ≤ hi.eval ρ := by
  rw [eval_clamp]
  exact ⟨le_max_left _ _, max_le h (min_le_left _ _)⟩

end Sys2Proof.RNum
end

