-- ==== Sys2Proof/Laws/PerInstr.lean ====
section
/-! SUPPORT. Facts about every command, one lemma per constructor. -/

namespace Sys2Proof.Laws

/-- The opcode map reads each opcode from its own byte (rules R71, R74). -/
theorem ofByte_toByte (oc : Opcode) : Opcode.ofByte oc.toByte = some oc := by
  cases oc <;> decide

/-- The opcode byte a command is encoded with selects its own opcode (rule R74). -/
def EncodesOwnOpcode.Statement (i : Instr) : Prop := Opcode.ofByte (encode i).1 = some i.opcode

theorem EncodesOwnOpcode.setWaveform (kind : BitVec 3) :
    EncodesOwnOpcode.Statement (.setWaveform kind) := ofByte_toByte _

theorem EncodesOwnOpcode.setFreq (frequency : NumWord) :
    EncodesOwnOpcode.Statement (.setFreq frequency) := ofByte_toByte _

theorem EncodesOwnOpcode.setAmp (amplitude : NumWord) :
    EncodesOwnOpcode.Statement (.setAmp amplitude) := ofByte_toByte _

theorem EncodesOwnOpcode.setDuty (dutyCycle : NumWord) :
    EncodesOwnOpcode.Statement (.setDuty dutyCycle) := ofByte_toByte _

theorem EncodesOwnOpcode.setFm (fmFreq fmDepth : NumWord) :
    EncodesOwnOpcode.Statement (.setFm fmFreq fmDepth) := ofByte_toByte _

theorem EncodesOwnOpcode.setAm (amFreq amDepth : NumWord) :
    EncodesOwnOpcode.Statement (.setAm amFreq amDepth) := ofByte_toByte _

theorem EncodesOwnOpcode.setDcm (dcmFreq dcmDepth : NumWord) :
    EncodesOwnOpcode.Statement (.setDcm dcmFreq dcmDepth) := ofByte_toByte _

theorem EncodesOwnOpcode.setFilter (cutoff resonance : NumWord) :
    EncodesOwnOpcode.Statement (.setFilter cutoff resonance) := ofByte_toByte _

theorem EncodesOwnOpcode.setCutoffLfo (freq amount : NumWord) :
    EncodesOwnOpcode.Statement (.setCutoffLfo freq amount) := ofByte_toByte _

theorem EncodesOwnOpcode.setResLfo (freq amount : NumWord) :
    EncodesOwnOpcode.Statement (.setResLfo freq amount) := ofByte_toByte _

theorem EncodesOwnOpcode.fifoClear : EncodesOwnOpcode.Statement .fifoClear := ofByte_toByte _

theorem EncodesOwnOpcode.fifoWrite (n : Nat) (data : List NumWord) :
    EncodesOwnOpcode.Statement (.fifoWrite n data) := ofByte_toByte _

theorem EncodesOwnOpcode.fifoRead (n : Nat) : EncodesOwnOpcode.Statement (.fifoRead n) := ofByte_toByte _

theorem EncodesOwnOpcode.fifoLevel : EncodesOwnOpcode.Statement .fifoLevel := ofByte_toByte _

theorem EncodesOwnOpcode.oscReset : EncodesOwnOpcode.Statement .oscReset := ofByte_toByte _

theorem EncodesOwnOpcode.oscSnap : EncodesOwnOpcode.Statement .oscSnap := ofByte_toByte _

theorem EncodesOwnOpcode.oscSample : EncodesOwnOpcode.Statement .oscSample := ofByte_toByte _

theorem EncodesOwnOpcode.oscBlock : EncodesOwnOpcode.Statement .oscBlock := ofByte_toByte _

theorem EncodesOwnOpcode.fltReset : EncodesOwnOpcode.Statement .fltReset := ofByte_toByte _

theorem EncodesOwnOpcode.fltStep (input cutoff resonance : NumWord) :
    EncodesOwnOpcode.Statement (.fltStep input cutoff resonance) := ofByte_toByte _

theorem EncodesOwnOpcode.spaInit : EncodesOwnOpcode.Statement .spaInit := ofByte_toByte _

theorem EncodesOwnOpcode.spaProcess (count : Nat) (buffer : List NumWord) :
    EncodesOwnOpcode.Statement (.spaProcess count buffer) := ofByte_toByte _

theorem EncodesOwnOpcode.spaF2b (f : NumWord) : EncodesOwnOpcode.Statement (.spaF2b f) := ofByte_toByte _

theorem EncodesOwnOpcode.spaB2f (b : NumWord) : EncodesOwnOpcode.Statement (.spaB2f b) := ofByte_toByte _

theorem EncodesOwnOpcode.spaRead (k : Nat) : EncodesOwnOpcode.Statement (.spaRead k) := ofByte_toByte _

end Sys2Proof.Laws
end

