-- ==== Sys2Proof/Tests/Slice0.lean ====
section
/-! SUPPORT. Tests: the well-formedness checks refuse what they should, opcode bytes written out from the
spec's table decode to their commands, single steps against the spec's examples and vectors, and, for
every statement of Obligations.lean with hypotheses, a witness that meets them all. -/

namespace Sys2Proof.Tests

open Sys2Proof Sys2Proof.Machine Sys2Proof.Machine.Laws Sys2Proof.Safety

/-! ### Well-formedness: one ill-formed term per check -/

theorem test_kind_code_five_is_ill_formed :
    (Instr.setWaveform 5).wf = false ∧ (Instr.setWaveform 7).wf = false ∧ (Instr.setWaveform 4).wf = true := by
  decide

theorem test_short_frames_are_ill_formed :
    (Instr.fifoWrite 1 [.nonFinite]).framesExact = false ∧ (Instr.spaProcess 2 []).framesExact = false ∧
      (Instr.spaProcess 0 []).wf = true := by decide

theorem test_nonfinite_words_are_ill_formed :
    (Instr.setFreq .nonFinite).numsFinite = false ∧
      (Instr.fltStep (.finite .pi) (.finite .sr) .nonFinite).wf = false ∧
      (Instr.fltStep (.finite .pi) (.finite .sr) (.finite .alpha)).wf = true := by decide

/-! ### Decoding: the opcode bytes of rule R74, written out -/

/-- Two finite words that differ, so that a swap would show. -/
def wordA : NumWord := .finite .sr

def wordB : NumWord := .finite .pi

theorem test_decode_par :
    decode 0b00000000 [.kind 0b011] = .ok (.setWaveform 3) ∧
      decode 0b00000001 [.num wordA] = .ok (.setFreq wordA) ∧
      decode 0b00000010 [.num wordA] = .ok (.setAmp wordA) ∧
      decode 0b00000011 [.num wordA] = .ok (.setDuty wordA) ∧
      decode 0b00000100 [.num wordA, .num wordB] = .ok (.setFm wordA wordB) ∧
      decode 0b00000101 [.num wordA, .num wordB] = .ok (.setAm wordA wordB) ∧
      decode 0b00000110 [.num wordA, .num wordB] = .ok (.setDcm wordA wordB) ∧
      decode 0b00000111 [.num wordA, .num wordB] = .ok (.setFilter wordA wordB) ∧
      decode 0b00001000 [.num wordA, .num wordB] = .ok (.setCutoffLfo wordA wordB) ∧
      decode 0b00001001 [.num wordA, .num wordB] = .ok (.setResLfo wordA wordB) := by decide

theorem test_decode_fifo :
    decode 0b00010000 [] = .ok .fifoClear ∧
      decode 0b00010001 [.nat 1, .num wordA, .num wordB] = .ok (.fifoWrite 1 [wordA, wordB]) ∧
      decode 0b00010010 [.nat 7] = .ok (.fifoRead 7) ∧
      decode 0b00010011 [] = .ok .fifoLevel := by decide

theorem test_decode_osc :
    decode 0b00100000 [] = .ok .oscReset ∧ decode 0b00100001 [] = .ok .oscSnap ∧
      decode 0b00100010 [] = .ok .oscSample ∧ decode 0b00100011 [] = .ok .oscBlock := by decide

theorem test_decode_flt :
    decode 0b00110000 [] = .ok .fltReset ∧
      decode 0b00110001 [.num wordA, .num wordB, .num .nonFinite] = .ok (.fltStep wordA wordB .nonFinite) := by
  decide

theorem test_decode_spa :
    decode 0b01000000 [] = .ok .spaInit ∧
      decode 0b01000001 [.nat 1, .num wordA, .num wordB] = .ok (.spaProcess 1 [wordA, wordB]) ∧
      decode 0b01000010 [.num wordA] = .ok (.spaF2b wordA) ∧
      decode 0b01000011 [.num wordA] = .ok (.spaB2f wordA) ∧
      decode 0b01000100 [.nat 5] = .ok (.spaRead 5) := by decide

/-- Program P6 step 8, and the last opcode of each unit's neighbour (rule R75). -/
theorem test_illegal_opcodes :
    decode 0x24 [] = .error (.illegalOpcode 0x24) ∧ decode 0x0A [.nat 1] = .error (.illegalOpcode 0x0A) ∧
      decode 0x45 [] = .error (.illegalOpcode 0x45) ∧ decode 0xFF [] = .error (.illegalOpcode 0xFF) := by decide

theorem test_malformed_lists :
    decode 0x04 [.num wordA] = .error (.malformedOperands .setFm [.num wordA]) ∧
      decode 0x13 [.nat 0] = .error (.malformedOperands .fifoLevel [.nat 0]) ∧
      decode 0x12 [.num wordA] = .error (.malformedOperands .fifoRead [.num wordA]) := by decide

/-- The first bad operand in order, whether its type, its value or its being there is wrong (rules R201,
R208): a non-finite `NUM` or an unnamed `KIND` before a missing or surplus operand is the one reported. -/
theorem test_malformed_positions :
    let scan oc := firstBadOperand Config.vectors oc 0 oc.signature
    scan .setFm [.num .nonFinite] = 0 ∧ scan .setFm [.num wordA] = 1 ∧
      scan .setWaveform [.kind 5, .nat 0] = 0 ∧ scan .setWaveform [.kind 4, .nat 0] = 1 ∧
      scan .spaRead [.nat 5, .nat 0] = 0 ∧ scan .spaRead [.nat 4, .nat 0] = 1 ∧
      scan .fifoWrite [.nat 1, .num wordA, .nat 0] = 1 ∧ scan .fifoRead [.num wordA] = 0 ∧
      scan .fifoLevel [.nat 0] = 0 := by decide

/-- The binary32 patterns printed with programs P1, P2 and P3. -/
theorem test_binary32_patterns :
    binary32 0x447A0000 = .finite (.lit 1000) ∧ binary32 0xBF800000 = .finite (.lit (-1)) ∧
      binary32 0x3E800000 = .finite (.lit (1 / 4)) ∧ binary32 0x469C4000 = .finite (.lit 20000) ∧
      binary32 0x7F800000 = .nonFinite := by decide +kernel

theorem test_table_words :
    decodeTableWord 8 0x11 = some (.fifoWrite 0 []) ∧ decodeTableWord 8 0x44 = some (.spaRead 0) ∧
      decodeTableWord 8 0x00 = some (.setWaveform 0) ∧ decodeTableWord 8 0x50 = none := by decide +kernel

/-! ### Single steps -/

/-- The frames `(k, -k)` of program P1. -/
def frame (k : Int) : Frame := ⟨.lit k, .lit (-k)⟩

/-- The outputs reached by a meaning, if it has a next state. -/
def reply (r : Result) : Option (Reply × Events) :=
  match r with
  | .next t => some (t.out.reply, t.out.events)
  | .fault _ => none
  | .refused _ => none

/-- A part of the state a meaning reaches, if it has a next state. -/
def part {α : Type} (f : State → α) (r : Result) : Option α :=
  match r with
  | .next t => some (f t)
  | .fault _ => none
  | .refused _ => none

theorem test_withFetchWord_runs :
    part id (step (State.reset.withFetchWord 8 0x13)) =
      some (State.reset.withOut ⟨some .host, .results [.nat 0], ⟨false, false, false⟩⟩) := by decide +kernel

/-- Rule R112's example: `FIFO_WRITE 4` from the cleared state. -/
theorem test_fifo_write_example :
    part (fun t => (t.fifo.wr, t.fifo.rd, t.fifo.count, t.store))
        (fifoWrite Config.vectors 4 [frame 1, frame 2, frame 3, frame 4] State.reset) =
      some (4, 0, 4, [(0, frame 1), (1, frame 2), (2, frame 3), (3, frame 4)]) := by decide +kernel

/-- A FIFO of `C = 8` with 7 frames in slots 6, 7, 0 to 4: a write of 3 takes one. -/
theorem test_fifo_write_drops :
    let s := State.reset.withFifo ⟨5, 6, 7, 0, .unspecified 0⟩
    reply (fifoWrite Config.vectors 3 [frame 1, frame 2, frame 3] s) =
        some (.results [.nat 1], ⟨false, false, false⟩) ∧
      part (fun t => (t.fifo.wr, t.fifo.count, slot t.store 5, slot t.store 6))
        (fifoWrite Config.vectors 3 [frame 1, frame 2, frame 3] s) = some (6, 8, frame 1, Frame.silence) := by
  decide +kernel

/-- A state with frames 16, 17, 18 in slots 6, 7, 0 (program P1, step 11). -/
def wrapped : State :=
  (State.reset.withFifo ⟨1, 6, 3, 5, .unspecified 0⟩).withStore [(0, frame 18), (6, frame 16), (7, frame 17)]

/-- Program P1, step 11: a read across the wrap, padded with silence. -/
theorem test_fifo_read_wraps_and_pads :
    reply (fifoRead Config.vectors 5 wrapped) =
        some (.results (frameResults [frame 16, frame 17, frame 18, ⟨.lit 0, .lit 0⟩, ⟨.lit 0, .lit 0⟩]),
          ⟨true, false, false⟩) ∧
      part (fun t => (t.fifo.wr, t.fifo.rd, t.fifo.count, t.fifo.tickCount)) (fifoRead Config.vectors 5 wrapped) =
        some (1, 1, 0, 6) := by decide +kernel

/-- Program P1, step 9: one frame is below `MIN_FILL = 2`; it is kept and silence is answered. -/
theorem test_fifo_read_starved :
    let s := State.reset.withFifo ⟨7, 6, 1, 4, .unspecified 0⟩
    reply (fifoRead Config.vectors 1 s) =
        some (.results (frameResults [⟨.lit 0, .lit 0⟩]), ⟨true, false, true⟩) ∧
      part (fun t => (t.fifo.rd, t.fifo.count)) (fifoRead Config.vectors 1 s) = some (6, 1) := by decide +kernel

theorem test_fifo_clear_forgets :
    part (fun t => (t.fifo.wr, t.fifo.count, t.fifo.tickCount, slot t.store 6)) (execFifoClear wrapped) =
      some (0, 0, 0, Frame.silence) := by decide +kernel

theorem test_fifo_level : reply (execFifoLevel wrapped) = some (.results [.nat 3], ⟨false, false, false⟩) := by
  decide +kernel

/-- The ten setters of program P2 (a pair setter writes its first operand to the first register). -/
theorem test_set_fm_order :
    part (fun t => (t.par.fmFreq, t.par.fmDepth)) (execSetFm wordA wordB State.reset) =
      some (some .sr, some .pi) := by decide +kernel

theorem test_set_filter_order :
    part (fun t => (t.par.cutoff, t.par.resonance)) (execSetFilter wordA wordB State.reset) =
      some (some .sr, some .pi) := by decide +kernel

theorem test_setter_event :
    reply (execSetAmp wordA State.reset) = some (.results [], ⟨false, true, false⟩) ∧
      reply (execSetAmp .nonFinite State.reset) =
        some (.fault ⟨.badOperand, some 0⟩, ⟨false, false, false⟩) := by decide +kernel

theorem test_second_operand_reported :
    reply (execSetAm wordA .nonFinite State.reset) =
      some (.fault ⟨.badOperand, some 1⟩, ⟨false, false, false⟩) := by decide +kernel

/-- The parameters of program P2, of waveform `k`. -/
def paramsOf (k : Kind) : Params where
  waveform := k
  frequency := .lit 1000
  amplitude := .lit 1
  dutyCycle := .lit (1 / 2)
  fmFreq := .lit 0
  fmDepth := .lit 0
  amFreq := .lit 0
  amDepth := .lit 0
  dcmFreq := .lit 0
  dcmDepth := .lit 0
  cutoff := .lit 20000
  resonance := .lit 0
  cutoffLfoFreq := .lit 0
  cutoffLfoAmount := .lit 0
  resLfoFreq := .lit 0
  resLfoAmount := .lit 0

/-- Reset, with a snapshot of waveform `k` taken from written parameters. -/
def snapped (k : Kind) : State := (State.reset.withPar (paramsOf k).written).withSnap (paramsOf k)

/-- Program P6, steps 1, 3 and 5. -/
theorem test_boot_faults :
    reply (execOscBlock State.reset) = some (.fault ⟨.unwrittenParam, some 0⟩, ⟨false, false, false⟩) ∧
      reply (execOscSnap (State.reset.withPar { PendingParams.unwritten with waveform := some .sine })) =
        some (.fault ⟨.unwrittenParam, some 1⟩, ⟨false, false, false⟩) ∧
      reply (execOscSample (State.reset.withPar (paramsOf .sine).written)) =
        some (.fault ⟨.unwrittenParam, some 16⟩, ⟨false, false, false⟩) := by decide +kernel

theorem test_snap_copies :
    part (fun t => t.snap) (execOscSnap (State.reset.withPar (paramsOf .saw).written)) =
      some (some (paramsOf .saw)) := by decide +kernel

/-- Rule R135's example: `PINK_TAPS = 4` from reset; the first draw enters slot 0 and the sum. -/
theorem test_pink_step :
    (match pinkStep Config.vectors State.reset with
      | .ok (_, t) => some (t.osc.pinkIdx, t.osc.pinkSum, t.pink, t.whiteDraws)
      | .error _ => none) = some (1, .white 0, [(0, .white 0)], 1) := by decide +kernel

/-- Program P2, sample 0 and program P5's continuation: a sine at phase 0 answers 0, and only the carrier
moves. -/
theorem test_first_sine_sample :
    reply (oscSample Config.vectors (snapped .sine)) =
        some (.results (frameResults [⟨.lit 0, .lit 0⟩]), ⟨false, false, false⟩) ∧
      part (fun t => (t.osc.fmPhase, t.flt.cutoffLfoPhase, t.whiteDraws))
        (oscSample Config.vectors (snapped .sine)) = some (.lit 0, .lit 0, 0) := by decide +kernel

theorem test_block_length :
    part (fun t => match t.out.reply with
        | .results rs => rs.length
        | .idle => 0
        | .fault _ => 0) (oscBlock Config.vectors (snapped .saw)) = some 8 := by decide +kernel

theorem test_osc_reset_keeps_snapshot :
    part (fun t => (t.osc.phase, t.flt.delay3, t.snap)) (execOscReset (snapped .saw)) =
      some (.lit 0, .lit 0, some (paramsOf .saw)) := by decide +kernel

theorem test_flt_reset :
    part (fun t => (t.flt, t.osc.phase))
        (execFltReset ((snapped .saw).withFlt ⟨.pi, .pi, .pi, .pi, .pi, .pi, .pi, .pi⟩)) =
      some (FltState.zero, .lit 0) := by decide +kernel

/-- Rules R163, R164, R166 and R167: worked values of the filter's parts. -/
theorem test_filter_parts :
    clampResonance (.lit 2) = .lit 1 ∧ clampResonance (.lit (-1 / 2)) = .lit 0 ∧
      saturate (.lit 1) = .lit (7 / 9) ∧ saturate (.lit (-1)) = .lit (-7 / 9) ∧ saturate (.lit 3) = .lit 1 ∧
      compensation (.lit (19 / 10)) = .lit (100 / 119) := by decide +kernel

theorem test_flt_step_zero_input :
    reply (fltStep Config.vectors (.lit 0) (.lit 1000) (.lit 0) State.reset) =
      some (.results [.num (.finite (.lit 0))], ⟨false, false, false⟩) := by decide +kernel

/-- Program P4, step 1: the analyzer is not constructed. -/
theorem test_read_before_init :
    reply (execSpaRead 2 State.reset) = some (.fault ⟨.uninit, none⟩, ⟨false, false, false⟩) := by decide +kernel

/-- Program P4, steps 2, 3 and 12, on the configuration of the vectors (`N = 8`). -/
theorem test_read_after_init :
    let s := State.reset.withSpa (constructed Config.vectors State.reset.spa)
    reply (spaRead Config.vectors 2 s) =
        some (.results [.num (.finite (.lit 0)), .num (.finite (.lit 0))], ⟨false, false, false⟩) ∧
      reply (spaRead Config.vectors 5 s) = some (.fault ⟨.badOperand, some 0⟩, ⟨false, false, false⟩) := by
  decide +kernel

/-- Rule R182: the left samples of the first `N = 8` frames, padded with zeros. -/
theorem test_input_copy :
    inputCopy Config.vectors [⟨.lit 1, .lit 99⟩, ⟨.lit 2, .lit 99⟩] =
      [.lit 1, .lit 2, .lit 0, .lit 0, .lit 0, .lit 0, .lit 0, .lit 0] := by decide +kernel

/-- Rules R189 and R190, `N = 8`, `SR = 8000`: 2000 Hz is bin 2, bin 2 is 2000 Hz. -/
theorem test_bin_conversions (ρ : Env) (h : ρ.sr = 8000) :
    (freqToBin Config.vectors (.lit 2000)).eval ρ = 2 ∧ (binToFreq Config.vectors (.lit 2)).eval ρ = 2000 := by
  constructor <;> simp [freqToBin, binToFreq, h, Config.fftSize, Config.vectors] <;> norm_num

/-! ### Witnesses: for each statement with hypotheses, a concrete state and operands that meet them -/

theorem witness_EncodeInvertsDecode : decode 0x10 [] = .ok .fifoClear := by decide

/-- Reset, with one transaction at the port. -/
def presented (op : Byte) (operands : List Operand) : State := State.reset.withPort [⟨.gen, op, operands⟩]

theorem witness_IllegalOpcodesFault :
    (presented 0x24 []).port = ⟨.gen, 0x24, []⟩ :: [] ∧ Opcode.ofByte 0x24 = none := by decide

theorem witness_MalformedTransactionFaults :
    ((presented 0x44 []).port = ⟨.gen, 0x44, []⟩ :: [] ∧ Opcode.ofByte 0x44 = some .spaRead ∧
      (∀ i : Instr, i.opcode = .spaRead → i.operands ≠ []) ∧
      precondition .spaRead (presented 0x44 []) = some ⟨.uninit, none⟩) ∧
    (presented 0x00 [.kind 4, .nat 0]).port = ⟨.gen, 0x00, [.kind 4, .nat 0]⟩ :: [] ∧
      Opcode.ofByte 0x00 = some .setWaveform ∧
      (∀ i : Instr, i.opcode = .setWaveform → i.operands ≠ [.kind 4, .nat 0]) ∧
      precondition .setWaveform (presented 0x00 [.kind 4, .nat 0]) = none ∧
      (∀ q, q < 1 → goodOperand .setWaveform [.kind 4, .nat 0] q) ∧
      ¬goodOperand .setWaveform [.kind 4, .nat 0] 1 ∧
      ¬goodOperand .setWaveform [.kind 5, .nat 0] 0 := by
  refine ⟨⟨by decide, by decide, fun i h => ?_, by decide⟩, by decide, by decide, fun i h => ?_, by decide,
    fun q hq => ?_, by simp [goodOperand, Opcode.signature], by simp [goodOperand, Opcode.signature]⟩
  · cases i <;> first | exact List.cons_ne_nil _ _ | cases h
  · cases i <;> simp [Instr.operands]
  · obtain rfl : q = 0 := by omega
    exact .inr (.inr ⟨4, rfl, rfl, by decide⟩)

theorem witness_StepRunsDecoded :
    (presented 0x13 []).port = ⟨.gen, 0x13, []⟩ :: [] ∧ decode 0x13 [] = .ok .fifoLevel := by decide

theorem witness_IdleStepKeepsState : State.reset.port = [] := rfl

theorem witness_IssuerIsNotChecked :
    (presented 0x13 []).port = ⟨.gen, 0x13, []⟩ :: [] ∧ ∃ t, step (presented 0x13 []) = .next t :=
  ⟨rfl, _, rfl⟩

theorem witness_SetWaveformEffect :
    ((4 : BitVec 3), Kind.pink) ∈
        [((0 : BitVec 3), Kind.sine), (1, .square), (2, .saw), (3, .triangle), (4, .pink)] ∧
      5 ≤ (5 : BitVec 3).toNat ∧ 5 ≤ (7 : BitVec 3).toNat := by decide

theorem witness_IllFormedCommandFaults :
    (Instr.fifoWrite 1 []).wf = false ∧ precondition (Instr.fifoWrite 1 []).opcode State.reset = none ∧
      (Instr.spaProcess 1 []).wf = false ∧
      precondition (Instr.spaProcess 1 []).opcode State.reset = some ⟨.uninit, none⟩ := by decide +kernel

/-- `P` with every register written but the last. -/
def allButLast : PendingParams := { (paramsOf .sine).written with resLfoAmount := none }

theorem witness_UnwrittenParameterFaults :
    (State.reset.par.isWritten[0]? = some false ∧
      ∀ m, m < 0 → State.reset.par.isWritten.getD m false = true) ∧
    ((State.reset.withPar allButLast).par.isWritten[15]? = some false ∧
      ∀ m, m < 15 → (State.reset.withPar allButLast).par.isWritten.getD m false = true) ∧
    State.reset.snap = none := by decide +kernel

theorem witness_UninitialisedAnalyzerFaults : State.reset.spa.ready = false := rfl

theorem witness_FaultChangesNothing :
    ∃ t, exec (.spaRead 0) State.reset = .next t ∧ t.out.reply = .fault ⟨.uninit, none⟩ := ⟨_, rfl, rfl⟩

theorem witness_EventsRaisedExactly : ∃ t, exec (.fifoRead 2) State.reset = .next t := ⟨_, rfl⟩

theorem witness_UnitsKeepToTheirState :
    (∃ t, exec .fltReset State.reset = .next t) ∧ unitOf .fltReset ≠ 0 := ⟨⟨_, rfl⟩, by decide⟩

/-- Reset, with the analyzer constructed. -/
def built : State := State.reset.withSpa (constructed Config.current State.reset.spa)

theorem witness_WrittenStaysWritten :
    (∃ t, step (snapped .sine) = .next t) ∧ (snapped .sine).par.isWritten.getD 15 false = true ∧
      (snapped .sine).snap.isSome = true ∧ built.spa.ready = true ∧ ∃ t, step built = .next t :=
  ⟨⟨_, rfl⟩, by decide +kernel, by decide +kernel, rfl, _, rfl⟩

theorem witness_SettersReachSamplesOnlyThroughSnap :
    Instr.oscReset.opcode ∈ [Opcode.oscSample, .fltStep, .oscReset, .fltReset] ∧
      (∃ t, exec .oscReset State.reset = .next t) ∧ (snapped .saw).par = (paramsOf .saw).written ∧
      ∃ t, exec .oscSnap (snapped .saw) = .next t := ⟨by decide, ⟨_, rfl⟩, rfl, _, rfl⟩

theorem witness_AnalyzerIsIndependent :
    unitOf .fltReset ≠ 4 ∧ (∃ t, exec .fltReset State.reset = .next t) ∧ unitOf .spaInit = 4 ∧
      State.reset.spa = (snapped .sine).spa ∧ State.reset.out.agent = (snapped .sine).out.agent ∧
      ∃ t, exec .spaInit State.reset = .next t := ⟨by decide, ⟨_, rfl⟩, by decide, rfl, rfl, _, rfl⟩

/-- A state whose FIFO stores one frame and whose next transaction is `FIFO_LEVEL`. -/
def oneStored : State :=
  (presented 0x13 []).withFifo ⟨1 % Config.current.capacity, 0, 1, 0, .unspecified 0⟩

theorem oneStored_fifoOk : FifoOk Config.current oneStored.fifo :=
  ⟨capacity_pos, Nat.mod_lt _ capacity_pos, capacity_pos, by simp [oneStored]⟩

theorem witness_FifoInvariantKept :
    FifoOk Config.current oneStored.fifo ∧ ∃ t, step oneStored = .next t := ⟨oneStored_fifoOk, _, rfl⟩

theorem witness_FifoRefinesQueue :
    FifoOk Config.current oneStored.fifo ∧ (∃ t, exec (.fifoRead 1) oneStored = .next t) ∧
      (∃ t, exec (.fifoWrite [frame 1].length (frameWords [frame 1])) oneStored = .next t) ∧
      (∃ t, exec .fifoClear oneStored = .next t) ∧
      Opcode.spaInit ∉ [Opcode.fifoClear, .fifoWrite, .fifoRead] ∧ ∃ t, exec .spaInit oneStored = .next t :=
  ⟨oneStored_fifoOk, ⟨_, rfl⟩, ⟨_, rfl⟩, ⟨_, rfl⟩, by decide, _, rfl⟩

theorem witness_WritesThatFitAccumulate :
    FifoOk Config.current State.reset.fifo ∧ State.reset.fifo.count = 0 ∧
      ([[frame 1], []].map List.length).sum ≤ Config.current.capacity :=
  ⟨⟨Nat.zero_le _, capacity_pos, capacity_pos, Nat.mod_eq_of_lt capacity_pos⟩, rfl, capacity_pos⟩

theorem witness_WraparoundRoundTrip :
    Config.vectors.valid = true ∧ 4 ∣ Config.vectors.capacity ∧
      Config.vectors.minFill ≤ Config.vectors.capacity / 2 ∧ State.reset.fifo.wr = 0 ∧
      State.reset.fifo.rd = 0 ∧ State.reset.fifo.count = 0 ∧
      [frame 1, frame 2, frame 3, frame 4].length = Config.vectors.capacity / 2 := by decide +kernel

theorem witness_LevelOnlyFallsWithoutWrites :
    Instr.fifoClear.opcode ≠ .fifoWrite ∧ (∃ t, exec .fifoClear State.reset = .next t) ∧
      State.reset.fifo.count ≤ 0 ∧ [frame 1].length ≤ Config.current.capacity - 0 ∧
      ∃ t, exec (.fifoWrite [frame 1].length (frameWords [frame 1])) State.reset = .next t :=
  ⟨by decide, ⟨_, rfl⟩, le_refl _, capacity_pos, _, rfl⟩

/-- A state that has drawn one clock value. -/
def ticked : State := (State.reset.withFifo ⟨0, 0, 0, 1, .reading 1⟩).countClock

theorem witness_StampsNeverDecrease :
    Config.vectorsEnv.Valid ∧ StampOk ticked ∧ ticked.fifo.tickTime = .reading 1 ∧
      (∃ t, step ticked = .next t) ∧ (∃ t, exec (.fifoRead 1) ticked = .next t) ∧
      ∃ t, exec .fifoClear ticked = .next t :=
  ⟨vectorsEnv_valid, fun k h => by rcases h with h | h <;> cases h; decide, rfl, ⟨_, rfl⟩, ⟨_, rfl⟩, _, rfl⟩

theorem witness_OscSnapEffect :
    (snapped .sine).par = (paramsOf .sine).written ∧
      (State.reset.withPar allButLast).par.isWritten[15]? = some false ∧
      ∀ m, m < 15 → (State.reset.withPar allButLast).par.isWritten.getD m false = true := by decide +kernel

theorem witness_OscSampleComputesSample :
    (snapped .sine).snap = some (paramsOf .sine) ∧ (paramsOf .sine).waveform ≠ .pink ∧
      Config.vectorsEnv.Valid ∧
      ∃ base, Ideal.wave ((snapped .sine).osc.phase.eval Config.vectorsEnv)
        (Ideal.duty (Ideal.params Config.vectorsEnv (paramsOf .sine))
          (Ideal.phases Config.vectorsEnv (snapped .sine).osc)) (paramsOf .sine).waveform = some base :=
  ⟨rfl, by decide, vectorsEnv_valid, _, rfl⟩

/-- The pink snapshot with the last tap next. -/
def lastTap : State := (snapped .pink).withOsc { OscState.zero with pinkIdx := Config.current.pinkTaps - 1 }

theorem witness_OscSampleComputesPink :
    ((snapped .pink).snap = some (paramsOf .pink) ∧ (paramsOf .pink).waveform = .pink ∧
      (snapped .pink).osc.pinkIdx < Config.current.pinkTaps) ∧
    (lastTap.snap = some (paramsOf .pink) ∧ lastTap.osc.pinkIdx < Config.current.pinkTaps) ∧
    Config.vectorsEnv.Valid :=
  ⟨⟨rfl, rfl, pinkTaps_pos⟩, ⟨rfl, Nat.sub_lt pinkTaps_pos Nat.one_pos⟩, vectorsEnv_valid⟩

theorem witness_OscBlockCompletes :
    (snapped .saw).par = (paramsOf .saw).written ∧ (snapped .saw).osc.pinkIdx < Config.current.pinkTaps ∧
      lastTap.par = (paramsOf .pink).written ∧ lastTap.osc.pinkIdx < Config.current.pinkTaps :=
  ⟨rfl, pinkTaps_pos, rfl, Nat.sub_lt pinkTaps_pos Nat.one_pos⟩

theorem witness_BlockIsSnapThenSamples :
    lastTap.par = (paramsOf .pink).written ∧ lastTap.osc.pinkIdx < Config.current.pinkTaps :=
  ⟨rfl, Nat.sub_lt pinkTaps_pos Nat.one_pos⟩

theorem zeroPhase_ok (ρ : Env) : PhaseOk ρ (.lit 0) := by
  constructor
  · simp
  · simpa using Real.pi_pos

theorem witness_PhasesStayInRange :
    PhasesOk Config.vectorsEnv (presented 0x30 []) ∧ ∃ t, step (presented 0x30 []) = .next t :=
  ⟨⟨zeroPhase_ok _, zeroPhase_ok _, zeroPhase_ok _, zeroPhase_ok _, zeroPhase_ok _, zeroPhase_ok _⟩, _, rfl⟩

theorem snapped_pinkOk (c : Config) (ρ : Env) (k : Kind) (h : c.valid = true) : PinkOk c ρ (snapped k) where
  idx := ((valid_iff c).1 h).2.2.2.2.1
  sum := by simp [snapped, State.reset, OscState.zero, tap]
  range := fun i _ => by simp [snapped, State.reset, tap]

theorem witness_PinkSumIsTapTotal :
    Config.vectorsEnv.Valid ∧ PinkOk Config.current Config.vectorsEnv (snapped .pink) ∧
      ∃ t, step (snapped .pink) = .next t :=
  ⟨vectorsEnv_valid, snapped_pinkOk _ _ _ current_valid, _, rfl⟩

theorem witness_BaseWaveBounded :
    Config.vectors.valid = true ∧ Config.vectorsEnv.Valid ∧
      PhaseOk Config.vectorsEnv (snapped .pink).osc.phase ∧
      PinkOk Config.vectors Config.vectorsEnv (snapped .pink) ∧
      ∃ base t, baseWave Config.vectors (paramsOf .pink) (.lit (1 / 2)) (snapped .pink) = .ok (base, t) :=
  ⟨by decide, vectorsEnv_valid, zeroPhase_ok _, snapped_pinkOk _ _ _ (by decide), _, _, rfl⟩

theorem witness_WaveformsAtReferencePhases :
    (RNum.lit 0).eval Config.vectorsEnv = 0 ∧ 0 ≤ (RNum.lit 0).eval Config.vectorsEnv ∧
      (RNum.quot .pi (.lit 2)).eval Config.vectorsEnv = Real.pi / 2 ∧
      RNum.pi.eval Config.vectorsEnv = Real.pi ∧
      (RNum.quot (.prod (.lit 3) .pi) (.lit 2)).eval Config.vectorsEnv = 3 * Real.pi / 2 ∧
      (RNum.lit (1 / 2)).eval Config.vectorsEnv = 0.5 ∧ RNum.pi.eval Config.vectorsEnv ≤ Real.pi ∧
      Real.pi < (RNum.prod (.lit 2) .pi).eval Config.vectorsEnv ∧
      RNum.pi.eval Config.vectorsEnv ≤ (RNum.lit (1 / 2)).eval Config.vectorsEnv * (2 * Real.pi) ∧
      (RNum.lit (1 / 4)).eval Config.vectorsEnv * (2 * Real.pi) < RNum.pi.eval Config.vectorsEnv := by
  have := Real.pi_pos
  refine ⟨by simp, by simp, by simp [RNum.eval], rfl, by simp [RNum.eval], by norm_num, le_refl _, ?_, ?_, ?_⟩
  · simp [RNum.eval]; linarith
  · simp [RNum.eval]
  · simp [RNum.eval]; linarith

theorem witness_ModulatorsOffAreNeutral :
    Config.vectorsEnv.Valid ∧ (snapped .sine).snap = some (paramsOf .sine) ∧
      (paramsOf .sine).fmFreq.eval Config.vectorsEnv ≤ 0 ∧ (paramsOf .sine).amFreq.eval Config.vectorsEnv ≤ 0 ∧
      (paramsOf .sine).dcmFreq.eval Config.vectorsEnv ≤ 0 ∧
      (paramsOf .sine).cutoffLfoFreq.eval Config.vectorsEnv ≤ 0 ∧
      (paramsOf .sine).resLfoFreq.eval Config.vectorsEnv ≤ 0 ∧
      ∃ t, exec .oscSample (snapped .sine) = .next t := by
  refine ⟨vectorsEnv_valid, rfl, ?_, ?_, ?_, ?_, ?_, _, rfl⟩ <;> simp [paramsOf]

theorem witness_ModulatorRanges : 0 < (RNum.lit 1).eval Config.vectorsEnv := by simp

theorem witness_FltResetEffect : State.reset.flt = FltState.zero ∧ Config.vectorsEnv.Valid :=
  ⟨rfl, vectorsEnv_valid⟩

theorem witness_FilterCoefficientsBounded : Config.vectorsEnv.Valid := vectorsEnv_valid

theorem witness_StepResponseMonotone :
    Config.vectorsEnv.Valid ∧ 0 ≤ (RNum.lit 0).eval Config.vectorsEnv ∧
      0 ≤ (RNum.lit 1).eval Config.vectorsEnv := ⟨vectorsEnv_valid, by simp, by simp⟩

/-- The analyzer `SPA_INIT` leaves has its power, window and magnitude arrays written. -/
theorem constructed_ok (c : Config) (a : Analyzer) : AnalyzerOk c (constructed c a) where
  power := fun _ => ⟨_, rfl⟩
  win := fun _ n hn => by
    unfold Written constructed
    rw [read_writeArray, dif_pos (by simpa [hannWindow] using hn)]
    exact ⟨_, rfl⟩
  raw := fun _ k hk => by
    unfold Written constructed
    rw [read_writeArray, dif_pos (by simpa using hk)]
    exact ⟨_, rfl⟩
  smooth := fun _ k hk => by
    unfold Written constructed
    rw [read_writeArray, dif_pos (by simpa using hk)]
    exact ⟨_, rfl⟩

theorem witness_SpaInitConstructs :
    0 < Config.current.fftSize ∧ Config.current.fftSize - 1 < Config.current.fftSize ∧
      Config.current.lastBin < Config.current.bins ∧ Config.current.bins ≤ Config.current.bins :=
  ⟨fftSize_pos _, Nat.sub_lt (fftSize_pos _) Nat.one_pos, Nat.lt_succ_self _, le_refl _⟩

theorem witness_SpaProcessComputesSpectrum :
    built.spa.ready = true ∧ AnalyzerOk Config.current built.spa := ⟨rfl, constructed_ok _ _⟩

theorem witness_BinConversions : Config.vectorsEnv.Valid := vectorsEnv_valid

theorem witness_SpaReadAnswersBin :
    built.spa.ready = true ∧ AnalyzerOk Config.current built.spa ∧
      0 ≤ Config.current.fftSize / 2 ∧ Config.current.fftSize / 2 < Config.current.fftSize / 2 + 1 :=
  ⟨rfl, constructed_ok _ _, Nat.zero_le _, Nat.lt_succ_self _⟩

theorem witness_SpectrumStaysNormalised :
    Config.vectorsEnv.Valid ∧ SpectrumOk Config.vectorsEnv (presented 0x40 []).spa ∧
      ∃ t, step (presented 0x40 []) = .next t :=
  ⟨vectorsEnv_valid, ⟨fun _ _ h => (nomatch h), fun _ _ h => (nomatch h)⟩, _, rfl⟩

theorem witness_OnlyLeftSamplesAreAnalysed :
    ∀ i, i < Config.current.fftSize →
      (([⟨.lit 1, .lit 99⟩] : List Frame).getD i Frame.silence).left =
        (([⟨.lit 1, .lit 7⟩, ⟨.lit 0, .pi⟩] : List Frame).getD i Frame.silence).left := by
  intro i _
  rcases i with _ | _ | i <;> rfl

theorem witness_SmoothingClosedForm :
    Config.vectorsEnv.Valid ∧ 0 ≤ (RNum.lit 1).eval Config.vectorsEnv ∧
      (RNum.lit 1).eval Config.vectorsEnv ≤ 1 ∧ 0 ≤ (RNum.lit 0).eval Config.vectorsEnv ∧
      (RNum.lit 0).eval Config.vectorsEnv ≤ 1 := ⟨vectorsEnv_valid, by simp, by simp, by simp, by simp⟩

/-- The vectors' configuration with the periodic window and `N = 4`. -/
def periodic : Config := { Config.vectors with hannDenom := .periodic, fftExp := 2 }

theorem witness_WindowPowerClosedForm :
    (Config.vectors.valid = true ∧ 4 ≤ Config.vectors.fftSize ∧ Config.vectors.hannDenom = .symmetric) ∧
      periodic.valid = true ∧ 4 ≤ periodic.fftSize ∧ periodic.hannDenom = .periodic := by decide

theorem witness_NoDivisionByZero :
    Config.vectors.valid = true ∧ Config.vectorsEnv.Valid ∧ 0 < (RNum.lit 1).eval Config.vectorsEnv :=
  ⟨by decide, vectorsEnv_valid, by simp⟩

/-- A constructed machine that stores one frame, with a `SPA_READ` at its port. -/
def running : State := (oneStored.withSpa built.spa).withPort [⟨.disp, 0x44, [.nat 0]⟩]

theorem running_ok : StateOk Config.current running where
  fifo := oneStored_fifoOk
  memory :=
    { store := ⟨rfl, rfl⟩
      pink := ⟨rfl, rfl⟩
      win := ⟨wf_writeArray _ _ rfl, within_writeArray _ _ _ (by simp [hannWindow]) rfl⟩
      scratch := ⟨rfl, rfl⟩
      xf := ⟨rfl, rfl⟩
      raw := ⟨wf_writeArray _ _ rfl, within_writeArray _ _ _ (by simp) rfl⟩
      smooth := ⟨wf_writeArray _ _ rfl, within_writeArray _ _ _ (by simp) rfl⟩ }
  pinkIdx := pinkTaps_pos
  analyzer := constructed_ok _ _

theorem witness_InvariantKept :
    StateOk Config.current (running.withPort []) ∧ ∃ t, step (running.withPort []) = .next t :=
  ⟨⟨running_ok.fifo, ⟨running_ok.memory.store, running_ok.memory.pink, running_ok.memory.win,
    running_ok.memory.scratch, running_ok.memory.xf, running_ok.memory.raw, running_ok.memory.smooth⟩,
    running_ok.pinkIdx, running_ok.analyzer⟩, _, rfl⟩

theorem witness_NoStepIsDisabled : StateOk Config.current running := running_ok

end Sys2Proof.Tests
end

namespace Sys2Proof.Proofs

/-! ### What an effect leaves unchanged, one lemma per part of the state (rules R21 to R29, R50) -/

section Frames

open Sys2Proof.Machine Sys2Proof.Machine.Laws Sys2Proof.Safety

variable {c : Config} {oc : Opcode} {s u : State}

theorem effect_par (h : Effect c s oc u) (hoc : opUnit oc.toByte ≠ 0) : u.par = s.par := by
  cases h with
  | par _ _ setter => exact absurd setter hoc
  | sample _ _ _ _ ok => rw [sampleStep_frame ok]
  | block _ _ _ _ ok => rw [sampleSteps_frame ok]; rfl
  | _ => rfl

theorem effect_snap (h : Effect c s oc u) (hoc : oc ∉ [Opcode.oscSnap, .oscBlock]) :
    u.snap = s.snap := by
  cases h with
  | snap => simp at hoc
  | sample _ _ _ _ ok => rw [sampleStep_frame ok]
  | block => simp at hoc
  | _ => rfl

theorem effect_osc (h : Effect c s oc u) (hoc : oc ∉ [Opcode.oscReset, .oscSample, .oscBlock]) :
    u.osc = s.osc ∧ u.pink = s.pink ∧ u.whiteDraws = s.whiteDraws := by
  cases h with
  | oscReset | sample | block => simp at hoc
  | _ => exact ⟨rfl, rfl, rfl⟩

theorem effect_flt (h : Effect c s oc u)
    (hoc : oc ∉ [Opcode.oscReset, .oscSample, .oscBlock, .fltReset, .fltStep]) : u.flt = s.flt := by
  cases h with
  | oscReset | sample | block | fltReset | fltStep => simp at hoc
  | _ => rfl

theorem effect_fifo (h : Effect c s oc u) (hoc : oc ∉ [Opcode.fifoClear, .fifoWrite, .fifoRead]) :
    u.fifo = s.fifo ∧ u.clockDraws = s.clockDraws := by
  cases h with
  | clear | write | read => simp at hoc
  | sample _ _ _ _ ok => rw [sampleStep_frame ok]; exact ⟨rfl, rfl⟩
  | block _ _ _ _ ok => rw [sampleSteps_frame ok]; exact ⟨rfl, rfl⟩
  | _ => exact ⟨rfl, rfl⟩

theorem effect_store (h : Effect c s oc u) (hoc : oc ∉ [Opcode.fifoClear, .fifoWrite]) :
    u.store = s.store := by
  cases h with
  | clear | write => simp at hoc
  | sample _ _ _ _ ok => rw [sampleStep_frame ok]
  | block _ _ _ _ ok => rw [sampleSteps_frame ok]; rfl
  | _ => rfl

theorem effect_spa (h : Effect c s oc u) (hoc : oc ∉ [Opcode.spaInit, .spaProcess]) :
    u.spa = s.spa := by
  cases h with
  | spaInit | spaProcess => simp at hoc
  | sample _ _ _ _ ok => rw [sampleStep_frame ok]
  | block _ _ _ _ ok => rw [sampleSteps_frame ok]; rfl
  | _ => rfl

end Frames

/-- Settles O17: a command answers a next state by an effect of its opcode and then drives the outputs,
and each effect leaves the parts of the state that the frame lemmas name. -/
theorem unitsKeepToTheirState : Obligations.UnitsKeepToTheirState := by
  intro i s t h
  obtain ⟨u, o, effect, agent, rfl⟩ := Machine.Laws.exec_reaches h
  exact ⟨(effect_par effect :), (effect_snap effect :), (effect_osc effect :), (effect_flt effect :),
    (effect_fifo effect :), (effect_store effect :), (effect_spa effect :),
    (Machine.Laws.effect_port effect).1, agent⟩

/-! ### The Hann window and its mean square (rules R181, R183) -/

section Window

open Finset Sys2Proof.Machine Sys2Proof.Machine.Laws

/-- The `D` values of `cos` at `k` turns in `D` steps are the real parts of the powers of a root of
unity other than 1, which sum to 0. -/
theorem sum_cos_turns_eq_zero {D k : ℕ} (hk : k ≠ 0) (hkD : k < D) :
    ∑ n ∈ range D, Real.cos (k * (2 * Real.pi * n / D)) = 0 := by
  have hD : D ≠ 0 := by omega
  have root := Complex.isPrimitiveRoot_exp D hD
  set ζ := Complex.exp (2 * Real.pi * Complex.I / D)
  have powers : ∑ n ∈ range D, (ζ ^ k) ^ n = 0 := by
    rw [geom_sum_eq (root.pow_ne_one_of_pos_of_lt hk hkD), ← pow_mul, mul_comm, pow_mul,
      root.pow_eq_one, one_pow, sub_self, zero_div]
  have re_power (n : ℕ) : ((ζ ^ k) ^ n).re = Real.cos (k * (2 * Real.pi * n / D)) := by
    rw [← pow_mul, ← Complex.exp_nat_mul, ← Complex.exp_ofReal_mul_I_re]
    congr 2
    push_cast
    ring
  simpa [re_power] using congrArg Complex.re powers

/-- The square of a Hann coefficient, as a sum of cosines of the angle and of twice the angle. -/
theorem hann_sq_eq (c : Config) (n : ℕ) :
    Ideal.hann c n ^ 2 = 3 / 8 - 1 / 2 * Real.cos ((1 : ℕ) * (2 * Real.pi * n / c.hannD)) +
      1 / 8 * Real.cos ((2 : ℕ) * (2 * Real.pi * n / c.hannD)) := by
  rw [Ideal.hann, Nat.cast_one, one_mul, Nat.cast_ofNat, Real.cos_two_mul]
  ring

/-- Over the `D` steps of one turn both cosines sum to 0. -/
theorem sum_hann_sq {c : Config} (hD : 3 ≤ c.hannD) :
    ∑ n ∈ range c.hannD, Ideal.hann c n ^ 2 = 3 / 8 * c.hannD := by
  simp only [hann_sq_eq, sum_add_distrib, sum_sub_distrib, ← mul_sum]
  rw [sum_cos_turns_eq_zero one_ne_zero (by omega), sum_cos_turns_eq_zero two_ne_zero (by omega)]
  simp [mul_comm]

/-- The coefficient a whole turn on is 0: the last one of the symmetric window. -/
theorem hann_hannD {c : Config} (hD : c.hannD ≠ 0) : Ideal.hann c c.hannD = 0 := by
  have hD' : (c.hannD : ℝ) ≠ 0 := Nat.cast_ne_zero.2 hD
  simp [Ideal.hann, hD']

/-- The coefficient of the first step is positive. -/
theorem hann_one_pos {c : Config} (hD : 2 ≤ c.hannD) : 0 < Ideal.hann c 1 := by
  have hD' : (2 : ℝ) ≤ c.hannD := by exact_mod_cast hD
  have cos_lt : Real.cos (2 * Real.pi * (1 : ℕ) / c.hannD) < Real.cos 0 := by
    refine Real.cos_lt_cos_of_nonneg_of_le_pi le_rfl ?_ (by positivity)
    rw [Nat.cast_one, mul_one, div_le_iff₀ (by positivity)]
    nlinarith [Real.pi_pos]
  rw [Real.cos_zero] at cos_lt
  unfold Ideal.hann
  linarith

theorem hannD_of_periodic {c : Config} (h : c.hannDenom = .periodic) : c.hannD = c.fftSize := by
  simp [Config.hannD, h]

theorem hannD_of_symmetric {c : Config} (h : c.hannDenom = .symmetric) :
    c.hannD = c.fftSize - 1 := by
  simp [Config.hannD, h]

theorem four_le_fftSize {c : Config} (h : 2 ≤ c.fftExp) : 4 ≤ c.fftSize :=
  Nat.pow_le_pow_right (n := 2) (by decide) h

/-- A configuration of the spec has at least two window coefficients. -/
theorem two_le_fftSize {c : Config} (hc : c.valid = true) : 2 ≤ c.fftSize := by
  obtain ⟨_, _, _, one_le_fftExp, _, _⟩ := (valid_iff c).1 hc
  exact Nat.pow_le_pow_right (n := 2) (by decide) one_le_fftExp

/-- No configuration of the spec divides by a `D` below 2 (rule R183 excludes the symmetric window at
`N = 2`). -/
theorem two_le_hannD {c : Config} (hc : c.valid = true) : 2 ≤ c.hannD := by
  obtain ⟨_, _, _, _, _, symmetric_size⟩ := (valid_iff c).1 hc
  cases hw : c.hannDenom with
  | periodic => exact hannD_of_periodic hw ▸ two_le_fftSize hc
  | symmetric =>
    have := four_le_fftSize (symmetric_size hw)
    rw [hannD_of_symmetric hw]
    omega

theorem eval_turn (a b : ℕ) (ρ : Env) : (turn a b).eval ρ = 2 * Real.pi * a / b := by
  simp [turn, mul_div_assoc]

/-- The machine's window coefficient is the rule's. -/
theorem eval_hann (c : Config) (ρ : Env) (n : ℕ) : (hann c n).eval ρ = Ideal.hann c n := by
  norm_num [hann, Ideal.hann, eval_turn]

/-- The machine's window power is the rule's. -/
theorem eval_meanSquare (c : Config) (ρ : Env) : (meanSquare c).eval ρ = Ideal.windowPower c := by
  rw [Ideal.windowPower, ← List.toFinset_range, List.sum_toFinset _ List.nodup_range]
  simp [meanSquare, hannWindow, Function.comp_def, eval_hann]

theorem windowPower_pos {c : Config} (hc : c.valid = true) : 0 < Ideal.windowPower c := by
  have size_pos : (0 : ℝ) < c.fftSize := Nat.cast_pos.2 (fftSize_pos c)
  refine div_pos (sum_pos' (fun n _ => sq_nonneg _) ⟨1, ?_, ?_⟩) size_pos
  · exact mem_range.2 (two_le_fftSize hc)
  · exact pow_pos (hann_one_pos (two_le_hannD hc)) 2

theorem windowPower_periodic {c : Config} (hN : 4 ≤ c.fftSize) (hw : c.hannDenom = .periodic) :
    Ideal.windowPower c = 3 / 8 := by
  have hD := hannD_of_periodic hw
  have size_ne : (c.fftSize : ℝ) ≠ 0 := Nat.cast_ne_zero.2 (fftSize_pos c).ne'
  have total : ∑ n ∈ range c.fftSize, Ideal.hann c n ^ 2 = 3 / 8 * c.fftSize :=
    hD ▸ sum_hann_sq (by omega)
  rw [Ideal.windowPower, total, mul_div_cancel_right₀ _ size_ne]

theorem windowPower_symmetric {c : Config} (hN : 4 ≤ c.fftSize) (hw : c.hannDenom = .symmetric) :
    Ideal.windowPower c = 3 / 8 * ((c.fftSize : ℝ) - 1) / c.fftSize := by
  have hD := hannD_of_symmetric hw
  have size_eq : c.fftSize = c.hannD + 1 := by omega
  have total : ∑ n ∈ range c.fftSize, Ideal.hann c n ^ 2 = 3 / 8 * c.hannD := by
    rw [size_eq, sum_range_succ, sum_hann_sq (by omega), hann_hannD (by omega)]
    ring
  rw [Ideal.windowPower, total, size_eq, Nat.cast_succ, add_sub_cancel_right]

end Window

/-- Settles O55: the power is positive since the coefficient of the first step is; its value is the sum
over one whole turn, to which the symmetric window adds a last coefficient 0. -/
theorem windowPowerClosedForm : Obligations.WindowPowerClosedForm := by
  intro c ρ hc
  have eighths : (0.375 : ℝ) = 3 / 8 := by norm_num
  rw [eval_meanSquare, eighths]
  exact ⟨windowPower_pos hc, windowPower_periodic, windowPower_symmetric⟩

/-! ### The divisors, roots and logarithms of the rules (rule R194) -/

section Divisors

open Sys2Proof.Machine Sys2Proof.Machine.Laws

variable {ρ : Env}

/-- A clamped cutoff is at least `CUTOFF_MIN_HZ`, whatever the operand (rule R162). -/
theorem twenty_le_clampCutoff (ρ : Env) (fc : RNum) : 20 ≤ (clampCutoff fc).eval ρ := by
  simp [clampCutoff, Const.cutoffMinHz]

theorem normFreq_nonneg (hsr : 0 < ρ.sr) {fc : RNum} (hfc : 0 ≤ fc.eval ρ) :
    0 ≤ (normFreq fc).eval ρ := by
  have ratio_nonneg : 0 ≤ fc.eval ρ / ρ.sr := div_nonneg hfc hsr.le
  have max_nonneg : (0 : ℝ) ≤ Const.fNormMax.eval ρ := by norm_num [Const.fNormMax]
  rw [normFreq, RNum.eval_min, RNum.eval_div]
  exact le_min ratio_nonneg max_nonneg

theorem poleK_nonneg {f : RNum} (hf : 0 ≤ f.eval ρ) : 0 ≤ (poleK f).eval ρ := by
  simp only [poleK, Const.kScaleFactor, RNum.eval_mul, RNum.eval_lit, RNum.eval_pi]
  positivity

/-- The radicand of rule R164 is non-negative. -/
theorem clampResonance_nonneg (ρ : Env) (r : RNum) : 0 ≤ (clampResonance r).eval ρ := by
  simp [clampResonance]

theorem feedbackGain_nonneg (ρ : Env) (r : RNum) : 0 ≤ (feedbackGain r).eval ρ := by
  simp only [feedbackGain, Const.fbScale, RNum.eval_mul, RNum.eval_lit, RNum.eval_sqrt]
  positivity

/-- The radicand of rule R185 is non-negative. -/
theorem sq_add_sq_nonneg (ρ : Env) (re im : RNum) : 0 ≤ (re.sq.add im.sq).eval ρ := by
  simp only [RNum.eval_add, RNum.eval_sq]
  positivity

/-- The logarithm's argument of rule R186 is at least `MAG_FLOOR`. -/
theorem magFloor_le_max (ρ : Env) (x : RNum) : 0.000001 ≤ (x.max Const.magFloor).eval ρ := by
  rw [RNum.eval_max]
  refine le_max_of_le_right (le_of_eq ?_)
  norm_num [Const.magFloor]

/-- The divisor of rule R185 is positive for a positive power. -/
theorem size_mul_sqrt_pos (c : Config) {power : ℝ} (h : 0 < power) :
    0 < (c.fftSize : ℝ) * Real.sqrt power :=
  mul_pos (Nat.cast_pos.2 (fftSize_pos c)) (Real.sqrt_pos.2 h)

end Divisors

open Machine Machine.Laws in
/-- Settles O56, divisor by divisor. -/
theorem noDivisionByZero : Obligations.NoDivisionByZero := by
  intro c ρ x fc r power re im hc hρ
  obtain ⟨_, _, _, _, pinkTaps_pos, _⟩ := (valid_iff c).1 hc
  have hannD_pos : 0 < c.hannD := Nat.zero_lt_two.trans_le (two_le_hannD hc)
  have twoPi_pos : 0 < RNum.twoPi.eval ρ := by simpa using Real.pi_pos
  have cutoff_nonneg : 0 ≤ (clampCutoff fc).eval ρ := by linarith [twenty_le_clampCutoff ρ fc]
  have k_nonneg := poleK_nonneg (normFreq_nonneg hρ.sr_pos cutoff_nonneg)
  have g_nonneg := feedbackGain_nonneg ρ (clampResonance r)
  have power_pos : 0 < (meanSquare c).eval ρ := eval_meanSquare c ρ ▸ windowPower_pos hc
  exact ⟨hρ.sr_pos, Real.pi_pos, twoPi_pos, pinkTaps_pos, fftSize_pos c, hannD_pos,
    by positivity, by positivity, by positivity, sub_pos.2 hρ.db_order,
    power_pos, size_mul_sqrt_pos c power_pos, size_mul_sqrt_pos c,
    sq_add_sq_nonneg ρ re im, clampResonance_nonneg ρ r, magFloor_le_max ρ x⟩

end Sys2Proof.Proofs

namespace Sys2Proof.Proofs

/-! ### The phase accumulators (rules R24, R26, R131) -/

section Phases

open Sys2Proof.Machine Sys2Proof.Machine.Laws Sys2Proof.Safety

variable {c : Config} {oc : Opcode} {s u : State} {ρ : Env}

theorem phaseOk_zero (ρ : Env) : PhaseOk ρ (.lit 0) := by
  simp [PhaseOk, Real.pi_pos]

/-- A modulator's phase is wrapped or held. -/
theorem phaseOk_advanceModulator {freq phase : RNum} (h : PhaseOk ρ phase) :
    PhaseOk ρ (advanceModulator freq phase) := by
  unfold PhaseOk at h ⊢
  rw [advanceModulator, RNum.eval_ifPos]
  split
  · exact RNum.wrap_range ρ _
  · exact h

@[simp] theorem ladderStep_cutoffLfoPhase (c : Config) (x fc r : RNum) (f : FltState) :
    (ladderStep c x fc r f).cutoffLfoPhase = f.cutoffLfoPhase := by
  unfold ladderStep cascade
  split <;> rfl

@[simp] theorem ladderStep_resLfoPhase (c : Config) (x fc r : RNum) (f : FltState) :
    (ladderStep c x fc r f).resLfoPhase = f.resLfoPhase := by
  unfold ladderStep cascade
  split <;> rfl

/-- The six accumulators stand in `O` and `F`. -/
theorem phasesOk_congr (h : PhasesOk ρ s) (osc : u.osc = s.osc) (flt : u.flt = s.flt) :
    PhasesOk ρ u :=
  ⟨osc ▸ h.phase, osc ▸ h.fmPhase, osc ▸ h.amPhase, osc ▸ h.dcmPhase, flt ▸ h.cutoffLfoPhase,
    flt ▸ h.resLfoPhase⟩

theorem phasesOk_zero (osc : s.osc = OscState.zero) (flt : s.flt = FltState.zero) :
    PhasesOk ρ s := by
  have zero := phaseOk_zero ρ
  exact ⟨osc ▸ zero, osc ▸ zero, osc ▸ zero, osc ▸ zero, flt ▸ zero, flt ▸ zero⟩

/-- The filter's step writes no phase. -/
theorem phasesOk_ladderStep (h : PhasesOk ρ s) (x fc r : RNum) :
    PhasesOk ρ (s.withFlt (ladderStep c x fc r s.flt)) where
  phase := h.phase
  fmPhase := h.fmPhase
  amPhase := h.amPhase
  dcmPhase := h.dcmPhase
  cutoffLfoPhase := by simpa using h.cutoffLfoPhase
  resLfoPhase := by simpa using h.resLfoPhase

/-- A sample step wraps the carrier's phase and advances the other five as modulators. -/
theorem sampleStep_phasesOk {p : Params} {frame : Frame} (h : sampleStep c p s = .ok (frame, u))
    (hs : PhasesOk ρ s) : PhasesOk ρ u := by
  obtain ⟨base, t, f, hb, rfl, -, -, rfl⟩ := sampleStep_ok h
  rw [baseWave_frame hb]
  exact
    { phase := RNum.wrap_range ρ _
      fmPhase := phaseOk_advanceModulator hs.fmPhase
      amPhase := phaseOk_advanceModulator hs.amPhase
      dcmPhase := phaseOk_advanceModulator hs.dcmPhase
      cutoffLfoPhase := by simpa [filterLfos] using phaseOk_advanceModulator hs.cutoffLfoPhase
      resLfoPhase := by simpa [filterLfos] using phaseOk_advanceModulator hs.resLfoPhase }

theorem effect_phasesOk (h : Effect c s oc u) (hs : PhasesOk ρ s) : PhasesOk ρ u := by
  cases h with
  | oscReset => exact phasesOk_zero rfl rfl
  | sample p frame u _ ok => exact sampleStep_phasesOk ok hs
  | block p frames u _ ok =>
    exact sampleSteps_keeps (PhasesOk ρ) (fun _ _ _ => sampleStep_phasesOk) _ ok
      (phasesOk_congr hs rfl rfl)
  | fltReset =>
    exact { hs with cutoffLfoPhase := phaseOk_zero ρ, resLfoPhase := phaseOk_zero ρ }
  | fltStep x fc r => exact phasesOk_ladderStep hs x fc r
  | _ => exact phasesOk_congr hs rfl rfl

end Phases

open Machine.Laws in
/-- Settles O37: `wrap` answers a phase in range, and every effect leaves each accumulator wrapped, held
or 0. -/
theorem phasesStayInRange : Obligations.PhasesStayInRange := fun ρ =>
  ⟨fun x => ⟨RNum.eval_wrap ρ x, RNum.wrap_range ρ x⟩, phasesOk_zero rfl rfl, fun _ _ hs h =>
    step_keeps (Safety.PhasesOk ρ) (fun _ _ hs => phasesOk_congr hs rfl rfl)
      (fun _ _ hs => phasesOk_congr hs rfl rfl) (fun _ _ _ => effect_phasesOk) h hs⟩

/-! ### The pink-noise history (rules R25, R38, R135) -/

section Pink

open Finset Sys2Proof.Machine Sys2Proof.Machine.Laws Sys2Proof.Safety

variable {c : Config} {oc : Opcode} {s u : State} {ρ : Env}

@[simp] theorem tap_nil (i : ℕ) : tap [] i = .lit 0 := rfl

/-- A tap read after a write to the history. -/
theorem tap_write (m : Memory RNum) (i j : ℕ) (w : RNum) :
    tap (Memory.write (some (.lit 0)) m i w) j = if j = i then w else tap m j := by
  unfold tap
  rw [read_write]
  by_cases h : j = i
  · simp [h]
  · simp [h, Ne.symm h]

/-- Replacing one term of a sum changes it by the difference of the terms. -/
theorem sum_range_replace (f : ℕ → ℝ) (w : ℝ) {k n : ℕ} (hk : k < n) :
    ∑ i ∈ range n, (if i = k then w else f i) = ∑ i ∈ range n, f i - f k + w := by
  have term (i : ℕ) : (if i = k then w else f i) = f i + if i = k then w - f k else 0 := by
    split
    · next h => rw [h]; ring
    · ring
  simp only [term, sum_add_distrib, sum_ite_eq', mem_range.2 hk, if_true]
  ring

/-- The pink registers stand in `O` and `PINK`. -/
theorem pinkOk_congr (h : PinkOk c ρ s) (idx : u.osc.pinkIdx = s.osc.pinkIdx)
    (sum : u.osc.pinkSum = s.osc.pinkSum) (pink : u.pink = s.pink) : PinkOk c ρ u :=
  ⟨idx ▸ h.idx, by rw [sum, pink]; exact h.sum, pink ▸ h.range⟩

theorem pinkOk_zero (hc : 0 < c.pinkTaps) (osc : s.osc = OscState.zero) (pink : s.pink = []) :
    PinkOk c ρ s where
  idx := by rwa [osc]
  sum := by simp [osc, pink, OscState.zero]
  range := by simp [pink]

/-- A pink step takes the oldest tap out of the sum and puts the new white sample in. -/
theorem pinkStep_pinkOk {base : RNum} (hρ : ρ.Valid) (h : pinkStep c s = .ok (base, u))
    (hs : PinkOk c ρ s) : PinkOk c ρ u := by
  obtain ⟨idx_lt, w, sum, rfl, rfl, -, rfl⟩ := pinkStep_ok h
  constructor
  case idx => exact Nat.mod_lt _ (by omega)
  case sum =>
    have replaced := sum_range_replace (fun i => (tap s.pink i).eval ρ) (ρ.white s.whiteDraws) idx_lt
    simpa [tap_write, apply_ite (RNum.eval ρ), hs.sum] using replaced.symm
  case range =>
    intro i hi
    simp only [countWhite_pink, withOsc_pink, withPink_pink, tap_write]
    split
    · exact hρ.white_range _
    · exact hs.range i hi

theorem sampleStep_pinkOk {p : Params} {frame : Frame} (hρ : ρ.Valid)
    (h : sampleStep c p s = .ok (frame, u)) (hs : PinkOk c ρ s) : PinkOk c ρ u := by
  obtain ⟨base, t, f, hb, -, -, -, rfl⟩ := sampleStep_ok h
  rcases baseWave_ok hb with ⟨-, rfl⟩ | ⟨-, hp⟩
  · exact pinkOk_congr hs rfl rfl rfl
  · exact pinkOk_congr (pinkStep_pinkOk hρ hp hs) rfl rfl rfl

theorem effect_pinkOk (hρ : ρ.Valid) (h : Effect c s oc u) (hs : PinkOk c ρ s) : PinkOk c ρ u := by
  cases h with
  | oscReset => exact pinkOk_zero (Nat.zero_lt_of_lt hs.idx) rfl rfl
  | sample p frame u _ ok => exact sampleStep_pinkOk hρ ok hs
  | block p frames u _ ok =>
    exact sampleSteps_keeps (PinkOk c ρ) (fun _ _ _ => sampleStep_pinkOk hρ) _ ok
      (pinkOk_congr hs rfl rfl rfl)
  | _ => exact pinkOk_congr hs rfl rfl rfl

end Pink

open Machine.Laws in
/-- Settles O38: only a pink step writes a tap, and it corrects the sum by the same difference. -/
theorem pinkSumIsTapTotal : Obligations.PinkSumIsTapTotal := fun ρ hρ =>
  ⟨pinkOk_zero pinkTaps_pos rfl rfl, fun _ _ hs h =>
    step_keeps (Safety.PinkOk Config.current ρ) (fun _ _ hs => pinkOk_congr hs rfl rfl rfl)
      (fun _ _ hs => pinkOk_congr hs rfl rfl rfl) (fun _ _ _ => effect_pinkOk hρ) h hs⟩

/-! ### What an effect does to the analyzer (rules R180 to R188) -/

section Analyzer

open Sys2Proof.Machine Sys2Proof.Machine.Laws Sys2Proof.Safety

variable {α β γ : Type} {c : Config} {oc : Opcode} {s u : State} {a b : Analyzer} {ρ : Env}

/-- The analyzer is kept, constructed, or takes one process step. -/
theorem effect_spa_cases (h : Effect c s oc u) :
    u.spa = s.spa ∨ u.spa = constructed c s.spa ∨
      ∃ frames, processFrames c frames s.spa = .ok u.spa := by
  cases h with
  | sample p frame u _ ok => rw [sampleStep_frame ok]; exact .inl rfl
  | block p frames u _ ok => rw [sampleSteps_frame ok]; exact .inl rfl
  | spaInit => exact .inr (.inl rfl)
  | spaProcess frames a _ ok => exact .inr (.inr ⟨frames, ok⟩)
  | _ => exact .inl rfl

/-- What holds of every written element and of every value written holds of every written element
afterwards. -/
theorem forall_read_writeArray [DecidableEq α] {P : α → Prop} {m : Memory α} {vs : List α}
    (old : ∀ k v, Memory.read none m k = some v → P v) (new : ∀ v ∈ vs, P v) :
    ∀ k v, Memory.read none (Memory.writeArray m vs) k = some v → P v := by
  intro k v h
  rw [read_writeArray] at h
  split at h
  · cases h
    exact new _ (List.getElem_mem _)
  · exact old k v h

/-- What holds of every written element holds of what reading an array answers. -/
theorem forall_fetchAll {P : α → Prop} {space : Space} {m : Memory α} {n : ℕ} {vs : List α}
    (h : Memory.fetchAll space m n = .ok vs) (hm : ∀ k v, Memory.read none m k = some v → P v) :
    ∀ v ∈ vs, P v := by
  obtain ⟨-, reads⟩ := (fetchAll_eq_ok space m n vs).1 h
  rw [List.forall_mem_iff_forall_getElem]
  exact fun i hi => hm i _ (reads i hi)

theorem forall_mem_zipWith {f : α → β → γ} {P : α → Prop} {Q : β → Prop} {R : γ → Prop}
    (hf : ∀ x y, P x → Q y → R (f x y)) {xs : List α} {ys : List β} (hx : ∀ x ∈ xs, P x)
    (hy : ∀ y ∈ ys, Q y) : ∀ z ∈ List.zipWith f xs ys, R z := by
  rw [List.forall_mem_iff_forall_getElem]
  intro i hi
  rw [List.getElem_zipWith]
  exact hf _ _ (hx _ (List.getElem_mem _)) (hy _ (List.getElem_mem _))

/-! ### Every magnitude lies in `[0, 1]` (rules R30, R186, R187) -/

/-- The range of a normalised magnitude (rule R50). -/
def UnitRange (ρ : Env) (x : RNum) : Prop := 0 ≤ x.eval ρ ∧ x.eval ρ ≤ 1

theorem unitRange_zero (ρ : Env) : UnitRange ρ (.lit 0) := by simp [UnitRange]

/-- A value clamped to `[MIN_DB, MAX_DB]` is mapped into `[0, 1]`. -/
theorem unitRange_normalise (hρ : ρ.Valid) (db : RNum) : UnitRange ρ (normalise db) := by
  have span_pos : 0 < ρ.maxDb - ρ.minDb := sub_pos.2 hρ.db_order
  obtain ⟨low, high⟩ := RNum.clamp_range ρ db .minDb .maxDb hρ.db_order.le
  simp only [UnitRange, normalise, RNum.eval_div, RNum.eval_sub, RNum.eval_minDb, RNum.eval_maxDb]
    at low high ⊢
  exact ⟨div_nonneg (sub_nonneg.2 low) span_pos.le, (div_le_one span_pos).2 (by linarith)⟩

/-- A smoothing step answers a convex combination of its operands. -/
theorem unitRange_smoothStep (hρ : ρ.Valid) {old norm : RNum} (ho : UnitRange ρ old)
    (hn : UnitRange ρ norm) : UnitRange ρ (smoothStep old norm) := by
  obtain ⟨old_nonneg, old_le⟩ := ho
  obtain ⟨norm_nonneg, norm_le⟩ := hn
  have alpha_nonneg := hρ.alpha_nonneg
  have rest_nonneg : 0 ≤ 1 - ρ.alpha := sub_nonneg.2 hρ.alpha_lt_one.le
  have value : (smoothStep old norm).eval ρ = old.eval ρ * ρ.alpha + norm.eval ρ * (1 - ρ.alpha) := by
    simp [smoothStep]
  rw [UnitRange, value]
  constructor
  · positivity
  · nlinarith

theorem spectrumOk_constructed (h : SpectrumOk ρ a) : SpectrumOk ρ (constructed c a) := by
  have zeros : ∀ v ∈ List.replicate c.bins (RNum.lit 0), UnitRange ρ v := fun v hv =>
    List.eq_of_mem_replicate hv ▸ unitRange_zero ρ
  exact ⟨forall_read_writeArray h.raw zeros, forall_read_writeArray h.smooth zeros⟩

theorem spectrumOk_processFrames (hρ : ρ.Valid) {frames : List Frame}
    (h : processFrames c frames a = .ok b) (ha : SpectrumOk ρ a) : SpectrumOk ρ b := by
  obtain ⟨power, win, old, scratch, xf, raw, -, -, fetched, -, -, raw_eq, rfl⟩ := processFrames_ok h
  have raw_range : ∀ v ∈ raw, UnitRange ρ v := by
    rw [raw_eq, List.forall_mem_map]
    exact fun z _ => unitRange_normalise hρ _
  have smooth_range : ∀ v ∈ List.zipWith smoothStep old raw, UnitRange ρ v :=
    forall_mem_zipWith (fun _ _ => unitRange_smoothStep hρ) (forall_fetchAll fetched ha.smooth) raw_range
  exact ⟨forall_read_writeArray ha.raw raw_range, forall_read_writeArray ha.smooth smooth_range⟩

theorem effect_spectrumOk (hρ : ρ.Valid) (h : Effect c s oc u) (hs : SpectrumOk ρ s.spa) :
    SpectrumOk ρ u.spa := by
  rcases effect_spa_cases h with same | built | ⟨frames, processed⟩
  · rwa [same]
  · exact built ▸ spectrumOk_constructed hs
  · exact spectrumOk_processFrames hρ processed hs

theorem spectrumOk_reset (ρ : Env) : SpectrumOk ρ State.reset.spa :=
  ⟨fun _ _ h => (nomatch h), fun _ _ h => (nomatch h)⟩

end Analyzer

open Machine.Laws in
/-- Settles O52: a process step writes clamped values and convex combinations of values in range, and
`SPA_INIT` writes 0. -/
theorem spectrumStaysNormalised : Obligations.SpectrumStaysNormalised := fun ρ hρ =>
  ⟨spectrumOk_reset ρ, fun _ _ hs h =>
    step_keeps (fun s => Safety.SpectrumOk ρ s.spa) (fun _ _ => id) (fun _ _ => id)
      (fun _ _ _ => effect_spectrumOk hρ) h hs⟩

/-! ### What an effect does to the FIFO (rules R110 to R118) -/

section Fifo

open Sys2Proof.Machine Sys2Proof.Machine.Laws Sys2Proof.Safety

variable {c : Config} {oc : Opcode} {s u : State}

/-- The FIFO is kept, cleared, written or read. -/
inductive FifoEffect (c : Config) (s u : State) : Prop where
  | same (fifo : u.fifo = s.fifo) (store : u.store = s.store) (clock : u.clockDraws = s.clockDraws)
  | clear (fifo : u.fifo = ⟨0, 0, 0, 0, .unspecified s.clockDraws⟩) (store : u.store = [])
      (clock : u.clockDraws = s.clockDraws + 1)
  | write (data : List Frame)
      (fifo : u.fifo =
        { s.fifo with
          wr := (s.fifo.wr + acceptedFrames c s.fifo data.length) % c.capacity
          count := s.fifo.count + acceptedFrames c s.fifo data.length })
      (store : u.store =
        Memory.writeAll (some Frame.silence) s.store
          (slotWrites c s.fifo.wr (data.take (acceptedFrames c s.fifo data.length))))
      (clock : u.clockDraws = s.clockDraws)
  | read (n : ℕ)
      (fifo : u.fifo =
        { rd := readCursor c s.fifo n
          wr := s.fifo.wr
          count := s.fifo.count - takenFrames c s.fifo n
          tickCount := s.fifo.tickCount + 1
          tickTime := .reading s.clockDraws })
      (store : u.store = s.store) (clock : u.clockDraws = s.clockDraws + 1)

theorem effect_fifo_cases (h : Effect c s oc u) : FifoEffect c s u := by
  cases h with
  | clear => exact .clear rfl rfl rfl
  | write data a accepted => subst accepted; exact .write data rfl rfl rfl
  | read n => exact .read n rfl rfl rfl
  | sample p frame u _ ok => rw [sampleStep_frame ok]; exact .same rfl rfl rfl
  | block p frames u _ ok => rw [sampleSteps_frame ok]; exact .same rfl rfl rfl
  | _ => exact .same rfl rfl rfl

/-- A read takes no more than is stored, and its cursor moves past what it takes (rule R113). -/
theorem takenFrames_le (c : Config) (q : FifoState) (n : ℕ) : takenFrames c q n ≤ q.count := by
  unfold takenFrames
  split <;> omega

theorem readCursor_eq {q : FifoState} (hq : q.rd < c.capacity) (n : ℕ) :
    readCursor c q n = (q.rd + takenFrames c q n) % c.capacity := by
  unfold readCursor takenFrames
  split
  · exact (Nat.mod_eq_of_lt hq).symm
  · rfl

theorem effect_fifoOk (h : Effect c s oc u) (hs : FifoOk c s.fifo) : FifoOk c u.fifo := by
  obtain ⟨count_le, wr_lt, rd_lt, cursors⟩ := hs
  have capacity_pos : 0 < c.capacity := Nat.zero_lt_of_lt wr_lt
  cases effect_fifo_cases h with
  | same fifo => rw [fifo]; exact ⟨count_le, wr_lt, rd_lt, cursors⟩
  | clear fifo => rw [fifo]; exact ⟨capacity_pos.le, capacity_pos, capacity_pos, Nat.zero_mod _⟩
  | write data fifo =>
    rw [fifo]
    have accepted_le : acceptedFrames c s.fifo data.length ≤ c.capacity - s.fifo.count :=
      Nat.min_le_right _ _
    refine ⟨by dsimp only; omega, Nat.mod_lt _ capacity_pos, rd_lt, ?_⟩
    rw [← cursors, Nat.mod_add_mod, Nat.add_assoc]
  | read n fifo =>
    rw [fifo, readCursor_eq rd_lt]
    have taken_le := takenFrames_le c s.fifo n
    refine ⟨(Nat.sub_le _ _).trans count_le, wr_lt, Nat.mod_lt _ capacity_pos, ?_⟩
    rw [Nat.mod_add_mod, Nat.add_assoc, Nat.add_sub_cancel' taken_le, cursors]

/-- A transfer touches slots of the store alone (rule R117). -/
theorem slotWrites_lt (hc : 0 < c.capacity) (cursor : ℕ) (frames : List Frame) :
    ∀ w ∈ slotWrites c cursor frames, w.1 < c.capacity := by
  unfold slotWrites
  rw [List.forall_mem_map]
  exact fun _ _ => Nat.mod_lt _ hc

end Fifo

/-! ### Every memory space stays in its canonical form (rule R50) -/

section MemorySpaces

open Sys2Proof.Machine Sys2Proof.Machine.Laws Sys2Proof.Safety

variable {α : Type} [DecidableEq α] {c : Config} {oc : Opcode} {s u : State} {a b : Analyzer}

/-- A space of `size` elements in its canonical form, listing only elements it has. -/
def SpaceOk (dflt : Option α) (size : ℕ) (m : Memory α) : Prop :=
  Memory.wf dflt m = true ∧ Memory.within size m = true

theorem spaceOk_nil (dflt : Option α) (size : ℕ) : SpaceOk dflt size ([] : Memory α) := ⟨rfl, rfl⟩

theorem spaceOk_write {dflt : Option α} {size : ℕ} {m : Memory α} (h : SpaceOk dflt size m) {i : ℕ}
    (hi : i < size) (v : α) : SpaceOk dflt size (Memory.write dflt m i v) :=
  ⟨wf_write dflt m i v h.1, within_write dflt size m i v hi h.2⟩

theorem spaceOk_writeAll {dflt : Option α} {size : ℕ} {m : Memory α} (h : SpaceOk dflt size m)
    {ws : List (ℕ × α)} (hw : ∀ w ∈ ws, w.1 < size) : SpaceOk dflt size (Memory.writeAll dflt m ws) :=
  ⟨wf_writeAll dflt ws m h.1, within_writeAll dflt size ws m hw h.2⟩

theorem spaceOk_writeArray {size : ℕ} {m : Memory α} (h : SpaceOk none size m) {vs : List α}
    (hl : vs.length ≤ size) : SpaceOk none size (Memory.writeArray m vs) :=
  ⟨wf_writeArray m vs h.1, within_writeArray size m vs hl h.2⟩

theorem effect_storeOk (hc : 0 < c.capacity) (h : Effect c s oc u)
    (hs : SpaceOk (some Frame.silence) c.capacity s.store) :
    SpaceOk (some Frame.silence) c.capacity u.store := by
  cases effect_fifo_cases h with
  | same _ store => rwa [store]
  | clear _ store => rw [store]; exact spaceOk_nil _ _
  | write data _ store => rw [store]; exact spaceOk_writeAll hs (slotWrites_lt hc _ _)
  | read n _ store => rwa [store]

/-- `PINK` is a good space and `O.pink_idx` names one of its taps (rules R25, R50). -/
structure HistoryOk (c : Config) (s : State) : Prop where
  idx : s.osc.pinkIdx < c.pinkTaps
  taps : SpaceOk (some (.lit 0)) c.pinkTaps s.pink

theorem sampleStep_historyOk {p : Params} {frame : Frame} (h : sampleStep c p s = .ok (frame, u))
    (hs : HistoryOk c s) : HistoryOk c u := by
  refine ⟨sampleStep_pinkIdx h hs.idx, ?_⟩
  obtain ⟨base, t, f, hb, -, -, -, rfl⟩ := sampleStep_ok h
  rcases baseWave_ok hb with ⟨-, rfl⟩ | ⟨-, hp⟩
  · exact hs.taps
  · obtain ⟨idx_lt, _, _, -, -, -, rfl⟩ := pinkStep_ok hp
    exact spaceOk_write hs.taps idx_lt _

theorem effect_historyOk (h : Effect c s oc u) (hs : HistoryOk c s) : HistoryOk c u := by
  cases h with
  | oscReset => exact ⟨Nat.zero_lt_of_lt hs.idx, spaceOk_nil _ _⟩
  | sample p frame u _ ok => exact sampleStep_historyOk ok hs
  | block p frames u _ ok =>
    exact sampleSteps_keeps (HistoryOk c) (fun _ _ _ => sampleStep_historyOk) _ ok ⟨hs.idx, hs.taps⟩
  | _ => exact ⟨hs.idx, hs.taps⟩

/-- The five arrays of the analyzer are good spaces. -/
structure ArraysOk (c : Config) (a : Analyzer) : Prop where
  win : SpaceOk none c.fftSize a.win
  scratch : SpaceOk none c.fftSize a.scratch
  xf : SpaceOk none c.bins a.xf
  raw : SpaceOk none c.bins a.raw
  smooth : SpaceOk none c.bins a.smooth

theorem arraysOk_constructed (h : ArraysOk c a) : ArraysOk c (constructed c a) where
  win := spaceOk_writeArray h.win (hannWindow_length c).le
  scratch := h.scratch
  xf := h.xf
  raw := spaceOk_writeArray h.raw List.length_replicate.le
  smooth := spaceOk_writeArray h.smooth List.length_replicate.le

theorem arraysOk_processFrames {frames : List Frame} (h : processFrames c frames a = .ok b)
    (ha : ArraysOk c a) : ArraysOk c b := by
  obtain ⟨power, win, old, _, _, _, -, -, -, rfl, rfl, rfl, rfl⟩ := processFrames_ok h
  exact
    { win := ha.win
      scratch := spaceOk_writeArray ha.scratch (by simp [windowed, inputCopy_length])
      xf := spaceOk_writeArray ha.xf (transform_length c _).le
      raw := spaceOk_writeArray ha.raw (by simp [transform_length])
      smooth := spaceOk_writeArray ha.smooth (by simp [transform_length]) }

theorem effect_arraysOk (h : Effect c s oc u) (hs : ArraysOk c s.spa) : ArraysOk c u.spa := by
  rcases effect_spa_cases h with same | built | ⟨frames, processed⟩
  · rwa [same]
  · exact built ▸ arraysOk_constructed hs
  · exact arraysOk_processFrames processed hs

/-! ### A constructed analyzer keeps its arrays written (rules R29, R30, R181) -/

theorem written_writeArray (m : Memory α) {vs : List α} {i : ℕ} (h : i < vs.length ∨ Written m i) :
    Written (Memory.writeArray m vs) i := by
  unfold Written
  rw [read_writeArray]
  split
  · exact ⟨_, rfl⟩
  · next past => exact h.resolve_left past

theorem analyzerOk_constructed (c : Config) (a : Analyzer) : AnalyzerOk c (constructed c a) where
  power := fun _ => ⟨_, rfl⟩
  win := fun _ n hn => written_writeArray _ (.inl (by rwa [hannWindow_length]))
  raw := fun _ k hk => written_writeArray _ (.inl (by rwa [List.length_replicate]))
  smooth := fun _ k hk => written_writeArray _ (.inl (by rwa [List.length_replicate]))

theorem analyzerOk_processFrames {frames : List Frame} (h : processFrames c frames a = .ok b)
    (ha : AnalyzerOk c a) : AnalyzerOk c b := by
  obtain ⟨power, win, old, scratch, xf, raw, -, -, -, -, -, -, rfl⟩ := processFrames_ok h
  exact
    { power := ha.power
      win := ha.win
      raw := fun ready k hk => written_writeArray _ (.inr (ha.raw ready k hk))
      smooth := fun ready k hk => written_writeArray _ (.inr (ha.smooth ready k hk)) }

theorem effect_analyzerOk (h : Effect c s oc u) (hs : AnalyzerOk c s.spa) : AnalyzerOk c u.spa := by
  rcases effect_spa_cases h with same | built | ⟨frames, processed⟩
  · rwa [same]
  · exact built ▸ analyzerOk_constructed c s.spa
  · exact analyzerOk_processFrames processed hs

/-! ### The machine's invariant, unit by unit -/

theorem stateOk_iff : StateOk c s ↔
    FifoOk c s.fifo ∧ SpaceOk (some Frame.silence) c.capacity s.store ∧ HistoryOk c s ∧
      ArraysOk c s.spa ∧ AnalyzerOk c s.spa := by
  constructor
  · rintro ⟨fifo, ⟨store, pink, win, scratch, xf, raw, smooth⟩, idx, analyzer⟩
    exact ⟨fifo, store, ⟨idx, pink⟩, ⟨win, scratch, xf, raw, smooth⟩, analyzer⟩
  · rintro ⟨fifo, store, ⟨idx, pink⟩, ⟨win, scratch, xf, raw, smooth⟩, analyzer⟩
    exact ⟨fifo, ⟨store, pink, win, scratch, xf, raw, smooth⟩, idx, analyzer⟩

theorem effect_stateOk (h : Effect c s oc u) (hs : StateOk c s) : StateOk c u := by
  rw [stateOk_iff] at hs ⊢
  obtain ⟨fifo, store, history, arrays, analyzer⟩ := hs
  exact ⟨effect_fifoOk h fifo, effect_storeOk (Nat.zero_lt_of_lt fifo.wr_lt) h store,
    effect_historyOk h history, effect_arraysOk h arrays, effect_analyzerOk h analyzer⟩

/-- The invariant looks at neither the port nor the outputs. -/
theorem stateOk_withPort (rs : List Request) (h : StateOk c s) : StateOk c (s.withPort rs) := by
  obtain ⟨fifo, store, ⟨idx, taps⟩, arrays, analyzer⟩ := stateOk_iff.1 h
  exact stateOk_iff.2 ⟨fifo, store, ⟨idx, taps⟩, arrays, analyzer⟩

theorem stateOk_withOut (o : Output) (h : StateOk c s) : StateOk c (s.withOut o) := by
  obtain ⟨fifo, store, ⟨idx, taps⟩, arrays, analyzer⟩ := stateOk_iff.1 h
  exact stateOk_iff.2 ⟨fifo, store, ⟨idx, taps⟩, arrays, analyzer⟩

theorem stateOk_reset : StateOk Config.current State.reset :=
  stateOk_iff.2
    ⟨⟨Nat.zero_le _, capacity_pos, capacity_pos, Nat.zero_mod _⟩, spaceOk_nil _ _,
      ⟨pinkTaps_pos, spaceOk_nil _ _⟩,
      ⟨spaceOk_nil _ _, spaceOk_nil _ _, spaceOk_nil _ _, spaceOk_nil _ _, spaceOk_nil _ _⟩,
      ⟨nofun, nofun, nofun, nofun⟩⟩

end MemorySpaces

open Machine.Laws in
/-- Settles O58: every effect keeps each unit's part of the invariant. -/
theorem invariantKept : Obligations.InvariantKept := fun _ _ hs h =>
  step_keeps (Safety.StateOk Config.current) (fun _ rs => stateOk_withPort rs)
    (fun _ o => stateOk_withOut o) (fun _ _ _ => effect_stateOk) h hs

/-! ### The unwritten registers of `P` (rules R23, R143, R201) -/

section Unwritten

open Sys2Proof.Machine Sys2Proof.Machine.Laws Sys2Proof.Safety

variable {α β : Type} {s : State}

/-- Of registers numbered from `first` on, of which `bs` says whether they are written, `x` answers the
number of the first unwritten one, where there is one. -/
def AnswersFirstUnwritten (first : ℕ) (bs : List Bool) (x : Except ℕ α) : Prop :=
  ∀ n, (∀ m, m < n → bs.getD m false = true) → bs[n]? = some false → x = .error (first + n)

theorem answersFirstUnwritten_nil (first : ℕ) (x : Except ℕ α) : AnswersFirstUnwritten first [] x :=
  fun _ _ h => nomatch h

/-- A needed register is the first unwritten one, or the search goes on behind it. -/
theorem answersFirstUnwritten_need {first : ℕ} {bs : List Bool} {r : Option α} {k : α → Except ℕ β}
    (hk : ∀ v, AnswersFirstUnwritten (first + 1) bs (k v)) :
    AnswersFirstUnwritten first (r.isSome :: bs) (need first r >>= k) := by
  intro n before at_n
  cases r with
  | none =>
    cases n with
    | zero => rfl
    | succ n => exact absurd (before 0 n.succ_pos) Bool.false_ne_true
  | some v =>
    cases n with
    | zero => cases at_n
    | succ n =>
      rw [Nat.add_comm n, ← Nat.add_assoc]
      exact hk v n (fun m hm => before (m + 1) (Nat.succ_lt_succ hm)) at_n

/-- `P`'s registers are looked at in the order of their numbers. -/
theorem complete_answersFirstUnwritten (p : PendingParams) :
    AnswersFirstUnwritten 0 p.isWritten p.complete := by
  unfold PendingParams.complete PendingParams.isWritten
  repeat refine answersFirstUnwritten_need fun _ => ?_
  exact answersFirstUnwritten_nil _ _

theorem complete_eq_error {p : PendingParams} {n : ℕ}
    (before : ∀ m, m < n → p.isWritten.getD m false = true) (at_n : p.isWritten[n]? = some false) :
    p.complete = .error n := by
  rw [complete_answersFirstUnwritten p n before at_n, Nat.zero_add]

theorem needParams_of_error {n : ℕ} (h : s.par.complete = .error n) (k : Params → Result) :
    needParams s k = .next { s with out := reported s .unwrittenParam (some n) } := by
  change needParams s k = takeFault (unwrittenParam n) s
  rw [needParams, h]

theorem needParams_of_written {p : Params} (h : s.par = p.written) (k : Params → Result) :
    needParams s k = k p := by
  rw [needParams, complete_eq_ok.2 h]

theorem needSnap_of_none (h : s.snap = none) (k : Params → Result) :
    needSnap s k = .next { s with out := reported s .unwrittenParam (some 16) } := by
  change needSnap s k = takeFault (unwrittenParam 16) s
  rw [needSnap, h]

theorem needSnap_of_some {p : Params} (h : s.snap = some p) (k : Params → Result) :
    needSnap s k = k p := by
  rw [needSnap, h]

end Unwritten

/-- Settles O13: the search for the values of `P` stops at the first unwritten register. -/
theorem unwrittenParameterFaults : Obligations.UnwrittenParameterFaults := by
  refine ⟨fun s n before at_n => ?_, fun s h => needSnap_of_none h _⟩
  have missing := complete_eq_error before at_n
  exact ⟨needParams_of_error missing _, needParams_of_error missing _⟩

/-! ### The events of a command (rules R33, R207) -/

section Events

open Sys2Proof.Machine Sys2Proof.Machine.Laws Sys2Proof.Safety

variable {ev : Events} {s t u : State}

/-- The events a command that reports no fault raises; `starved` says whether `Q.count` was below
`MIN_FILL`. -/
def eventsOf (starved : Bool) : Opcode → Events
  | .setWaveform | .setFreq | .setAmp | .setDuty | .setFm | .setAm | .setDcm | .setFilter
  | .setCutoffLfo | .setResLfo => parChange
  | .fifoRead => tickEvents starved
  | _ => Events.none

theorem eventsOf_parChange (starved : Bool) (oc : Opcode) :
    (eventsOf starved oc).parChange = decide (opUnit oc.toByte = 0) := by
  cases oc <;> rfl

theorem eventsOf_tick (starved : Bool) (oc : Opcode) :
    (eventsOf starved oc).tick = decide (oc = .fifoRead) := by
  cases oc <;> rfl

theorem eventsOf_underrun (starved : Bool) (oc : Opcode) :
    (eventsOf starved oc).underrun = (decide (oc = .fifoRead) && starved) := by
  cases oc <;> rfl

/-- The outputs are results with the events `ev`. -/
def Answers (ev : Events) (t : State) : Prop :=
  (∃ rs, t.out.reply = .results rs) ∧ t.out.events = ev

/-- The outputs are results with the events `ev`, or a fault report with no event. -/
def AnswersOrFaults (ev : Events) (t : State) : Prop :=
  Answers ev t ∨ (∃ report, t.out.reply = .fault report) ∧ t.out.events = Events.none

theorem answers_of_complete {rs : List Operand} (h : complete rs ev u = .next t) : Answers ev t := by
  cases h
  exact ⟨⟨rs, rfl⟩, rfl⟩

theorem answersOrFaults_of_complete {rs : List Operand} (h : complete rs ev u = .next t) :
    AnswersOrFaults ev t := .inl (answers_of_complete h)

theorem answersOrFaults_of_fault {report : FaultReport}
    (h : t = s.withOut ⟨s.out.agent, .fault report, Events.none⟩) : AnswersOrFaults ev t := by
  subst h
  exact .inr ⟨⟨report, rfl⟩, rfl⟩

theorem withNumAt_answers {position : ℕ} {w : NumWord} {k : RNum → Result}
    (h : withNumAt position w s k = .next t) (hk : ∀ x, k x = .next t → AnswersOrFaults ev t) :
    AnswersOrFaults ev t := by
  rcases withNumAt_next h with ⟨x, -, hx⟩ | ⟨-, ht⟩
  · exact hk x hx
  · exact answersOrFaults_of_fault ht

theorem withNum2_answers {a b : NumWord} {k : RNum → RNum → Result} (h : withNum2 a b s k = .next t)
    (hk : ∀ x y, k x y = .next t → AnswersOrFaults ev t) : AnswersOrFaults ev t :=
  withNumAt_answers h fun x hx => withNumAt_answers hx (hk x)

theorem withFrames_answers {n : ℕ} {ws : List NumWord} {k : List Frame → Result}
    (h : withFrames n ws s k = .next t) (hk : ∀ fs, k fs = .next t → AnswersOrFaults ev t) :
    AnswersOrFaults ev t := by
  rcases withFrames_next h with ⟨fs, -, hf⟩ | ⟨-, ht⟩
  · exact hk fs hf
  · exact answersOrFaults_of_fault ht

theorem needParams_answers {k : Params → Result} (h : needParams s k = .next t)
    (hk : ∀ p, k p = .next t → AnswersOrFaults ev t) : AnswersOrFaults ev t := by
  rcases needParams_next h with ⟨p, -, hp⟩ | ⟨_, -, ht⟩
  · exact hk p hp
  · exact answersOrFaults_of_fault ht

theorem needSnap_answers {k : Params → Result} (h : needSnap s k = .next t)
    (hk : ∀ p, k p = .next t → AnswersOrFaults ev t) : AnswersOrFaults ev t := by
  rcases needSnap_next h with ⟨p, -, hp⟩ | ⟨-, ht⟩
  · exact hk p hp
  · exact answersOrFaults_of_fault ht

theorem needReady_answers {k : Result} (h : needReady s k = .next t)
    (hk : k = .next t → AnswersOrFaults ev t) : AnswersOrFaults ev t := by
  rcases needReady_next h with ⟨-, hr⟩ | ⟨-, ht⟩
  · exact hk hr
  · exact answersOrFaults_of_fault ht

/-- Every command that answers a next state answers results with its events, or a fault report. -/
theorem exec_answers {i : Instr} (h : exec i s = .next t) :
    AnswersOrFaults (eventsOf (fifoStarved Config.current s.fifo) i.opcode) t := by
  cases i with
  | setWaveform k =>
    rcases withKind_next (show execSetWaveform k s = _ from h) with ⟨x, -, hx⟩ | ⟨-, ht⟩
    · exact answersOrFaults_of_complete hx
    · exact answersOrFaults_of_fault ht
  | setFreq | setAmp | setDuty | spaF2b | spaB2f =>
    exact withNumAt_answers h fun _ => answersOrFaults_of_complete
  | setFm | setAm | setDcm | setFilter | setCutoffLfo | setResLfo =>
    exact withNum2_answers h fun _ _ => answersOrFaults_of_complete
  | fifoClear | fifoRead | fifoLevel | oscReset | fltReset | spaInit =>
    exact answersOrFaults_of_complete h
  | fifoWrite => exact withFrames_answers h fun _ => answersOrFaults_of_complete
  | oscSnap => exact needParams_answers h fun _ => answersOrFaults_of_complete
  | oscSample =>
    refine needSnap_answers h fun p hp => ?_
    split at hp
    · cases hp
    · exact answersOrFaults_of_complete hp
  | oscBlock =>
    refine needParams_answers h fun p hp => ?_
    split at hp
    · cases hp
    · exact answersOrFaults_of_complete hp
  | fltStep =>
    exact withNumAt_answers h fun _ hx => withNumAt_answers hx fun _ hy =>
      withNumAt_answers hy fun _ => answersOrFaults_of_complete
  | spaProcess =>
    refine needReady_answers h fun hr => withFrames_answers hr fun fs hf => ?_
    unfold spaProcess at hf
    split at hf
    · cases hf
    · exact answersOrFaults_of_complete hf
  | spaRead k =>
    refine needReady_answers h fun hr => ?_
    rcases spaRead_next hr with ⟨-, ht⟩ | ⟨-, raw, smooth, -, -, ht⟩
    · exact answersOrFaults_of_fault ht
    · exact .inl (ht ▸ ⟨⟨_, rfl⟩, rfl⟩)

/-- `FIFO_READ` has no operand and no precondition that could fail. -/
theorem fifoRead_reports_no_fault {i : Instr} (h : exec i s = .next t) (hi : i.opcode = .fifoRead)
    (report : FaultReport) : t.out.reply ≠ .fault report := by
  cases i with
  | fifoRead n =>
    obtain ⟨⟨rs, reply⟩, -⟩ := answers_of_complete (show complete _ _ _ = .next t from h)
    rw [reply]
    nofun
  | _ => cases hi

end Events

open Machine Machine.Laws in
/-- Settles O16: the events of results are those of the opcode; a fault report raises none, and
`FIFO_READ` reports no fault. -/
theorem eventsRaisedExactly : Obligations.EventsRaisedExactly := by
  intro i s t h
  rcases exec_answers h with ⟨⟨rs, reply⟩, events⟩ | ⟨⟨report, reply⟩, events⟩
  · rw [events, reply, eventsOf_parChange, eventsOf_tick, eventsOf_underrun]
    simp [Safety.unitOf, fifoStarved]
  · have not_read : i.opcode ≠ .fifoRead := fun hi => fifoRead_reports_no_fault h hi report reply
    simp [events, reply, Events.none, not_read]

/-! ### What is written stays written (rules R23, R204, R221) -/

section Written

open Sys2Proof.Machine Sys2Proof.Machine.Laws

variable {c : Config} {oc : Opcode} {s t u : State}

/-- Every register of `P`, the snapshot and the analyzer, where written in `s`, are written in `t`. -/
def KeepsWritten (s t : State) : Prop :=
  (∀ n, s.par.isWritten.getD n false = true → t.par.isWritten.getD n false = true) ∧
    (s.snap.isSome = true → t.snap.isSome = true) ∧ (s.spa.ready = true → t.spa.ready = true)

theorem keepsWritten_refl (s : State) : KeepsWritten s s := ⟨fun _ => id, id, id⟩

theorem keepsWritten_trans (hst : KeepsWritten s t) (htu : KeepsWritten t u) : KeepsWritten s u := by
  obtain ⟨par, snap, ready⟩ := hst
  obtain ⟨par', snap', ready'⟩ := htu
  exact ⟨fun n => par' n ∘ par n, snap' ∘ snap, ready' ∘ ready⟩

theorem effect_keepsWritten (h : Effect c s oc u) : KeepsWritten s u := by
  cases h with
  | par _ p _ keeps => exact ⟨keeps, id, id⟩
  | snap p => exact ⟨fun _ => id, fun _ => rfl, id⟩
  | sample p frame u _ ok => rw [sampleStep_frame ok]; exact keepsWritten_refl s
  | block p frames u _ ok =>
    rw [sampleSteps_frame ok]
    exact ⟨fun _ => id, fun _ => rfl, id⟩
  | spaInit => exact ⟨fun _ => id, id, fun _ => rfl⟩
  | spaProcess frames a _ ok =>
    obtain ⟨_, _, _, _, _, _, -, -, -, -, -, -, rfl⟩ := processFrames_ok ok
    exact keepsWritten_refl s
  | _ => exact keepsWritten_refl s

end Written

open Machine.Laws in
/-- Settles O18: no effect un-writes anything, and the port and the outputs play no part. -/
theorem writtenStaysWritten : Obligations.WrittenStaysWritten := fun s _ h =>
  step_keeps (KeepsWritten s) (fun _ _ => id) (fun _ _ => id)
    (fun _ _ _ he hs => keepsWritten_trans hs (effect_keepsWritten he)) h (keepsWritten_refl s)

/-! ### The time stamps (rules R28, R111, R114) -/

section Stamps

open Sys2Proof.Machine Sys2Proof.Machine.Laws Sys2Proof.Safety

variable {c : Config} {oc : Opcode} {s t u : State}

theorem stampOk_reset : StampOk State.reset := by
  rintro k (h | h) <;> cases h
  exact Nat.zero_lt_one

/-- A stamp is new where it has the number of the draw just taken, or it is the one held before. -/
theorem effect_stampOk (h : Effect c s oc u) (hs : StampOk s) : StampOk u := by
  cases effect_fifo_cases h with
  | same fifo _ clock => unfold StampOk; rwa [fifo, clock]
  | clear fifo _ clock => unfold StampOk; rw [fifo, clock]; simp
  | write data fifo _ clock => unfold StampOk; rwa [fifo, clock]
  | read n fifo _ clock => unfold StampOk; rw [fifo, clock]; simp

theorem fifoRead_tickTime {n : ℕ} (h : exec (.fifoRead n) s = .next t) :
    t.fifo.tickTime = .reading s.clockDraws := by
  cases h
  rfl

theorem fifoClear_tickTime (h : exec .fifoClear s = .next t) :
    t.fifo.tickTime = .unspecified s.clockDraws := by
  cases h
  rfl

/-- What a draw still to come is has no influence on the stamp held now. -/
theorem stamp_eval_update (hs : StampOk s) (ρ : Env) (v : ℝ) :
    s.fifo.tickTime.eval { ρ with anyTime := Function.update ρ.anyTime s.clockDraws v } =
      s.fifo.tickTime.eval ρ := by
  cases hk : s.fifo.tickTime with
  | reading k => rfl
  | unspecified k => exact Function.update_of_ne (hs k (.inr hk)).ne _ _

end Stamps

open Machine.Laws in
/-- Settles O30: the number of a stamp is below that of every draw to come, so the clock values rise and
the value `FIFO_CLEAR` leaves is free. -/
theorem stampsNeverDecrease : Obligations.StampsNeverDecrease := by
  refine ⟨stampOk_reset, fun s t hs h => ?_, fun ρ s t n k hρ hs hk h => ?_, fun ρ s t v hs h => ?_⟩
  · exact step_keeps Safety.StampOk (fun _ _ => id) (fun _ _ => id) (fun _ _ _ => effect_stampOk) h hs
  · rw [fifoRead_tickTime h, hk]
    exact hρ.clock_mono (hs k (.inl hk)).le
  · refine ⟨Function.update ρ.anyTime s.clockDraws v, stamp_eval_update hs ρ v, ?_⟩
    rw [fifoClear_tickTime h]
    exact Function.update_self _ _ _

/-! ### One step (rules R31, R70, R199, R232) -/

/-- Settles O6: the state the command runs on is `accept`'s. -/
theorem stepRunsDecoded : Obligations.StepRunsDecoded := by
  intro s r rest i port decoded
  change Machine.step s = Machine.exec i (s.accept r rest)
  simp only [Machine.step, port, decoded]

/-- Settles O7: an empty port is the first branch of `step`. -/
theorem idleStepKeepsState : Obligations.IdleStepKeepsState := by
  intro s port
  change Machine.step s = .next (s.withOut Machine.Output.idle)
  simp only [Machine.step, port]

/-! ### The state after reset (rules R36, R220) -/

theorem reset_isWritten : Machine.State.reset.par.isWritten = List.replicate 16 false := rfl

/-- Settles O57: the invariant is `stateOk_reset`, the rest is the table of rule R36. -/
theorem resetMeetsInvariants : Obligations.ResetMeetsInvariants := by
  have unwritten (n : ℕ) : Machine.State.reset.par.isWritten.getD n false = false := by
    rw [reset_isWritten, List.getD_eq_getElem?_getD, List.getElem?_replicate]
    split <;> rfl
  exact ⟨stateOk_reset, unwritten, rfl, rfl, rfl, fun _ => rfl, fun _ => rfl, rfl, rfl, rfl, rfl, rfl, rfl,
    fun _ => ⟨rfl, rfl, rfl, rfl, rfl⟩, rfl⟩

/-! ### A sample step, computed (rules R130, R135, R144) -/

section Sample

open Sys2Proof.Machine Sys2Proof.Machine.Laws Sys2Proof.Safety

variable {c : Config} {p : Params} {s t u : State} {base : RNum} {frame : Frame}

/-- `O.pink_sum` after a pink step. -/
def steppedPinkSum (s : State) : RNum :=
  (s.osc.pinkSum.sub (tap s.pink s.osc.pinkIdx)).add (.white s.whiteDraws)

/-- The state after a pink step. -/
def pinkStepped (c : Config) (s : State) : State :=
  ((s.withPink (Memory.write (some (.lit 0)) s.pink s.osc.pinkIdx (.white s.whiteDraws))).withOsc
    { s.osc with
      pinkSum := steppedPinkSum s
      pinkIdx := (s.osc.pinkIdx + 1) % c.pinkTaps }).countWhite

/-- The value a pink step answers. -/
def pinkBase (c : Config) (s : State) : RNum := pinkValue c (.white s.whiteDraws) (steppedPinkSum s)

theorem pinkStep_eq_ok (h : s.osc.pinkIdx < c.pinkTaps) :
    pinkStep c s = .ok (pinkBase c s, pinkStepped c s) := by
  rw [pinkStep, fetchTap, if_pos h]
  rfl

theorem baseWave_pink (hw : p.waveform = .pink) (d : RNum) (s : State) :
    baseWave c p d s = pinkStep c s := by
  rw [baseWave, hw]

/-- `F` after a sample of base value `base`. -/
def sampledFlt (c : Config) (p : Params) (base : RNum) (f : FltState) : FltState :=
  ladderStep c base p.cutoff p.resonance (filterLfos p f)

/-- Both channels of a sample of base value `base`, from the phases of `o` and the filter `f`. -/
def sampleOut (c : Config) (p : Params) (base : RNum) (o : OscState) (f : FltState) : RNum :=
  ((sampledFlt c p base f).delay3.mul p.amplitude).mul (amplitudeMod p o)

theorem sampleStep_eq_ok (hb : baseWave c p (effectiveDuty p s.osc) s = .ok (base, t)) :
    sampleStep c p s =
      .ok (⟨sampleOut c p base s.osc t.flt, sampleOut c p base s.osc t.flt⟩,
        (t.withFlt (sampledFlt c p base t.flt)).withOsc
          (advancePhases p (frequencyMod p s.osc) t.osc)) := by
  unfold sampleStep
  simp only [hb]
  rfl

theorem sampleStep_pink (hw : p.waveform = .pink) (hi : s.osc.pinkIdx < c.pinkTaps) :
    sampleStep c p s =
      .ok (⟨sampleOut c p (pinkBase c s) s.osc s.flt, sampleOut c p (pinkBase c s) s.osc s.flt⟩,
        ((pinkStepped c s).withFlt (sampledFlt c p (pinkBase c s) s.flt)).withOsc
          (advancePhases p (frequencyMod p s.osc) (pinkStepped c s).osc)) :=
  sampleStep_eq_ok ((baseWave_pink hw _ s).trans (pinkStep_eq_ok hi))

theorem execOscSample_eq (hs : s.snap = some p)
    (h : sampleStep Config.current p s = .ok (frame, u)) :
    exec .oscSample s = complete (frameResults [frame]) Events.none u := by
  change needSnap s _ = _
  rw [needSnap_of_some hs, h]

/-! ### No sample looks at `P` (rules R34, R58) -/

theorem pinkStep_withPar (q : PendingParams) (h : pinkStep c s = .ok (base, t)) :
    pinkStep c (s.withPar q) = .ok (base, t.withPar q) := by
  obtain ⟨idx_lt, _, _, rfl, rfl, rfl, rfl⟩ := pinkStep_ok h
  exact pinkStep_eq_ok (s := s.withPar q) idx_lt

theorem baseWave_withPar {d : RNum} (q : PendingParams) (h : baseWave c p d s = .ok (base, t)) :
    baseWave c p d (s.withPar q) = .ok (base, t.withPar q) := by
  unfold baseWave at h ⊢
  cases hw : p.waveform <;> rw [hw] at h
  case pink => exact pinkStep_withPar q h
  all_goals (cases h; rfl)

theorem sampleStep_withPar (q : PendingParams) (h : sampleStep c p s = .ok (frame, u)) :
    sampleStep c p (s.withPar q) = .ok (frame, u.withPar q) := by
  obtain ⟨base, t, -, hb, -, -, -, -⟩ := sampleStep_ok h
  rw [sampleStep_eq_ok hb] at h
  cases h
  exact sampleStep_eq_ok (baseWave_withPar q hb)

theorem execOscSample_withPar (q : PendingParams) (h : exec .oscSample s = .next t) :
    exec .oscSample (s.withPar q) = .next (t.withPar q) := by
  rcases needSnap_next (show needSnap s _ = _ from h) with ⟨p, hp, hx⟩ | ⟨hp, rfl⟩
  · split at hx
    · cases hx
    · next frame u sampled =>
      cases hx
      exact execOscSample_eq (s := s.withPar q) hp (sampleStep_withPar q sampled)
  · exact needSnap_of_none (s := s.withPar q) hp _

theorem execFltStep_withPar (q : PendingParams) {x fc r : NumWord}
    (h : exec (.fltStep x fc r) s = .next t) :
    exec (.fltStep x fc r) (s.withPar q) = .next (t.withPar q) := by
  rcases withNumAt_next (show execFltStep x fc r s = _ from h) with ⟨x, rfl, h⟩ | ⟨rfl, rfl⟩
  · rcases withNumAt_next h with ⟨fc, rfl, h⟩ | ⟨rfl, rfl⟩
    · rcases withNumAt_next h with ⟨r, rfl, h⟩ | ⟨rfl, rfl⟩
      · cases h
        rfl
      · rfl
    · rfl
  · rfl

theorem execOscSnap_snap {p : Params} (hp : s.par = p.written) (h : exec .oscSnap s = .next t) :
    t.snap = some p := by
  rw [show exec .oscSnap s = needParams s _ from rfl, needParams_of_written hp] at h
  cases h
  rfl

end Sample

/-- Settles O19: the four commands hand `P` through, and a snapshot is a copy of it. -/
theorem settersReachSamplesOnlyThroughSnap : Obligations.SettersReachSamplesOnlyThroughSnap := by
  refine ⟨fun i s t q hi h => ?_, fun s t p => execOscSnap_snap⟩
  cases i with
  | oscSample => exact execOscSample_withPar q h
  | fltStep x fc r => exact execFltStep_withPar q h
  | oscReset => cases h; rfl
  | fltReset => cases h; rfl
  | _ => simp [Instr.opcode] at hi

/-! ### The values of a sample step (rules R132 to R141, R161 to R169) -/

section Values

open Sys2Proof.Machine Sys2Proof.Machine.Laws

variable (ρ : Env)

theorem eval_clampCutoff (fc : RNum) :
    (clampCutoff fc).eval ρ = Ideal.cutoffHz ρ.sr (fc.eval ρ) := by
  norm_num [clampCutoff, Ideal.cutoffHz, Ideal.clamp, Const.cutoffMinHz, Const.cutoffMaxHz,
    Const.cutoffFloorRatio]

theorem eval_normFreq (fc : RNum) : (normFreq fc).eval ρ = Ideal.normFreq ρ.sr (fc.eval ρ) := by
  norm_num [normFreq, Ideal.normFreq, Const.fNormMax]

theorem eval_clampResonance (r : RNum) :
    (clampResonance r).eval ρ = Ideal.clamp (r.eval ρ) 0 1 := by
  simp [clampResonance, Ideal.clamp]

theorem eval_feedbackGain (r : RNum) : (feedbackGain r).eval ρ = Ideal.feedback (r.eval ρ) := by
  norm_num [feedbackGain, Ideal.feedback, Const.fbScale]

theorem eval_onePole_poleK (f : RNum) : (onePole (poleK f)).eval ρ = Ideal.onePole (f.eval ρ) := by
  simp [onePole, poleK, Ideal.onePole, Const.kScaleFactor]

theorem eval_feedbackInput (x g d : RNum) :
    (feedbackInput x g d).eval ρ =
      (x.eval ρ - g.eval ρ * d.eval ρ) * (1 / (1 + 0.1 * g.eval ρ)) := by
  norm_num [feedbackInput, compensation, Const.compScale]

theorem eval_saturate (x : RNum) : (saturate x).eval ρ = Ideal.sat (x.eval ρ) := by
  simp [saturate, Ideal.sat, Const.satA, Const.satB]

theorem eval_drive (r : RNum) : (drive r).eval ρ = 1 + 0.3 * r.eval ρ := by
  norm_num [drive, Const.satBlend]

theorem eval_stageShape (c : Config) (r x : RNum) :
    (stageShape c r x).eval ρ = Ideal.shape c.satScale (r.eval ρ) (x.eval ρ) := by
  unfold stageShape Ideal.shape
  cases c.satScale <;> simp [eval_saturate, eval_drive]

theorem eval_stage (c : Config) (p r d x : RNum) :
    (stage c p r d x).eval ρ =
      Ideal.stage (p.eval ρ) (d.eval ρ) (Ideal.shape c.satScale (r.eval ρ) (x.eval ρ)) := by
  simp [stage, Ideal.stage, eval_stageShape]

/-- The machine's ladder step has the values of the rules' (rule R171). -/
theorem flt_ladderStep (c : Config) (x fc r : RNum) (f : FltState) :
    Ideal.flt ρ (ladderStep c x fc r f) =
      Ideal.ladderStep c ρ.sr (x.eval ρ) (fc.eval ρ) (r.eval ρ) (Ideal.flt ρ f) := by
  unfold ladderStep cascade Ideal.ladderStep
  cases c.ladderOrder <;>
    simp [Ideal.flt, eval_stage, eval_feedbackInput, eval_feedbackGain, eval_onePole_poleK,
      eval_normFreq, eval_clampCutoff, eval_clampResonance]

theorem eval_advanceModulator (freq phase : RNum) :
    (advanceModulator freq phase).eval ρ = Ideal.advance ρ.sr (freq.eval ρ) (phase.eval ρ) := by
  simp [advanceModulator, Ideal.advance, Ideal.wrap]

theorem eval_frequencyMod (p : Params) (o : OscState) :
    (frequencyMod p o).eval ρ = Ideal.frequencyMod (Ideal.params ρ p) (Ideal.phases ρ o) := by
  by_cases on : 0 < p.fmFreq.eval ρ <;>
    simp [frequencyMod, Ideal.frequencyMod, Ideal.params, Ideal.phases, on]

theorem eval_amplitudeMod (p : Params) (o : OscState) :
    (amplitudeMod p o).eval ρ = Ideal.amplitudeMod (Ideal.params ρ p) (Ideal.phases ρ o) := by
  by_cases on : 0 < p.amFreq.eval ρ <;>
    simp [amplitudeMod, Ideal.amplitudeMod, Ideal.params, Ideal.phases, on]

theorem flt_filterLfos (p : Params) (f : FltState) :
    Ideal.flt ρ (filterLfos p f) = Ideal.lfos ρ.sr (Ideal.params ρ p) (Ideal.flt ρ f) := by
  by_cases cutoff_on : 0 < p.cutoffLfoFreq.eval ρ <;> by_cases res_on : 0 < p.resLfoFreq.eval ρ <;>
    simp [filterLfos, Ideal.lfos, Ideal.flt, Ideal.params, eval_advanceModulator, Const.cutoffMinHz,
      cutoff_on, res_on]

theorem phases_advancePhases (p : Params) (o : OscState) :
    Ideal.phases ρ (advancePhases p (frequencyMod p o) o) =
      Ideal.sampledPhases ρ.sr (Ideal.params ρ p) (Ideal.phases ρ o) := by
  simp [advancePhases, advanceCarrier, Ideal.sampledPhases, eval_advanceModulator,
    eval_frequencyMod, Ideal.wrap, Ideal.params, Ideal.phases]

theorem flt_sampledFlt (c : Config) (p : Params) (base : RNum) (f : FltState) :
    Ideal.flt ρ (sampledFlt c p base f) =
      Ideal.sampledFlt c ρ.sr (base.eval ρ) (Ideal.params ρ p) (Ideal.flt ρ f) := by
  rw [sampledFlt, flt_ladderStep, flt_filterLfos]
  rfl

theorem eval_sampleOut (c : Config) (p : Params) (base : RNum) (o : OscState) (f : FltState) :
    (sampleOut c p base o f).eval ρ =
      Ideal.sampleOut c ρ.sr (base.eval ρ) (Ideal.params ρ p) (Ideal.phases ρ o) (Ideal.flt ρ f) := by
  rw [sampleOut, RNum.eval_mul, RNum.eval_mul, eval_amplitudeMod, Ideal.sampleOut, ← flt_sampledFlt]
  rfl

theorem eval_steppedPinkSum (s : State) :
    (steppedPinkSum s).eval ρ =
      s.osc.pinkSum.eval ρ - (tap s.pink s.osc.pinkIdx).eval ρ + ρ.white s.whiteDraws := by
  simp [steppedPinkSum]

theorem eval_pinkBase (c : Config) (s : State) :
    (pinkBase c s).eval ρ =
      Ideal.pinkBase c (ρ.white s.whiteDraws) ((steppedPinkSum s).eval ρ) := by
  simp [pinkBase, pinkValue, Ideal.pinkBase]

end Values

open Machine Machine.Laws in
/-- Settles O34: the sample step of a pink snapshot, computed, and the values of its parts. -/
theorem oscSampleComputesPink : Obligations.OscSampleComputesPink := by
  intro s p snap pink idx_lt
  have written (i : ℕ) := tap_write s.pink s.osc.pinkIdx i (.white s.whiteDraws)
  refine ⟨_, _, _, _, execOscSample_eq snap (sampleStep_pink pink idx_lt), written, rfl, ?_⟩
  rintro ρ base - base_eq
  obtain rfl : base = (pinkBase Config.current s).eval ρ := base_eq.trans (eval_pinkBase ρ _ s).symm
  exact ⟨eval_steppedPinkSum ρ s, phases_advancePhases ρ p s.osc, flt_sampledFlt ρ _ p _ s.flt,
    eval_sampleOut ρ _ p _ s.osc s.flt⟩

end Sys2Proof.Proofs

namespace Sys2Proof.Proofs

/-! ### The FIFO as a bounded queue (rules R51, R112, R113, R117, R118) -/

section Queue

open Sys2Proof.Machine Sys2Proof.Machine.Laws Sys2Proof.Safety

variable {c : Config} {s t : State} {m m' : Memory Frame} {cursor : ℕ}

theorem slot_congr {i : ℕ}
    (h : Memory.read (some Frame.silence) m i = Memory.read (some Frame.silence) m' i) :
    slot m i = slot m' i := by
  unfold slot
  rw [h]

/-! The frames of consecutive slots. -/

@[simp] theorem slotFrames_length (c : Config) (m : Memory Frame) (cursor k : ℕ) :
    (slotFrames c m cursor k).length = k := by
  simp [slotFrames]

/-- A transfer of `j + k` frames is one of `j` frames and then one of `k` from the moved cursor. -/
theorem slotFrames_add (c : Config) (m : Memory Frame) (cursor j k : ℕ) :
    slotFrames c m cursor (j + k) =
      slotFrames c m cursor j ++ slotFrames c m ((cursor + j) % c.capacity) k := by
  simp [slotFrames, List.range_add, Function.comp_def, Nat.add_assoc]

theorem take_slotFrames (c : Config) (m : Memory Frame) (cursor : ℕ) {j k : ℕ} (h : j ≤ k) :
    (slotFrames c m cursor k).take j = slotFrames c m cursor j := by
  obtain ⟨r, rfl⟩ := Nat.exists_eq_add_of_le h
  rw [slotFrames_add, List.take_left' (slotFrames_length ..)]

theorem drop_slotFrames (c : Config) (m : Memory Frame) (cursor : ℕ) {j k : ℕ} (h : j ≤ k) :
    (slotFrames c m cursor k).drop j = slotFrames c m ((cursor + j) % c.capacity) (k - j) := by
  obtain ⟨r, rfl⟩ := Nat.exists_eq_add_of_le h
  rw [slotFrames_add, List.drop_left' (slotFrames_length ..), Nat.add_sub_cancel_left]

theorem slotFrames_congr {k : ℕ}
    (h : ∀ j < k, slot m ((cursor + j) % c.capacity) = slot m' ((cursor + j) % c.capacity)) :
    slotFrames c m cursor k = slotFrames c m' cursor k :=
  List.map_congr_left fun j hj => h j (List.mem_range.1 hj)

/-! A transfer into the store. -/

/-- Offsets below the capacity name distinct slots (rule R117). -/
theorem slot_offset_inj {i j : ℕ} (hi : i < c.capacity) (hj : j < c.capacity)
    (h : (cursor + i) % c.capacity = (cursor + j) % c.capacity) : i = j :=
  (Nat.ModEq.add_left_cancel' cursor h).eq_of_lt_of_lt hi hj

theorem mem_slotWrites {frames : List Frame} {w : ℕ × Frame} :
    w ∈ slotWrites c cursor frames ↔
      ∃ j f, frames[j]? = some f ∧ ((cursor + j) % c.capacity, f) = w := by
  simp only [slotWrites, List.mem_map, Prod.exists, List.mem_zipIdx_iff_getElem?]
  exact exists_comm

theorem slotWrites_keys (c : Config) (cursor : ℕ) (frames : List Frame) :
    (slotWrites c cursor frames).map Prod.fst =
      (List.range frames.length).map fun j => (cursor + j) % c.capacity := by
  rw [slotWrites, List.range_eq_range', ← List.zipIdx_map_snd 0 frames, List.map_map, List.map_map]
  rfl

/-- A transfer that fits writes every slot at most once. -/
theorem slotWrites_nodup {frames : List Frame} (h : frames.length ≤ c.capacity) :
    ((slotWrites c cursor frames).map Prod.fst).Nodup := by
  rw [slotWrites_keys]
  refine List.Nodup.map_on (fun i hi j hj => ?_) List.nodup_range
  exact slot_offset_inj ((List.mem_range.1 hi).trans_le h) ((List.mem_range.1 hj).trans_le h)

/-- The store after the frames have been written from a cursor on. -/
def writtenSlots (c : Config) (m : Memory Frame) (cursor : ℕ) (frames : List Frame) : Memory Frame :=
  Memory.writeAll (some Frame.silence) m (slotWrites c cursor frames)

theorem slot_writtenSlots_of_lt {frames : List Frame} (h : frames.length ≤ c.capacity) {j : ℕ}
    (hj : j < frames.length) :
    slot (writtenSlots c m cursor frames) ((cursor + j) % c.capacity) = frames[j] := by
  have written : ((cursor + j) % c.capacity, frames[j]) ∈ slotWrites c cursor frames :=
    mem_slotWrites.2 ⟨j, _, List.getElem?_eq_getElem hj, rfl⟩
  unfold slot writtenSlots
  rw [read_writeAll_of_mem _ _ _ _ _ (slotWrites_nodup h) written]
  rfl

theorem slot_writtenSlots_of_ne {frames : List Frame} {i : ℕ}
    (h : ∀ j < frames.length, (cursor + j) % c.capacity ≠ i) :
    slot (writtenSlots c m cursor frames) i = slot m i := by
  refine slot_congr (read_writeAll_of_notMem _ _ _ _ fun w hw => ?_)
  obtain ⟨j, f, hf, rfl⟩ := mem_slotWrites.1 hw
  exact h j (List.getElem?_eq_some_iff.1 hf).1

/-- Reading back a transfer that fits gives its frames in order. -/
theorem slotFrames_writtenSlots {frames : List Frame} (h : frames.length ≤ c.capacity) :
    slotFrames c (writtenSlots c m cursor frames) cursor frames.length = frames := by
  refine List.ext_getElem (slotFrames_length ..) fun j _ hj => ?_
  simp only [slotFrames, List.getElem_map, List.getElem_range]
  exact slot_writtenSlots_of_lt h hj

/-- Writing past `k` stored frames, without going round to them, leaves them and adds the new ones. -/
theorem slotFrames_append {frames : List Frame} {k : ℕ} (h : k + frames.length ≤ c.capacity) :
    slotFrames c (writtenSlots c m ((cursor + k) % c.capacity) frames) cursor (k + frames.length) =
      slotFrames c m cursor k ++ frames := by
  rw [slotFrames_add, slotFrames_writtenSlots (by omega)]
  congr 1
  refine slotFrames_congr fun i hi => slot_writtenSlots_of_ne fun j hj same => ?_
  rw [Nat.mod_add_mod, Nat.add_assoc] at same
  have := slot_offset_inj (by omega) (by omega) same
  omega

/-! The queue under each command, for every configuration. -/

@[simp] theorem storedFrames_length (c : Config) (s : State) :
    (storedFrames c s).length = s.fifo.count := slotFrames_length ..

theorem storedFrames_congr (store : t.store = s.store) (fifo : t.fifo = s.fifo) :
    storedFrames c t = storedFrames c s := by
  unfold storedFrames
  rw [store, fifo]

/-- `FIFO_WRITE` appends the frames there is room for (rule R112). -/
theorem storedFrames_fifoWrite {data : List Frame} (hs : FifoOk c s.fifo)
    (h : fifoWrite c data.length data s = .next t) :
    storedFrames c t = storedFrames c s ++ data.take (c.capacity - s.fifo.count) := by
  have count_le := hs.count_le
  have accepted : (data.take (c.capacity - s.fifo.count)).length = acceptedFrames c s.fifo data.length := by
    rw [List.length_take, acceptedFrames, Nat.min_comm]
  have same_take :
      data.take (acceptedFrames c s.fifo data.length) = data.take (c.capacity - s.fifo.count) := by
    rw [← accepted, List.length_take, ← List.take_eq_take_min]
  cases h
  change slotFrames c (writtenSlots c s.store s.fifo.wr _) s.fifo.rd (s.fifo.count + _) = _
  rw [same_take, ← accepted, ← hs.cursors]
  exact slotFrames_append (by rw [List.length_take]; omega)

/-- `FIFO_READ` drops the frames it takes (rule R113). -/
theorem storedFrames_fifoRead {n : ℕ} (hs : FifoOk c s.fifo) (h : fifoRead c n s = .next t) :
    storedFrames c t = (storedFrames c s).drop (takenFrames c s.fifo n) := by
  cases h
  change slotFrames c s.store (readCursor c s.fifo n) (s.fifo.count - takenFrames c s.fifo n) = _
  rw [readCursor_eq hs.rd_lt, storedFrames, drop_slotFrames _ _ _ (takenFrames_le ..)]

theorem fifoRead_reply {n : ℕ} (h : fifoRead c n s = .next t) :
    t.out.reply = .results (frameResults (readFrames c s n)) := by
  cases h
  rfl

/-- `FIFO_READ` answers the frames it takes, padded with silence (rule R113). -/
theorem readFrames_eq (c : Config) (s : State) (n : ℕ) :
    readFrames c s n =
      (storedFrames c s).take (takenFrames c s.fifo n) ++
        List.replicate (n - takenFrames c s.fifo n) Frame.silence := by
  rw [storedFrames, take_slotFrames _ _ _ (takenFrames_le ..), readFrames]

theorem takenFrames_of_starved {q : FifoState} (h : q.count < c.minFill) (n : ℕ) :
    takenFrames c q n = 0 := by
  simp [takenFrames, fifoStarved, h]

theorem takenFrames_of_filled {q : FifoState} (h : ¬ q.count < c.minFill) (n : ℕ) :
    takenFrames c q n = min n q.count := by
  simp [takenFrames, fifoStarved, h]

theorem drop_takenFrames (c : Config) (s : State) (n : ℕ) :
    (storedFrames c s).drop (takenFrames c s.fifo n) =
      if s.fifo.count < c.minFill then storedFrames c s else (storedFrames c s).drop n := by
  split
  · next starved => rw [takenFrames_of_starved starved, List.drop_zero]
  · next filled =>
    rw [takenFrames_of_filled filled, ← storedFrames_length c s, ← List.drop_eq_drop_min]

theorem readFrames_eq_ite (c : Config) (s : State) (n : ℕ) :
    readFrames c s n =
      if s.fifo.count < c.minFill then List.replicate n Frame.silence
      else (storedFrames c s).take n ++ List.replicate (n - s.fifo.count) Frame.silence := by
  rw [readFrames_eq]
  split
  · next starved => simp [takenFrames_of_starved starved]
  · next filled =>
    have padding : n - min n s.fifo.count = n - s.fifo.count := by omega
    rw [takenFrames_of_filled filled, padding, ← storedFrames_length c s, ← List.take_eq_take_min]

theorem storedFrames_fifoClear (h : exec .fifoClear s = .next t) : storedFrames c t = [] := by
  cases h
  rfl

/-- A command that is none of the FIFO's transfers leaves the queue (rule R118). -/
theorem storedFrames_of_other {i : Instr} (hi : i.opcode ∉ [Opcode.fifoClear, .fifoWrite, .fifoRead])
    (h : exec i s = .next t) : storedFrames c t = storedFrames c s := by
  obtain ⟨u, o, effect, -, rfl⟩ := exec_reaches h
  have fifo := (effect_fifo effect hi).1
  have store := effect_store effect fun writes => hi (List.mem_append_left [Opcode.fifoRead] writes)
  exact storedFrames_congr store fifo

end Queue

open Machine Machine.Laws in
/-- Settles O26: the stored frames are those of consecutive slots from the read cursor on; a write extends
that run of slots, a read drops its front, and no other command moves it. -/
theorem fifoRefinesQueue : Obligations.FifoRefinesQueue := by
  intro s hs
  refine ⟨storedFrames_length _ s, fun data t h => ?_, fun n t h => ⟨?_, ?_⟩,
    fun _ => storedFrames_fifoClear, fun _ _ => storedFrames_of_other⟩
  · change withFrames data.length (frameWords data) s _ = _ at h
    simp only [withFrames, framesOf_frameWords] at h
    rw [storedFrames_length]
    exact storedFrames_fifoWrite hs h
  · rw [← drop_takenFrames]
    exact storedFrames_fifoRead hs h
  · rw [← readFrames_eq_ite]
    exact fifoRead_reply h

/-! ### The setters (rules R90, R95 to R100) -/

/-- Writing a group sets the pending parameters and the outputs, and nothing else (rule R90). -/
theorem setGroup_eq (p : Machine.PendingParams) (s : Machine.State) :
    Machine.setGroup p s =
      .next { s with par := p, out := Safety.answered s [] ⟨false, true, false⟩ } := rfl

/-- Settles O11: finite operands pass the checks of `withNum2`, and each command is then a `setGroup`. -/
theorem pairSettersEffect : Obligations.PairSettersEffect := by
  refine ⟨fun x y => ⟨rfl, rfl, rfl, rfl, rfl, rfl⟩, fun x y s => ?_⟩
  exact ⟨setGroup_eq _ s, setGroup_eq _ s, setGroup_eq _ s, setGroup_eq _ s, setGroup_eq _ s,
    setGroup_eq _ s⟩

end Sys2Proof.Proofs

namespace Sys2Proof.Proofs

/-! ### The transactions of the commands (rules R70 to R77, R81) -/

section Transactions

variable {op : Byte} {oc : Opcode} {ops : List Operand} {i : Instr}

@[simp] theorem numWordsOf_map_num (ws : List NumWord) : numWordsOf (ws.map .num) = some ws := by
  induction ws with
  | nil => rfl
  | cons w ws ih => rw [List.map_cons, numWordsOf, ih, Option.map_some]

/-- Words read as a `FRAMES` operand are `NUM` words, and none of them is dropped. -/
theorem map_num_of_numWordsOf {ws : List NumWord} (h : numWordsOf ops = some ws) :
    ws.map .num = ops := by
  induction ops generalizing ws with
  | nil => cases h; rfl
  | cons word rest ih =>
    cases word with
    | num w =>
      obtain ⟨_, read, rfl⟩ := Option.map_eq_some_iff.1 h
      rw [List.map_cons, ih read]
    | nat | kind => cases h

/-- A command is what its opcode makes of its operands. -/
theorem build_operands (i : Instr) : i.opcode.build i.operands = some i := by
  cases i with
  | fifoWrite | spaProcess => simp [Instr.opcode, Instr.operands, Opcode.build]
  | _ => rfl

/-- An opcode makes only its own commands, and each only of that command's operands. -/
theorem opcode_operands_of_build (h : oc.build ops = some i) : i.opcode = oc ∧ i.operands = ops := by
  unfold Opcode.build at h
  split at h
  -- alternatives 12 and 22 are the two commands with a `FRAMES` operand, 26 is the rejection
  case h_12 | h_22 =>
    obtain ⟨ws, read, rfl⟩ := Option.map_eq_some_iff.1 h
    rw [← map_num_of_numWordsOf read]
    exact ⟨rfl, rfl⟩
  case h_26 => cases h
  all_goals (cases h; exact ⟨rfl, rfl⟩)

theorem build_eq_some_iff : oc.build ops = some i ↔ i.opcode = oc ∧ i.operands = ops := by
  refine ⟨opcode_operands_of_build, ?_⟩
  rintro ⟨rfl, rfl⟩
  exact build_operands i

/-- Each of the 256 bytes selects no opcode, or the one whose byte it is. -/
theorem ofByte_toByte_or_none (op : Byte) : (Opcode.ofByte op).all fun oc => oc.toByte = op := by
  revert op
  decide

theorem ofByte_eq_some_iff : Opcode.ofByte op = some oc ↔ oc.toByte = op := by
  constructor
  · intro h
    simpa [h] using ofByte_toByte_or_none op
  · rintro rfl
    exact Laws.ofByte_toByte oc

theorem decode_eq_ok_iff_build :
    decode op ops = .ok i ↔ ∃ oc, Opcode.ofByte op = some oc ∧ oc.build ops = some i := by
  unfold decode
  cases legal : Opcode.ofByte op with
  | none => simp
  | some oc => cases built : oc.build ops <;> simp [built]

/-- Decoding and encoding are inverse to each other: a transaction decodes to a command exactly where it
is that command's encoding (rules R70, R74, R77). -/
theorem decode_eq_ok_iff : decode op ops = .ok i ↔ encode i = (op, ops) := by
  simp [decode_eq_ok_iff_build, ofByte_eq_some_iff, build_eq_some_iff, encode]

theorem decode_of_illegal (h : Opcode.ofByte op = none) (ops : List Operand) :
    decode op ops = .error (.illegalOpcode op) := by
  rw [decode, h]

theorem decode_of_malformed (h : Opcode.ofByte op = some oc)
    (no_command : ∀ i : Instr, i.opcode = oc → i.operands ≠ ops) :
    decode op ops = .error (.malformedOperands oc ops) := by
  have : oc.build ops = none :=
    Option.eq_none_iff_forall_ne_some.2 fun i built =>
      have ⟨opcode, operands⟩ := build_eq_some_iff.1 built
      no_command i opcode operands
  simp only [decode, h, this]

end Transactions

/-- Settles O1: a command's encoding is, by `decode_eq_ok_iff`, what decodes to it. -/
theorem decodeInvertsEncode : Obligations.DecodeInvertsEncode := fun _ => decode_eq_ok_iff.2 rfl

/-- Settles O2: the other direction of `decode_eq_ok_iff`. -/
theorem encodeInvertsDecode : Obligations.EncodeInvertsDecode := fun _ _ _ => decode_eq_ok_iff.1

/-- Settles O5: each of the nine transactions is the encoding of its command, once the binary32 patterns
are read. -/
theorem transactionsDecodeAsTabled : Obligations.TransactionsDecodeAsTabled := by
  have thousand : binary32 0x447A0000 = .finite (.lit 1000) := by decide +kernel
  have one : binary32 0x3F800000 = .finite (.lit 1) := by decide +kernel
  have minus_one : binary32 0xBF800000 = .finite (.lit (-1)) := by decide +kernel
  unfold Obligations.TransactionsDecodeAsTabled
  simp only [thousand, one, minus_one, decode_eq_ok_iff]
  exact ⟨rfl, rfl, rfl, rfl, rfl, rfl, rfl, rfl, rfl⟩

/-! ### Transactions that are no command (rules R75, R81, R201 to R203, R208) -/

section Rejected

open Machine Machine.Laws Safety

variable {s : State} {r : Request} {rest : List Request} {oc : Opcode} {ops : List Operand}

/-- The ranges of rule R75, byte by byte. -/
theorem ofByte_eq_none_iff (op : Byte) : Opcode.ofByte op = none ↔
    opUnit op = 0 ∧ 10 ≤ opFn op ∨ opUnit op = 1 ∧ 4 ≤ opFn op ∨ opUnit op = 2 ∧ 4 ≤ opFn op ∨
      opUnit op = 3 ∧ 2 ≤ opFn op ∨ opUnit op = 4 ∧ 5 ≤ opFn op ∨ 5 ≤ opUnit op := by
  revert op
  decide

theorem card_illegal_bytes :
    ((Finset.univ : Finset Byte).filter fun op => Opcode.ofByte op = none).card = 231 := by
  decide +kernel

theorem step_of_reject {e : Reject} (port : s.port = r :: rest)
    (rejected : decode r.op r.operands = .error e) : step s = performReject e (s.accept r rest) := by
  simp only [step, port, rejected]

/-- Accepting a transaction touches nothing a state precondition looks at. -/
theorem precondition_accept (oc : Opcode) (s : State) (r : Request) (rest : List Request) :
    precondition oc (s.accept r rest) = precondition oc s := by
  cases oc <;> rfl

/-- A good operand is one that is there and that the scan of a list that does not match passes over. -/
theorem goodOperand_iff {q : ℕ} : goodOperand oc ops q ↔
    ∃ t w, oc.signature[q]? = some t ∧ ops[q]? = some w ∧
      operandLegal Config.current oc t w = true := by
  have limit (n : ℕ) : ((natLimit Config.current oc).all fun bound => decide (n ≤ bound)) = true ↔
      (oc = .spaRead → n ≤ Config.current.fftSize / 2) := by
    cases oc <;> simp [natLimit, Config.lastBin]
  constructor
  · rintro (⟨x, sig, word⟩ | ⟨n, sig, word, bound⟩ | ⟨code, sig, word, named⟩)
    · exact ⟨_, _, sig, word, rfl⟩
    · exact ⟨_, _, sig, word, (limit n).2 bound⟩
    · exact ⟨_, _, sig, word, decide_eq_true named⟩
  · rintro ⟨t, w, sig, word, legal⟩
    unfold operandLegal at legal
    split at legal
    next x => cases x with
      | finite x => exact .inl ⟨x, sig, word⟩
      | nonFinite => cases legal
    next n => exact .inr (.inl ⟨n, sig, word, (limit n).1 legal⟩)
    next code => exact .inr (.inr ⟨code, sig, word, of_decide_eq_true legal⟩)
    next => cases legal

/-- The scan of a list that does not match stops at the first operand that is not good. -/
theorem firstBadOperand_eq {p : ℕ} (before : ∀ q, q < p → goodOperand oc ops q)
    (at_p : ¬ goodOperand oc ops p) :
    firstBadOperand Config.current oc 0 oc.signature ops = p := by
  obtain ⟨n, answer, passed, stopped⟩ := firstBadOperand_spec Config.current oc oc.signature ops 0
  rw [answer, Nat.zero_add]
  refine Nat.le_antisymm (not_lt.1 fun hp => ?_) (not_lt.1 fun hn => ?_)
  · exact at_p (goodOperand_iff.2 (passed p hp))
  · obtain ⟨t, w, sig, word, legal⟩ := goodOperand_iff.1 (before n hn)
    exact Bool.false_ne_true ((stopped t w sig word).symm.trans legal)

theorem performReject_of_precondition {report : FaultReport} (h : precondition oc s = some report)
    (ops : List Operand) : performReject (.malformedOperands oc ops) s = takeFault report s := by
  simp only [performReject, h]

theorem performReject_of_firstBadOperand {p : ℕ} (h : precondition oc s = none)
    (first : firstBadOperand Config.current oc 0 oc.signature ops = p) :
    performReject (.malformedOperands oc ops) s = takeFault (badOperand p) s := by
  simp only [performReject, h, first]

end Rejected

/-- Settles O3: the decoder rejects an illegal byte by name whatever the operands, and the rejection is
reported. -/
theorem illegalOpcodesFault : Obligations.IllegalOpcodesFault :=
  ⟨ofByte_eq_none_iff, card_illegal_bytes, fun _ r _ port illegal =>
    step_of_reject port (decode_of_illegal illegal r.operands)⟩

/-- Settles O4: the decoder rejects a list that is no command's, and the scan behind the state
precondition stops at the first operand that is not good. -/
theorem malformedTransactionFaults : Obligations.MalformedTransactionFaults := by
  intro s r rest oc port legal no_command
  have reject := step_of_reject port (decode_of_malformed legal no_command)
  rw [← precondition_accept oc s r rest]
  refine ⟨fun report fails => ?_, fun p holds before at_p => ?_⟩
  · exact reject.trans (performReject_of_precondition fails _)
  · exact reject.trans (performReject_of_firstBadOperand holds (firstBadOperand_eq before at_p))

/-! ### Commands with a bad operand (rules R72, R73, R81, R203, R208) -/

section BadOperands

open Machine Machine.Laws Safety

variable {s : State}

/-- The codes 5 to 7 name no kind (rule R73). -/
theorem kindOfCode_eq_none_iff (code : BitVec 3) : kindOfCode code = none ↔ 5 ≤ code.toNat := by
  revert code
  decide

theorem withKind_of_unnamed {code : BitVec 3} (h : 5 ≤ code.toNat) (s : State) (k : Kind → Result) :
    withKind code s k = takeFault (badOperand 0) s := by
  rw [withKind, (kindOfCode_eq_none_iff code).2 h]

/-! `NUM` operands are checked in order, so the fault names the first one that is not finite. -/

theorem withNum_of_bad {a : NumWord} (h : [a].all NumWord.isFinite = false) (k : RNum → Result) :
    withNum a s k = takeFault (badOperand ([a].findIdx fun w => !w.isFinite)) s := by
  cases a with
  | finite => cases h
  | nonFinite => rfl

theorem withNum2_of_bad {a b : NumWord} (h : [a, b].all NumWord.isFinite = false)
    (k : RNum → RNum → Result) :
    withNum2 a b s k = takeFault (badOperand ([a, b].findIdx fun w => !w.isFinite)) s := by
  cases a with
  | nonFinite => rfl
  | finite => cases b with
    | nonFinite => rfl
    | finite => cases h

theorem withNum3_of_bad {a b c : NumWord} (h : [a, b, c].all NumWord.isFinite = false)
    (k : RNum → RNum → RNum → Result) :
    withNum3 a b c s k = takeFault (badOperand ([a, b, c].findIdx fun w => !w.isFinite)) s := by
  cases a with
  | nonFinite => rfl
  | finite => cases b with
    | nonFinite => rfl
    | finite => cases c with
      | nonFinite => rfl
      | finite => cases h

theorem numValues_isSome (ws : List NumWord) : (numValues ws).isSome = ws.all NumWord.isFinite := by
  induction ws with
  | nil => rfl
  | cons w ws ih =>
    rw [List.all_cons, ← ih, numValues]
    cases w with
    | nonFinite => rfl
    | finite => cases numValues ws <;> rfl

/-- A `FRAMES(n)` operand is bad where it does not hold `2 * n` words, all of them finite. -/
theorem withFrames_of_bad {n : ℕ} {ws : List NumWord}
    (h : (ws.length == 2 * n && ws.all NumWord.isFinite) = false) (k : List Frame → Result) :
    withFrames n ws s k = takeFault (badOperand 1) s := by
  have bad : framesOf n ws = none := by
    unfold framesOf
    split
    next exact_length =>
      have no_values : numValues ws = none := by
        simpa [exact_length, ← numValues_isSome] using h
      rw [no_values, Option.map_none]
    next => rfl
  rw [withFrames, bad]

theorem needReady_of_not_ready (h : s.spa.ready = false) (k : Result) :
    needReady s k = takeFault uninit s := by
  rw [needReady, h, if_neg Bool.false_ne_true]

theorem needReady_of_ready (h : s.spa.ready = true) (k : Result) : needReady s k = k := by
  rw [needReady, if_pos h]

/-- Where a command's state precondition fails, its fault is what the command is answered with,
whatever the operands. -/
theorem exec_of_precondition {i : Instr} {report : FaultReport}
    (h : precondition i.opcode s = some report) : exec i s = takeFault report s := by
  cases i with
  | oscSnap | oscBlock =>
    cases missing : s.par.complete with
    | ok p => simp [precondition, Instr.opcode, missing] at h
    | error n =>
      obtain rfl : unwrittenParam n = report := by simpa [precondition, Instr.opcode, missing] using h
      exact needParams_of_error missing _
  | oscSample =>
    cases snap : s.snap with
    | some p => simp [precondition, Instr.opcode, snap] at h
    | none =>
      obtain rfl : unwrittenParam 16 = report := by simpa [precondition, Instr.opcode, snap] using h
      exact needSnap_of_none snap _
  | spaProcess | spaRead =>
    cases ready : s.spa.ready with
    | true => simp [precondition, Instr.opcode, ready] at h
    | false =>
      obtain rfl : uninit = report := by simpa [precondition, Instr.opcode, ready] using h
      exact needReady_of_not_ready ready _
  | _ => cases h

/-- An ill-formed command whose state precondition holds is answered with its first bad operand. -/
theorem exec_of_illFormed {i : Instr} (bad : i.wf = false) (h : precondition i.opcode s = none) :
    exec i s = takeFault (badOperand (firstBad i)) s := by
  cases i with
  | setWaveform code =>
    have : 5 ≤ code.toNat := by
      simpa [Instr.wf, Instr.kindNamed, Instr.framesExact, Instr.numsFinite, Instr.numWords] using bad
    exact withKind_of_unnamed this s _
  | setFreq | setAmp | setDuty | spaF2b | spaB2f => exact withNum_of_bad bad _
  | setFm | setAm | setDcm | setFilter | setCutoffLfo | setResLfo => exact withNum2_of_bad bad _
  | fltStep => exact withNum3_of_bad bad _
  | fifoWrite => exact withFrames_of_bad bad _
  | spaProcess =>
    have ready : s.spa.ready = true := by simpa [precondition, Instr.opcode] using h
    exact (needReady_of_ready ready _).trans (withFrames_of_bad bad _)
  | _ => cases bad

end BadOperands

/-- Settles O12: the state precondition's fault, or else that of the operand checks. -/
theorem illFormedCommandFaults : Obligations.IllFormedCommandFaults :=
  fun _ _ bad => ⟨exec_of_illFormed bad, fun _ => exec_of_precondition⟩

open Machine in
/-- Settles O9: a code that names a kind passes the check of `withKind`, and the command is then a
`setGroup`. -/
theorem setWaveformEffect : Obligations.SetWaveformEffect := by
  refine ⟨rfl, fun code s kind h => ?_, fun code s unnamed => withKind_of_unnamed unnamed s _⟩
  have named : kindOfCode code = some kind := by
    simp only [List.mem_cons, Prod.mk.injEq, List.not_mem_nil, or_false] at h
    obtain ⟨rfl, rfl⟩ | ⟨rfl, rfl⟩ | ⟨rfl, rfl⟩ | ⟨rfl, rfl⟩ | ⟨rfl, rfl⟩ := h <;> rfl
  change withKind code s _ = _
  rw [withKind, named]
  exact setGroup_eq _ s

/-! ### A block is a snapshot and its samples (rules R79, R145) -/

section Block

open Machine Machine.Laws Safety

variable {c : Config} {p : Params} {s t u : State} {base : RNum} {frame : Frame}

/-- No sample looks at the outputs. -/
theorem baseWave_withOut {d : RNum} (o : Output) (h : baseWave c p d s = .ok (base, t)) :
    baseWave c p d (s.withOut o) = .ok (base, t.withOut o) := by
  rcases baseWave_ok h with ⟨not_pink, rfl⟩ | ⟨pink, stepped⟩
  · unfold baseWave at h ⊢
    cases hw : p.waveform <;> rw [hw] at h
    case pink => exact absurd hw not_pink
    all_goals (cases h; rfl)
  · obtain ⟨idx_lt, _, _, rfl, rfl, rfl, rfl⟩ := pinkStep_ok stepped
    exact (baseWave_pink pink d _).trans (pinkStep_eq_ok (s := s.withOut o) idx_lt)

theorem sampleStep_withOut (o : Output) (h : sampleStep c p s = .ok (frame, u)) :
    sampleStep c p (s.withOut o) = .ok (frame, u.withOut o) := by
  obtain ⟨base, t, -, hb, -, -, -, -⟩ := sampleStep_ok h
  rw [sampleStep_eq_ok hb] at h
  cases h
  exact sampleStep_eq_ok (baseWave_withOut o hb)

theorem perform_cons {i : Instr} {is : List Instr} {rs : List Reply} (ht : exec i s = .next t)
    (hu : perform is t = some (rs, u)) : perform (i :: is) s = some (t.out.reply :: rs, u) := by
  simp only [perform, ht, hu]

/-- Commands `OSC_SAMPLE` one after another take the sample steps of a block; each drives the outputs
anew, so they end in the block's state with outputs of their own. -/
theorem perform_oscSamples {n : ℕ} {frames : List Frame} (snap : s.snap = some p)
    (h : sampleSteps Config.current p n s = .ok (frames, u)) (o : Output) :
    ∃ o', perform (List.replicate n .oscSample) (s.withOut o) =
      some (frames.map fun f => .results (frameResults [f]), u.withOut o') := by
  induction n generalizing s frames o with
  | zero => cases h; exact ⟨o, rfl⟩
  | succ n ih =>
    obtain ⟨frame, t, rest, sampled, others, rfl⟩ := sampleSteps_succ_ok h
    have snap_t : t.snap = some p := by rw [sampleStep_frame sampled, ← snap]
    have first := execOscSample_eq (s := s.withOut o) snap (sampleStep_withOut o sampled)
    obtain ⟨o', performed⟩ := ih snap_t others ⟨_, .results (frameResults [frame]), Events.none⟩
    exact ⟨o', perform_cons first performed⟩

end Block

open Machine Machine.Laws in
/-- Settles O36: the block's sample steps are those of the sequence, which starts from the same snapshot
and differs in the outputs alone. -/
theorem blockIsSnapThenSamples : Obligations.BlockIsSnapThenSamples := by
  intro s p written idx_lt
  obtain ⟨frames, u, block⟩ :=
    sampleSteps_of_lt (s := s.withSnap p) p Config.current.blockFrames idx_lt
  have snapped : exec .oscSnap s = complete [] Events.none (s.withSnap p) :=
    needParams_of_written written _
  have blocked : exec .oscBlock s = complete (frameResults frames) Events.none u := by
    change needParams s _ = _
    rw [needParams_of_written written, block]
  obtain ⟨o, performed⟩ := perform_oscSamples rfl block ⟨s.out.agent, .results [], Events.none⟩
  exact ⟨_, u.withOut o, frames, blocked, perform_cons snapped performed, rfl, rfl⟩

end Sys2Proof.Proofs

namespace Sys2Proof.Proofs

/-- Settles O10: a finite operand passes the check of `withNum`, and each command is then a `setGroup`. -/
theorem singleSettersEffect : Obligations.SingleSettersEffect :=
  ⟨fun _ => ⟨rfl, rfl, rfl⟩, fun _ s => ⟨setGroup_eq _ s, setGroup_eq _ s, setGroup_eq _ s⟩⟩

/-! ### Modulators that are off (rules R101, R132, R133, R136, R137, R139) -/

section ModulatorsOff

open Machine Machine.Laws

variable {c : Config} {p : Params} {s t u : State} {frame : Frame} {ρ : Env}

/-- The on/off test of a modulator whose frequency is at or below 0 takes the off branch (decision D10). -/
theorem eval_ifPos_of_nonpos {f : RNum} (off : f.eval ρ ≤ 0) (x y : RNum) :
    (RNum.ifPos f x y).eval ρ = y.eval ρ := by
  rw [RNum.eval_ifPos, if_neg off.not_gt]

theorem eval_frequencyMod_of_off (off : p.fmFreq.eval ρ ≤ 0) (o : OscState) :
    (frequencyMod p o).eval ρ = 0 := by
  simp [frequencyMod, eval_ifPos_of_nonpos off]

theorem eval_amplitudeMod_of_off (off : p.amFreq.eval ρ ≤ 0) (o : OscState) :
    (amplitudeMod p o).eval ρ = 1 := by
  simp [amplitudeMod, eval_ifPos_of_nonpos off]

theorem eval_effectiveDuty_of_off (off : p.dcmFreq.eval ρ ≤ 0) (o : OscState) :
    (effectiveDuty p o).eval ρ = p.dutyCycle.eval ρ :=
  eval_ifPos_of_nonpos off _ _

theorem eval_advanceModulator_of_off {freq : RNum} (off : freq.eval ρ ≤ 0) (phase : RNum) :
    (advanceModulator freq phase).eval ρ = phase.eval ρ :=
  eval_ifPos_of_nonpos off _ _

theorem eval_filterLfos_cutoffMod_of_off (off : p.cutoffLfoFreq.eval ρ ≤ 0) (f : FltState) :
    (filterLfos p f).cutoffMod.eval ρ = 0 := by
  simp [filterLfos, eval_ifPos_of_nonpos off]

theorem eval_filterLfos_resMod_of_off (off : p.resLfoFreq.eval ρ ≤ 0) (f : FltState) :
    (filterLfos p f).resMod.eval ρ = 0 := by
  simp [filterLfos, eval_ifPos_of_nonpos off]

/-! The filter's step reads the modulation scalars and does not write them (rule R161). -/

@[simp] theorem ladderStep_cutoffMod (c : Config) (x fc r : RNum) (f : FltState) :
    (ladderStep c x fc r f).cutoffMod = f.cutoffMod := by
  unfold ladderStep cascade
  split <;> rfl

@[simp] theorem ladderStep_resMod (c : Config) (x fc r : RNum) (f : FltState) :
    (ladderStep c x fc r f).resMod = f.resMod := by
  unfold ladderStep cascade
  split <;> rfl

/-- The waveform touches no modulator's phase, so a sample step advances each from where it stood. -/
theorem sampleStep_modulatorPhases (h : sampleStep c p s = .ok (frame, u)) :
    u.osc.fmPhase = advanceModulator p.fmFreq s.osc.fmPhase ∧
      u.osc.amPhase = advanceModulator p.amFreq s.osc.amPhase ∧
      u.osc.dcmPhase = advanceModulator p.dcmFreq s.osc.dcmPhase := by
  obtain ⟨base, t, f, hb, -, -, -, rfl⟩ := sampleStep_ok h
  rw [baseWave_frame hb]
  exact ⟨rfl, rfl, rfl⟩

/-- Neither the waveform nor the ladder touches what the filter's LFOs write. -/
theorem sampleStep_filterLfos (h : sampleStep c p s = .ok (frame, u)) :
    u.flt.cutoffMod = (filterLfos p s.flt).cutoffMod ∧
      u.flt.cutoffLfoPhase = advanceModulator p.cutoffLfoFreq s.flt.cutoffLfoPhase ∧
      u.flt.resMod = (filterLfos p s.flt).resMod ∧
      u.flt.resLfoPhase = advanceModulator p.resLfoFreq s.flt.resLfoPhase := by
  obtain ⟨base, t, f, hb, rfl, -, -, rfl⟩ := sampleStep_ok h
  rw [baseWave_frame hb]
  exact ⟨ladderStep_cutoffMod .., ladderStep_cutoffLfoPhase .., ladderStep_resMod ..,
    ladderStep_resLfoPhase ..⟩

/-- An `OSC_SAMPLE` that answers from a snapshot has taken one sample step and driven the outputs. -/
theorem execOscSample_next (snap : s.snap = some p) (h : exec .oscSample s = .next t) :
    ∃ frame u o, sampleStep Config.current p s = .ok (frame, u) ∧ t = u.withOut o := by
  change needSnap s _ = _ at h
  rw [needSnap_of_some snap] at h
  split at h
  · cases h
  · next frame u sampled =>
    cases h
    exact ⟨frame, u, _, sampled, rfl⟩

end ModulatorsOff

open Machine.Laws in
/-- Settles O41: every modulator stands behind the same on/off test, which takes its off branch; the
sample step writes that branch's value to each register. -/
theorem modulatorsOffAreNeutral : Obligations.ModulatorsOffAreNeutral := by
  intro ρ s t p _ snap fm_off am_off dcm_off cutoff_off res_off h
  obtain ⟨frame, u, o, sampled, rfl⟩ := execOscSample_next snap h
  obtain ⟨fmPhase, amPhase, dcmPhase⟩ := sampleStep_modulatorPhases sampled
  obtain ⟨cutoffMod, cutoffPhase, resMod, resPhase⟩ := sampleStep_filterLfos sampled
  refine ⟨eval_frequencyMod_of_off fm_off _, eval_amplitudeMod_of_off am_off _,
    eval_effectiveDuty_of_off dcm_off _, ?_⟩
  rw [withOut_osc, withOut_flt, fmPhase, amPhase, dcmPhase, cutoffMod, cutoffPhase, resMod, resPhase]
  exact ⟨eval_advanceModulator_of_off fm_off _, eval_advanceModulator_of_off am_off _,
    eval_advanceModulator_of_off dcm_off _, eval_advanceModulator_of_off cutoff_off _,
    eval_advanceModulator_of_off res_off _, eval_filterLfos_cutoffMod_of_off cutoff_off _,
    eval_filterLfos_resMod_of_off res_off _⟩

end Sys2Proof.Proofs

namespace Sys2Proof.Proofs

/-! ### The FIFO's commands (rules R110 to R118, R229) -/

section FifoCommands

open Sys2Proof.Machine Sys2Proof.Machine.Laws Sys2Proof.Safety

variable {c : Config} {oc : Opcode} {s t u : State} {data : List Frame} {n : ℕ}

/-! What `FIFO_WRITE` accepts and stores (rules R112, R117). -/

/-- The words of finite frames pass the operand check. -/
theorem execFifoWrite_frameWords (data : List Frame) (s : State) :
    exec (.fifoWrite data.length (frameWords data)) s =
      fifoWrite Config.current data.length data s := by
  change withFrames data.length (frameWords data) s _ = _
  rw [withFrames, framesOf_frameWords]

theorem acceptedFrames_le_capacity (c : Config) (q : FifoState) (n : ℕ) :
    acceptedFrames c q n ≤ c.capacity :=
  (Nat.min_le_right _ _).trans (Nat.sub_le _ _)

theorem length_take_acceptedFrames (c : Config) (q : FifoState) (data : List Frame) :
    (data.take (acceptedFrames c q data.length)).length = acceptedFrames c q data.length :=
  List.length_take_of_le (Nat.min_le_left _ _)

/-- The slots a transfer names hold the accepted frames, in order. -/
theorem slot_accepted (q : FifoState) (m : Memory Frame) (cursor : ℕ) {j : ℕ}
    (hj : j < acceptedFrames c q data.length) :
    slot (writtenSlots c m cursor (data.take (acceptedFrames c q data.length)))
      ((cursor + j) % c.capacity) = data.getD j Frame.silence := by
  have fits := (length_take_acceptedFrames c q data).trans_le (acceptedFrames_le_capacity c q _)
  have hj_take := hj.trans_eq (length_take_acceptedFrames c q data).symm
  have hj_data : j < data.length := hj.trans_le (Nat.min_le_left _ _)
  rw [slot_writtenSlots_of_lt fits hj_take, List.getElem_take, List.getD_eq_getElem _ _ hj_data]

theorem slot_not_accepted (q : FifoState) (m : Memory Frame) (cursor : ℕ) {i : ℕ}
    (hi : ∀ j < acceptedFrames c q data.length, (cursor + j) % c.capacity ≠ i) :
    slot (writtenSlots c m cursor (data.take (acceptedFrames c q data.length))) i = slot m i := by
  refine slot_writtenSlots_of_ne fun j hj => hi j ?_
  rwa [length_take_acceptedFrames] at hj

/-- A write of no more frames than there is room for is accepted in full. -/
theorem fifoWrite_of_fits (fits : n ≤ c.capacity - s.fifo.count)
    (h : fifoWrite c n data s = .next t) :
    t.out.reply = .results [.nat n] ∧ t.fifo.wr = (s.fifo.wr + n) % c.capacity ∧
      t.fifo.count = s.fifo.count + n := by
  have accepted : acceptedFrames c s.fifo n = n := Nat.min_eq_left fits
  simp only [fifoWrite, accepted] at h
  cases h
  exact ⟨rfl, rfl, rfl⟩

/-! What `FIFO_READ` leaves and answers (rule R113). -/

theorem readCursor_eq_ite (c : Config) (q : FifoState) (n : ℕ) :
    readCursor c q n = if q.count < c.minFill then q.rd else (q.rd + min n q.count) % c.capacity := by
  simp [readCursor, fifoStarved]

theorem count_sub_takenFrames (c : Config) (q : FifoState) (n : ℕ) :
    q.count - takenFrames c q n =
      if q.count < c.minFill then q.count else q.count - min n q.count := by
  split
  · next starved => rw [takenFrames_of_starved starved, Nat.sub_zero]
  · next filled => rw [takenFrames_of_filled filled]

theorem readFrames_length (c : Config) (s : State) (n : ℕ) : (readFrames c s n).length = n := by
  have taken_le : takenFrames c s.fifo n ≤ n := by
    unfold takenFrames
    split <;> omega
  rw [readFrames, List.length_append, slotFrames_length, List.length_replicate]
  omega

/-- The taken frames stand first, then silence. -/
theorem readFrames_getElem? (c : Config) (s : State) {j : ℕ} (hj : j < n) :
    (readFrames c s n)[j]? = some
      (if j < takenFrames c s.fifo n then slot s.store ((s.fifo.rd + j) % c.capacity)
      else Frame.silence) := by
  rw [readFrames, List.getElem?_append, slotFrames_length]
  split
  · next taken => simp [slotFrames, taken]
  · next not_taken => rw [List.getElem?_replicate, if_pos (by omega)]

/-! The invariant and the level under the FIFO's commands. -/

theorem fifoOk_of_cleared (hc : 0 < c.capacity) (wr : s.fifo.wr = 0) (rd : s.fifo.rd = 0)
    (count : s.fifo.count = 0) : FifoOk c s.fifo :=
  ⟨count ▸ hc.le, wr ▸ hc, rd ▸ hc, by rw [rd, count, wr, Nat.zero_mod]⟩

theorem fifoOk_of_reaches (h : Reaches c oc s t) (hs : FifoOk c s.fifo) : FifoOk c t.fifo := by
  obtain ⟨u, o, effect, -, rfl⟩ := h
  rw [withOut_fifo]
  exact effect_fifoOk effect hs

/-- A write that fits appends all its frames to the queue. -/
theorem fifoWrite_appends (hs : FifoOk c s.fifo) (length : data.length = n)
    (fits : n ≤ c.capacity - s.fifo.count) (h : fifoWrite c n data s = .next t) :
    FifoOk c t.fifo ∧ storedFrames c t = storedFrames c s ++ data := by
  subst length
  refine ⟨fifoOk_of_reaches (reaches_complete (.write data _ rfl) h) hs, ?_⟩
  rw [storedFrames_fifoWrite hs h, List.take_of_length_le fits]

/-- A read of no more frames than are stored, where `MIN_FILL` is met, takes them off the queue's
front. -/
theorem fifoRead_takes (hs : FifoOk c s.fifo) (filled : c.minFill ≤ s.fifo.count)
    (stored : n ≤ s.fifo.count) (h : fifoRead c n s = .next t) :
    FifoOk c t.fifo ∧ t.fifo.wr = s.fifo.wr ∧ t.fifo.count = s.fifo.count - n ∧
      storedFrames c t = (storedFrames c s).drop n ∧
      t.out.reply = .results (frameResults ((storedFrames c s).take n)) := by
  have taken : takenFrames c s.fifo n = n :=
    (takenFrames_of_filled (not_lt.2 filled) n).trans (Nat.min_eq_left stored)
  have queue := storedFrames_fifoRead hs h
  have reply := fifoRead_reply h
  rw [readFrames_eq, taken, Nat.sub_self, List.replicate_zero, List.append_nil] at reply
  rw [taken] at queue
  have ok : FifoOk c t.fifo := fifoOk_of_reaches (reaches_complete (s := s) (.read n) h) hs
  cases h
  exact ⟨ok, rfl, congrArg (s.fifo.count - ·) taken, queue, reply⟩

theorem effect_count_le (h : Effect c s oc u) (hoc : oc ≠ .fifoWrite) :
    u.fifo.count ≤ s.fifo.count := by
  cases h with
  | write => exact absurd rfl hoc
  | clear => exact Nat.zero_le _
  | read n => exact Nat.sub_le _ _
  | sample p frame u _ ok => rw [sampleStep_frame ok]
  | block p frames u _ ok => rw [sampleSteps_frame ok]; rfl
  | _ => exact le_rfl

/-- Writes that fit one after another are each accepted in full (rule R116 (a)). -/
theorem perform_fifoWrites (blocks : List (List Frame)) (s : State)
    (fits : s.fifo.count + (blocks.map List.length).sum ≤ Config.current.capacity) :
    ∃ t, perform (blocks.map fun b => .fifoWrite b.length (frameWords b)) s =
        some (blocks.map fun b => .results [.nat b.length], t) ∧
      t.fifo.count = s.fifo.count + (blocks.map List.length).sum := by
  induction blocks generalizing s with
  | nil => exact ⟨s, rfl, rfl⟩
  | cons block blocks ih =>
    rw [List.map_cons (f := List.length), List.sum_cons, ← Nat.add_assoc] at fits ⊢
    obtain ⟨t, written⟩ : ∃ t, fifoWrite Config.current block.length block s = .next t := ⟨_, rfl⟩
    obtain ⟨reply, -, count⟩ := fifoWrite_of_fits (by omega) written
    rw [← count] at fits ⊢
    obtain ⟨u, performed, total⟩ := ih t fits
    refine ⟨u, ?_, total⟩
    rw [List.map_cons, List.map_cons, ← reply]
    exact perform_cons ((execFifoWrite_frameWords block s).trans written) performed

end FifoCommands

open Machine.Laws in
/-- Settles O21: the cursors stand at 0 after reset, and every effect keeps the invariant. -/
theorem fifoInvariantKept : Obligations.FifoInvariantKept :=
  ⟨stateOk_reset.fifo, fun _ _ hs h =>
    step_keeps (fun s => Safety.FifoOk Config.current s.fifo) (fun _ _ => id) (fun _ _ => id)
      (fun _ _ _ => effect_fifoOk) h hs⟩

/-- Settles O23: the store left is `writtenSlots` of the accepted frames. -/
theorem fifoWriteEffect : Obligations.FifoWriteEffect :=
  ⟨fun _ _ => rfl, fun s data => ⟨_, execFifoWrite_frameWords data s,
    fun _ => slot_accepted s.fifo s.store s.fifo.wr,
    fun _ => slot_not_accepted s.fifo s.store s.fifo.wr⟩⟩

open Machine in
/-- Settles O24: the frames answered are `readFrames`, of which `takenFrames` come from the store. -/
theorem fifoReadEffect : Obligations.FifoReadEffect := by
  refine ⟨fun _ => rfl, fun s n => ⟨readFrames Config.current s n, ?_, readFrames_length _ s n, ?_⟩⟩
  · rw [← readCursor_eq_ite, ← count_sub_takenFrames]
    rfl
  · intro j hj
    rw [readFrames_getElem? _ _ hj]
    by_cases starved : s.fifo.count < Config.current.minFill
    · rw [takenFrames_of_starved starved, if_neg j.not_lt_zero, if_pos starved]
      rfl
    · rw [takenFrames_of_filled starved, if_neg starved]
      rfl

/-- Settles O27: the room that is left shrinks by each block. -/
theorem writesThatFitAccumulate : Obligations.WritesThatFitAccumulate := by
  intro s blocks _ cleared fits
  rw [← Nat.zero_add (blocks.map List.length).sum, ← cleared] at fits ⊢
  exact perform_fifoWrites blocks s fits

open Machine Machine.Laws in
/-- Settles O28: each write appends to the queue of stored frames and the read takes off its front; the
two writes together move the write cursor once round. -/
theorem wraparoundRoundTrip : Obligations.WraparoundRoundTrip := by
  intro c s first second valid four_dvd minFill_le wr rd count first_length second_length
  have capacity_pos : 0 < c.capacity := ((valid_iff c).1 valid).1
  obtain ⟨k, capacity⟩ := four_dvd
  have half : c.capacity / 2 = 2 * k := by omega
  have quarter : c.capacity / 4 = k := by omega
  rw [half] at first_length second_length minFill_le ⊢
  rw [quarter]
  obtain ⟨t, written⟩ : ∃ t, fifoWrite c (2 * k) first s = .next t := ⟨_, rfl⟩
  obtain ⟨u, read⟩ : ∃ u, fifoRead c k t = .next u := ⟨_, rfl⟩
  obtain ⟨v, rewritten⟩ : ∃ v, fifoWrite c (2 * k) second u = .next v := ⟨_, rfl⟩
  have ok_s : Safety.FifoOk c s.fifo := fifoOk_of_cleared capacity_pos wr rd count
  have stored_s : storedFrames c s = [] :=
    List.eq_nil_of_length_eq_zero ((storedFrames_length c s).trans count)
  obtain ⟨reply_t, wr_t, count_t⟩ := fifoWrite_of_fits (by omega) written
  obtain ⟨ok_t, stored_t⟩ := fifoWrite_appends ok_s first_length (by omega) written
  obtain ⟨ok_u, wr_u, count_u, stored_u, reply_u⟩ := fifoRead_takes ok_t (by omega) (by omega) read
  obtain ⟨reply_v, wr_v, count_v⟩ := fifoWrite_of_fits (by omega) rewritten
  obtain ⟨-, stored_v⟩ := fifoWrite_appends ok_u second_length (by omega) rewritten
  rw [stored_t, stored_s, List.nil_append] at stored_u reply_u
  rw [stored_u] at stored_v
  have wrapped : v.fifo.wr = 0 := by
    rw [wr_v, wr_u, wr_t, Nat.mod_add_mod, wr, Nat.zero_add, ← Nat.two_mul, ← Nat.mul_assoc,
      capacity, Nat.mod_self]
  exact ⟨t, u, v, written, reply_t, read, reply_u, rewritten, reply_v, wrapped, by omega, stored_v⟩

/-- Settles O29: no effect but a write adds frames, and the room is no smaller than it was when the level
was read. -/
theorem levelOnlyFallsWithoutWrites : Obligations.LevelOnlyFallsWithoutWrites := by
  refine ⟨fun i s t hi h => ?_, fun level s t data level_ge fits h => ?_⟩
  · obtain ⟨u, o, effect, -, rfl⟩ := Machine.Laws.exec_reaches h
    exact (effect_count_le effect hi :)
  · rw [execFifoWrite_frameWords] at h
    exact (fifoWrite_of_fits (fits.trans (Nat.sub_le_sub_left level_ge _)) h).1

/-- Settles O22: an empty list of slots reads silence everywhere. -/
theorem fifoClearEffect : Obligations.FifoClearEffect :=
  ⟨rfl, fun _ => ⟨_, rfl, fun _ => rfl⟩⟩

/-- Settles O25: the command only drives the outputs. -/
theorem fifoLevelAnswersCount : Obligations.FifoLevelAnswersCount :=
  ⟨rfl, fun _ => rfl⟩

/-! ### No step is disabled (rules R118, R199, R200) -/

section Progress

open Sys2Proof.Machine Sys2Proof.Machine.Laws Sys2Proof.Safety

variable {α : Type} {c : Config} {s : State}

/-- The answer is a next state: no fault of the host's interface and no refusal. -/
def Completes (x : Result) : Prop := ∃ t, x = .next t

theorem complete_completes (rs : List Operand) (ev : Events) (s : State) :
    Completes (complete rs ev s) := ⟨_, rfl⟩

theorem takeFault_completes (r : FaultReport) (s : State) : Completes (takeFault r s) := ⟨_, rfl⟩

/-! Each check hands on or takes a fault, which is a next state. -/

theorem withKind_completes {code : BitVec 3} {k : Kind → Result} (hk : ∀ x, Completes (k x)) :
    Completes (withKind code s k) := by
  unfold withKind
  split
  · exact hk _
  · exact takeFault_completes _ s

theorem withNumAt_completes {position : ℕ} {w : NumWord} {k : RNum → Result}
    (hk : ∀ x, Completes (k x)) : Completes (withNumAt position w s k) := by
  cases w with
  | finite x => exact hk x
  | nonFinite => exact takeFault_completes _ s

theorem withNum2_completes {a b : NumWord} {k : RNum → RNum → Result}
    (hk : ∀ x y, Completes (k x y)) : Completes (withNum2 a b s k) :=
  withNumAt_completes fun x => withNumAt_completes (hk x)

theorem withFrames_completes {n : ℕ} {ws : List NumWord} {k : List Frame → Result}
    (hk : ∀ fs, Completes (k fs)) : Completes (withFrames n ws s k) := by
  unfold withFrames
  split
  · exact hk _
  · exact takeFault_completes _ s

theorem needParams_completes {k : Params → Result} (hk : ∀ p, Completes (k p)) :
    Completes (needParams s k) := by
  unfold needParams
  split
  · exact hk _
  · exact takeFault_completes _ s

theorem needSnap_completes {k : Params → Result} (hk : ∀ p, Completes (k p)) :
    Completes (needSnap s k) := by
  unfold needSnap
  split
  · exact hk _
  · exact takeFault_completes _ s

theorem needReady_completes {k : Result} (hk : s.spa.ready = true → Completes k) :
    Completes (needReady s k) := by
  unfold needReady
  split
  · next ready => exact hk ready
  · exact takeFault_completes _ s

/-! The commands that can stop, in a state that meets the invariant. -/

theorem oscSample_completes (idx_lt : s.osc.pinkIdx < c.pinkTaps) : Completes (oscSample c s) := by
  refine needSnap_completes fun p => ?_
  obtain ⟨frame, u, sampled⟩ := sampleStep_of_lt p idx_lt
  rw [sampled]
  exact complete_completes _ _ u

theorem oscBlock_completes (idx_lt : s.osc.pinkIdx < c.pinkTaps) : Completes (oscBlock c s) := by
  refine needParams_completes fun p => ?_
  obtain ⟨frames, u, sampled⟩ := sampleSteps_of_lt (s := s.withSnap p) p c.blockFrames idx_lt
  rw [sampled]
  exact complete_completes _ _ u

theorem fetch_of_written {m : Memory α} {i : ℕ} (h : Written m i) (space : Space) :
    ∃ v, Memory.fetch space m i = .ok v := by
  obtain ⟨v, read⟩ := h
  exact ⟨v, by rw [Memory.fetch, read]⟩

theorem fetchAll_of_written {m : Memory α} {n : ℕ} (h : ∀ i < n, Written m i) (space : Space) :
    ∃ vs, Memory.fetchAll space m n = .ok vs := by
  induction n with
  | zero => exact ⟨[], rfl⟩
  | succ n ih =>
    obtain ⟨vs, before⟩ := ih fun i hi => h i (hi.trans n.lt_succ_self)
    obtain ⟨v, last⟩ := fetch_of_written (h n n.lt_succ_self) space
    exact ⟨vs ++ [v], by simp only [Memory.fetchAll, before, last]⟩

theorem spaProcess_completes (ready : s.spa.ready = true) (ok : AnalyzerOk c s.spa)
    (frames : List Frame) : Completes (spaProcess c frames s) := by
  obtain ⟨power, written⟩ := ok.power ready
  obtain ⟨win, win_read⟩ := fetchAll_of_written (ok.win ready) .win
  obtain ⟨old, smooth_read⟩ := fetchAll_of_written (ok.smooth ready) .smooth
  unfold spaProcess
  simp only [processFrames, written, win_read, smooth_read]
  exact complete_completes _ _ _

theorem spaRead_completes (ready : s.spa.ready = true) (ok : AnalyzerOk c s.spa) (k : ℕ) :
    Completes (spaRead c k s) := by
  unfold spaRead
  split
  · exact takeFault_completes _ s
  · next in_range =>
    have hk : k < c.bins := Nat.lt_succ_of_le (not_lt.1 in_range)
    obtain ⟨raw, raw_read⟩ := fetch_of_written (ok.raw ready k hk) .raw
    obtain ⟨smooth, smooth_read⟩ := fetch_of_written (ok.smooth ready k hk) .smooth
    rw [raw_read, smooth_read]
    exact complete_completes _ _ s

/-- Every command completes where the tap index exists and a constructed analyzer is written. -/
theorem exec_completes (i : Instr) (idx_lt : s.osc.pinkIdx < Config.current.pinkTaps)
    (analyzer : AnalyzerOk Config.current s.spa) : Completes (exec i s) := by
  cases i with
  | setWaveform => exact withKind_completes fun _ => complete_completes _ _ _
  | setFreq | setAmp | setDuty | spaF2b | spaB2f =>
    exact withNumAt_completes fun _ => complete_completes _ _ _
  | setFm | setAm | setDcm | setFilter | setCutoffLfo | setResLfo =>
    exact withNum2_completes fun _ _ => complete_completes _ _ _
  | fifoClear | fifoRead | fifoLevel | oscReset | fltReset | spaInit =>
    exact complete_completes _ _ _
  | fifoWrite => exact withFrames_completes fun _ => complete_completes _ _ _
  | oscSnap => exact needParams_completes fun _ => complete_completes _ _ _
  | oscSample => exact oscSample_completes idx_lt
  | oscBlock => exact oscBlock_completes idx_lt
  | fltStep =>
    exact withNumAt_completes fun _ => withNumAt_completes fun _ => withNumAt_completes fun _ =>
      complete_completes _ _ _
  | spaProcess =>
    exact needReady_completes fun ready => withFrames_completes (spaProcess_completes ready analyzer)
  | spaRead k => exact needReady_completes fun ready => spaRead_completes ready analyzer k

end Progress

open Machine.Laws in
/-- Settles O59: a step is idle, rejects a transaction with a fault report, or performs a command. -/
theorem noStepIsDisabled : Obligations.NoStepIsDisabled := by
  intro s hs
  unfold Safety.StepSafe Machine.step
  split
  · exact ⟨_, rfl⟩
  · split
    · exact exec_completes _ hs.pinkIdx hs.analyzer
    · obtain ⟨report, rejected⟩ := performReject_eq _ _
      exact ⟨_, rejected⟩

end Sys2Proof.Proofs

namespace Sys2Proof.Proofs

/-! ### The tabulated waveforms (rules R134, R146) -/

section Waves

open Sys2Proof.Machine Sys2Proof.Machine.Laws

variable {c : Config} {p : Params} {ρ : Env} {θ : RNum} {turns : ℝ}

theorem eval_waveSine (ρ : Env) (θ : RNum) : (waveSine θ).eval ρ = Real.sin (θ.eval ρ) :=
  RNum.eval_sin ρ θ

theorem eval_waveSquare (ρ : Env) (θ d : RNum) :
    (waveSquare θ d).eval ρ = if θ.eval ρ ≤ d.eval ρ * (2 * Real.pi) then 1 else -1 := by
  simp [waveSquare]

theorem eval_waveSaw (ρ : Env) (θ : RNum) : (waveSaw θ).eval ρ = θ.eval ρ / Real.pi - 1 := by
  simp [waveSaw]

theorem eval_waveTriangle (ρ : Env) (θ : RNum) :
    (waveTriangle θ).eval ρ =
      if θ.eval ρ / (2 * Real.pi) < 0.5 then 4 * (θ.eval ρ / (2 * Real.pi)) - 1
      else 3 - 4 * (θ.eval ρ / (2 * Real.pi)) := by
  norm_num [waveTriangle]

/-! At a phase given in turns, π cancels. -/

theorem eval_waveSquare_of_turns (h : θ.eval ρ = turns * (2 * Real.pi)) (d : RNum) :
    (waveSquare θ d).eval ρ = if turns ≤ d.eval ρ then 1 else -1 := by
  simp only [eval_waveSquare, h, mul_le_mul_iff_of_pos_right Real.two_pi_pos]

theorem eval_waveSaw_of_turns (h : θ.eval ρ = turns * (2 * Real.pi)) :
    (waveSaw θ).eval ρ = 2 * turns - 1 := by
  rw [eval_waveSaw, h]
  field_simp

theorem eval_waveTriangle_of_turns (h : θ.eval ρ = turns * (2 * Real.pi)) :
    (waveTriangle θ).eval ρ = if turns < 0.5 then 4 * turns - 1 else 3 - 4 * turns := by
  rw [eval_waveTriangle, h, mul_div_cancel_right₀ _ Real.two_pi_pos.ne']

/-- The four tabulated waveforms at a phase given in turns: only the sine's value needs the phase. -/
theorem waves_of_turns {sine saw triangle : ℝ} (h : θ.eval ρ = turns * (2 * Real.pi))
    (sine_eq : Real.sin (θ.eval ρ) = sine) (saw_eq : 2 * turns - 1 = saw)
    (triangle_eq : (if turns < 0.5 then 4 * turns - 1 else 3 - 4 * turns) = triangle) (d : RNum) :
    (waveSine θ).eval ρ = sine ∧ (waveSaw θ).eval ρ = saw ∧ (waveTriangle θ).eval ρ = triangle ∧
      (waveSquare θ d).eval ρ = if turns ≤ d.eval ρ then 1 else -1 :=
  ⟨(eval_waveSine ρ θ).trans sine_eq, (eval_waveSaw_of_turns h).trans saw_eq,
    (eval_waveTriangle_of_turns h).trans triangle_eq, eval_waveSquare_of_turns h d⟩

/-- A waveform other than pink is the tabulated one, and computing it leaves the state alone. -/
theorem baseWave_of_not_pink (not_pink : p.waveform ≠ .pink) (c : Config) (d : RNum) (s : State) :
    ∃ base, baseWave c p d s = .ok (base, s) ∧
      ∀ ρ, Ideal.wave (s.osc.phase.eval ρ) (d.eval ρ) p.waveform = some (base.eval ρ) := by
  unfold baseWave
  cases hw : p.waveform with
  | sine => exact ⟨_, rfl, fun ρ => congrArg some (eval_waveSine ρ _).symm⟩
  | square => exact ⟨_, rfl, fun ρ => congrArg some (eval_waveSquare ρ _ d).symm⟩
  | saw => exact ⟨_, rfl, fun ρ => congrArg some (eval_waveSaw ρ _).symm⟩
  | triangle => exact ⟨_, rfl, fun ρ => congrArg some (eval_waveTriangle ρ _).symm⟩
  | pink => exact absurd hw not_pink

theorem eval_effectiveDuty (ρ : Env) (p : Params) (o : OscState) :
    (effectiveDuty p o).eval ρ = Ideal.duty (Ideal.params ρ p) (Ideal.phases ρ o) := by
  norm_num [effectiveDuty, Ideal.duty, Ideal.clamp, Ideal.params, Ideal.phases, Const.dutyMin,
    Const.dutyMax]

end Waves

open Machine in
/-- Settles O33: the waveform leaves the state alone, and the rest of the sample step has the values
of its parts. -/
theorem oscSampleComputesSample : Obligations.OscSampleComputesSample := by
  refine ⟨rfl, fun s p snap not_pink => ?_⟩
  obtain ⟨value, waved, tabulated⟩ :=
    baseWave_of_not_pink not_pink Config.current (effectiveDuty p s.osc) s
  refine ⟨_, _, _, execOscSample_eq snap (sampleStep_eq_ok waved), rfl, rfl, ?_⟩
  rintro ρ base - base_eq
  rw [← eval_effectiveDuty, tabulated ρ] at base_eq
  obtain rfl := Option.some.inj base_eq
  exact ⟨phases_advancePhases ρ p s.osc, flt_sampledFlt ρ _ p value s.flt,
    eval_sampleOut ρ _ p value s.osc s.flt⟩

/-- Settles O40: the reference phases are 0, 1/4, 1/2 and 3/4 of a turn; the flip is the square wave's
test. -/
theorem waveformsAtReferencePhases : Obligations.WaveformsAtReferencePhases := by
  intro ρ θ d
  refine ⟨fun start => ?_, fun quarter => ?_, fun half => ?_, fun three_quarters => ?_,
    fun below => ?_, fun above => ?_, fun duty => ⟨fun below => ?_, fun above => ?_⟩⟩
  · obtain ⟨sine, saw, triangle, square⟩ := waves_of_turns (turns := 0) (saw := -1) (triangle := -1)
      (by rw [start, zero_mul]) (by rw [start, Real.sin_zero]) (by norm_num) (by norm_num) d
    exact ⟨sine, saw, triangle, fun nonneg => square.trans (if_pos nonneg)⟩
  · exact waves_of_turns (by rw [quarter]; ring) (by rw [quarter, Real.sin_pi_div_two]) (by norm_num)
      (by norm_num) d
  · exact waves_of_turns (by rw [half]; ring) (by rw [half, Real.sin_pi]) (by norm_num)
      (by norm_num) d
  · have sine : Real.sin (θ.eval ρ) = -1 := by
      rw [three_quarters, show 3 * Real.pi / 2 = Real.pi / 2 + Real.pi by ring, Real.sin_add_pi,
        Real.sin_pi_div_two]
    exact waves_of_turns (by rw [three_quarters]; ring) sine (by norm_num) (by norm_num) d
  · rw [eval_waveSquare, if_pos below]
  · rw [eval_waveSquare, if_neg above.not_ge]
  · rw [eval_waveSquare, duty, if_pos (by linarith)]
  · rw [eval_waveSquare, duty, if_neg (by linarith)]

/-! ### The ranges of the waveforms and of the modulation values (rules R133, R135, R147) -/

section Ranges

open Finset Sys2Proof.Machine Sys2Proof.Machine.Laws Sys2Proof.Safety

variable {c : Config} {ρ : Env} {p : Params} {s t : State}

theorem wave_range {θ d x : ℝ} {kind : Kind} (nonneg : 0 ≤ θ) (lt_turn : θ < 2 * Real.pi)
    (h : Ideal.wave θ d kind = some x) : -1 ≤ x ∧ x ≤ 1 := by
  have turns_nonneg : 0 ≤ θ / (2 * Real.pi) := by positivity
  have turns_lt_one : θ / (2 * Real.pi) < 1 := (div_lt_one Real.two_pi_pos).2 lt_turn
  cases kind with
  | sine =>
    cases h
    exact ⟨Real.neg_one_le_sin θ, Real.sin_le_one θ⟩
  | square =>
    cases h
    split <;> norm_num
  | saw =>
    cases h
    have half_turns : θ / Real.pi = 2 * (θ / (2 * Real.pi)) := by field_simp
    rw [half_turns]
    constructor <;> linarith
  | triangle =>
    cases h
    split <;> constructor <;> linarith
  | pink => cases h

/-- The mean of the taps lies in the range of a white sample. -/
theorem pinkSum_mean_range (hs : PinkOk c ρ s) :
    -1 ≤ s.osc.pinkSum.eval ρ / c.pinkTaps ∧ s.osc.pinkSum.eval ρ / c.pinkTaps ≤ 1 := by
  have taps_pos : (0 : ℝ) < c.pinkTaps := Nat.cast_pos.2 (Nat.zero_lt_of_lt hs.idx)
  have lower := card_nsmul_le_sum (range c.pinkTaps) (fun i => (tap s.pink i).eval ρ) (-1)
    fun i hi => (hs.range i (mem_range.1 hi)).1
  have upper := sum_le_card_nsmul (range c.pinkTaps) (fun i => (tap s.pink i).eval ρ) 1
    fun i hi => (hs.range i (mem_range.1 hi)).2
  rw [card_range, nsmul_eq_mul, ← hs.sum] at lower upper
  rw [le_div_iff₀ taps_pos, div_le_one taps_pos]
  constructor <;> linarith

/-- A pink value is the mean of a white sample and the mean of the taps. -/
theorem pinkStep_range {base : RNum} (hρ : ρ.Valid) (hs : PinkOk c ρ s)
    (h : pinkStep c s = .ok (base, t)) : -1 ≤ base.eval ρ ∧ base.eval ρ ≤ 1 := by
  have mean := pinkSum_mean_range (pinkStep_pinkOk hρ h hs)
  have white := hρ.white_range s.whiteDraws
  rw [pinkStep_eq_ok hs.idx] at h
  cases h
  rw [eval_pinkBase, Ideal.pinkBase]
  change _ ≤ (steppedPinkSum s).eval ρ / _ ∧ (steppedPinkSum s).eval ρ / _ ≤ _ at mean
  constructor <;> linarith

/-- A modulator swings by at most its depth. -/
theorem abs_mul_sin_le (depth phase : ℝ) : |depth * Real.sin phase| ≤ |depth| := by
  rw [abs_mul]
  exact mul_le_of_le_one_right (abs_nonneg depth) (Real.abs_sin_le_one phase)

theorem abs_amplitudeMod_sub_one_le (ρ : Env) (p : Params) (o : OscState) :
    |(amplitudeMod p o).eval ρ - 1| ≤ |p.amDepth.eval ρ| := by
  rw [amplitudeMod, RNum.eval_ifPos]
  split
  · simpa using abs_mul_sin_le (p.amDepth.eval ρ) (o.amPhase.eval ρ)
  · simp

theorem abs_frequencyMod_le (ρ : Env) (p : Params) (o : OscState) :
    |(frequencyMod p o).eval ρ| ≤ |p.fmDepth.eval ρ| := by
  rw [frequencyMod, RNum.eval_ifPos]
  split
  · simpa using abs_mul_sin_le (p.fmDepth.eval ρ) (o.fmPhase.eval ρ)
  · simp

theorem eval_dutyMin (ρ : Env) : Const.dutyMin.eval ρ = 0.1 := by norm_num [Const.dutyMin]

theorem eval_dutyMax (ρ : Env) : Const.dutyMax.eval ρ = 0.9 := by norm_num [Const.dutyMax]

/-- While it is modulated, the duty is clamped. -/
theorem effectiveDuty_range (on : 0 < p.dcmFreq.eval ρ) (o : OscState) :
    0.1 ≤ (effectiveDuty p o).eval ρ ∧ (effectiveDuty p o).eval ρ ≤ 0.9 := by
  have in_order : Const.dutyMin.eval ρ ≤ Const.dutyMax.eval ρ := by
    norm_num [eval_dutyMin, eval_dutyMax]
  rw [effectiveDuty, RNum.eval_ifPos, if_pos on, ← eval_dutyMin ρ, ← eval_dutyMax ρ]
  exact RNum.clamp_range ρ _ _ _ in_order

end Ranges

open Machine.Laws in
/-- Settles O39: the tabulated waveforms stay in range over one turn, a pink step by its invariant. -/
theorem baseWaveBounded : Obligations.BaseWaveBounded := by
  intro c ρ p d base s t _ hρ phase pink_ok h
  rcases baseWave_ok h with ⟨not_pink, -⟩ | ⟨-, stepped⟩
  · obtain ⟨value, waved, tabulated⟩ := baseWave_of_not_pink not_pink c d s
    cases waved.symm.trans h
    exact wave_range phase.1 phase.2 (tabulated ρ)
  · exact pinkStep_range hρ pink_ok stepped

/-- Settles O42: a modulator that is off is neutral, one that is on swings by its depth, and the modulated
duty is clamped. -/
theorem modulatorRanges : Obligations.ModulatorRanges := fun ρ p o =>
  ⟨abs_amplitudeMod_sub_one_le ρ p o, abs_frequencyMod_le ρ p o, fun on => effectiveDuty_range on o⟩

/-! ### What a block leaves of the pink registers (rules R135, R140, R145) -/

section BlockRegisters

open Machine Machine.Laws

variable {c : Config} {p : Params} {s u : State} {frame : Frame} {frames : List Frame} {n : ℕ}

theorem sampleStep_of_not_pink (not_pink : p.waveform ≠ .pink)
    (h : sampleStep c p s = .ok (frame, u)) :
    u.pink = s.pink ∧ u.osc.pinkIdx = s.osc.pinkIdx ∧ u.whiteDraws = s.whiteDraws := by
  obtain ⟨base, t, f, hb, -, -, -, rfl⟩ := sampleStep_ok h
  rcases baseWave_ok hb with ⟨-, rfl⟩ | ⟨pink, -⟩
  · exact ⟨rfl, rfl, rfl⟩
  · exact absurd pink not_pink

theorem sampleSteps_of_not_pink (not_pink : p.waveform ≠ .pink)
    (h : sampleSteps c p n s = .ok (frames, u)) :
    u.pink = s.pink ∧ u.osc.pinkIdx = s.osc.pinkIdx ∧ u.whiteDraws = s.whiteDraws := by
  refine sampleSteps_keeps
    (fun v => v.pink = s.pink ∧ v.osc.pinkIdx = s.osc.pinkIdx ∧ v.whiteDraws = s.whiteDraws)
    (fun v _ w step ⟨pink, idx, draws⟩ => ?_) n h ⟨rfl, rfl, rfl⟩
  obtain ⟨pink', idx', draws'⟩ := sampleStep_of_not_pink not_pink step
  exact ⟨pink'.trans pink, idx'.trans idx, draws'.trans draws⟩

theorem sampleStep_of_pink (pink : p.waveform = .pink) (h : sampleStep c p s = .ok (frame, u)) :
    u.whiteDraws = s.whiteDraws + 1 ∧ u.osc.pinkIdx = (s.osc.pinkIdx + 1) % c.pinkTaps ∧
      ∀ i, s.osc.pinkIdx ≠ i → tap u.pink i = tap s.pink i := by
  obtain ⟨base, t, f, hb, -, -, -, rfl⟩ := sampleStep_ok h
  obtain ⟨-, w, sum, -, -, -, rfl⟩ := pinkStep_ok ((baseWave_pink pink _ s).symm.trans hb)
  exact ⟨rfl, rfl, fun i other => (tap_write s.pink _ i w).trans (if_neg other.symm)⟩

/-- The index goes round the taps, one tap a sample. -/
theorem sampleSteps_of_pink (pink : p.waveform = .pink) (idx_lt : s.osc.pinkIdx < c.pinkTaps)
    (h : sampleSteps c p n s = .ok (frames, u)) :
    u.whiteDraws = s.whiteDraws + n ∧ u.osc.pinkIdx = (s.osc.pinkIdx + n) % c.pinkTaps ∧
      ∀ i, (∀ j < n, (s.osc.pinkIdx + j) % c.pinkTaps ≠ i) → tap u.pink i = tap s.pink i := by
  induction n generalizing s frames with
  | zero =>
    cases h
    exact ⟨rfl, (Nat.mod_eq_of_lt idx_lt).symm, fun _ _ => rfl⟩
  | succ n ih =>
    obtain ⟨frame, t, rest, first, others, -⟩ := sampleSteps_succ_ok h
    obtain ⟨draws, idx, taps⟩ := sampleStep_of_pink pink first
    obtain ⟨draws', idx', taps'⟩ := ih (sampleStep_pinkIdx first idx_lt) others
    have advanced (j : ℕ) :
        (t.osc.pinkIdx + j) % c.pinkTaps = (s.osc.pinkIdx + (j + 1)) % c.pinkTaps := by
      rw [idx, Nat.mod_add_mod, Nat.add_assoc, Nat.add_comm 1 j]
    refine ⟨by omega, by rw [idx', advanced], fun i untouched => ?_⟩
    have not_first : s.osc.pinkIdx ≠ i := by
      simpa [Nat.mod_eq_of_lt idx_lt] using untouched 0 n.succ_pos
    have not_later (j : ℕ) (hj : j < n) : (t.osc.pinkIdx + j) % c.pinkTaps ≠ i := by
      rw [advanced]
      exact untouched (j + 1) (Nat.succ_lt_succ hj)
    exact (taps' i not_later).trans (taps i not_first)

/-- The pink registers after `n` sample steps of any waveform. -/
theorem sampleSteps_pinkRegisters (idx_lt : s.osc.pinkIdx < c.pinkTaps)
    (h : sampleSteps c p n s = .ok (frames, u)) :
    u.whiteDraws = s.whiteDraws + (if p.waveform = .pink then n else 0) ∧
      u.osc.pinkIdx = (s.osc.pinkIdx + if p.waveform = .pink then n else 0) % c.pinkTaps ∧
      (p.waveform ≠ .pink → u.pink = s.pink) ∧
      ∀ i, (∀ j < n, (s.osc.pinkIdx + j) % c.pinkTaps ≠ i) → tap u.pink i = tap s.pink i := by
  by_cases pink : p.waveform = .pink
  · obtain ⟨draws, idx, taps⟩ := sampleSteps_of_pink pink idx_lt h
    rw [if_pos pink]
    exact ⟨draws, idx, absurd pink, taps⟩
  · obtain ⟨same_pink, idx, draws⟩ := sampleSteps_of_not_pink pink h
    rw [if_neg pink, Nat.add_zero, Nat.add_zero, Nat.mod_eq_of_lt idx_lt]
    exact ⟨draws, idx, fun _ => same_pink, fun _ _ => by rw [same_pink]⟩

/-- Every frame of a block has equal channels (rule R140). -/
theorem sampleSteps_channels (h : sampleSteps c p n s = .ok (frames, u)) :
    ∀ f ∈ frames, f.right = f.left := by
  induction n generalizing s frames with
  | zero => cases h; exact fun _ hf => nomatch hf
  | succ n ih =>
    obtain ⟨frame, t, rest, first, others, rfl⟩ := sampleSteps_succ_ok h
    obtain ⟨_, _, _, -, -, -, channels, -⟩ := sampleStep_ok first
    exact List.forall_mem_cons.2 ⟨channels, ih others⟩

theorem execOscBlock_eq (written : s.par = p.written)
    (h : sampleSteps Config.current p Config.current.blockFrames (s.withSnap p) = .ok (frames, u)) :
    exec .oscBlock s = complete (frameResults frames) Events.none u := by
  change needParams s _ = _
  rw [needParams_of_written written, h]

end BlockRegisters

open Machine.Laws in
/-- Settles O35: the block's sample steps start from the snapshot; their frame and what they leave of the
pink registers are those of a sequence of sample steps. -/
theorem oscBlockCompletes : Obligations.OscBlockCompletes := by
  refine ⟨rfl, fun s p written idx_lt => ?_⟩
  obtain ⟨frames, u, block⟩ :=
    sampleSteps_of_lt (s := s.withSnap p) p Config.current.blockFrames idx_lt
  obtain ⟨draws, idx, same_pink, taps⟩ := sampleSteps_pinkRegisters (s := s.withSnap p) idx_lt block
  have frame := sampleSteps_frame block
  rw [draws] at frame
  refine ⟨frames, u.osc, u.pink, u.flt, ?_, sampleSteps_length _ block, sampleSteps_channels block,
    idx, same_pink, taps⟩
  rw [execOscBlock_eq written block, frame]
  rfl

/-! ### Resetting and taking the snapshot (rules R142, R143) -/

/-- Settles O31: every tap of an empty history reads 0. -/
theorem oscResetEffect : Obligations.OscResetEffect :=
  ⟨rfl, fun _ => ⟨[], rfl, tap_nil⟩⟩

/-- Settles O32: a complete `P` is copied; the report of an incomplete one is `unwrittenParameterFaults`'. -/
theorem oscSnapEffect : Obligations.OscSnapEffect :=
  ⟨rfl, fun _ _ written => needParams_of_written written _,
    fun s n before at_n => (unwrittenParameterFaults.1 s n before at_n).1⟩

end Sys2Proof.Proofs

namespace Sys2Proof.Proofs

/-! ### The filter's commands (rules R168 to R171) -/

section FilterCommands

open Sys2Proof.Machine

theorem execFltStep_finite (x fc r : RNum) (s : State) :
    exec (.fltStep (.finite x) (.finite fc) (.finite r)) s = .next { s with
      flt := ladderStep Config.current x fc r s.flt
      out := Safety.answered s
        [.num (.finite (ladderStep Config.current x fc r s.flt).delay3)] Safety.quiet } :=
  rfl

theorem sat_zero : Ideal.sat 0 = 0 := by simp [Ideal.sat]

theorem shape_zero (scale : SatScale) (r : ℝ) : Ideal.shape scale r 0 = 0 := by
  cases scale <;> simp [Ideal.shape, sat_zero]

/-- At rest the feedback and every stage input are 0. -/
theorem ladderStep_of_rest (c : Config) (sr fc r : ℝ) {f : Ideal.Flt} (d0 : f.delay0 = 0)
    (d1 : f.delay1 = 0) (d2 : f.delay2 = 0) (d3 : f.delay3 = 0) :
    Ideal.ladderStep c sr 0 fc r f = f := by
  obtain ⟨_, _, _, _, _, _, _, _⟩ := f
  subst d0 d1 d2 d3
  unfold Ideal.ladderStep
  cases c.ladderOrder <;> simp [Ideal.stage, shape_zero]

/-- The registers that `FLT_RESET` leaves stay as they are under a silent step. -/
theorem flt_ladderStep_zero (ρ : Env) (c : Config) (fc r : RNum) :
    Ideal.flt ρ (ladderStep c (.lit 0) fc r FltState.zero) = Ideal.flt ρ FltState.zero := by
  have at_zero : (RNum.lit 0).eval ρ = 0 := by simp
  rw [flt_ladderStep, at_zero]
  exact ladderStep_of_rest c _ _ _ at_zero at_zero at_zero at_zero

end FilterCommands

/-- Settles O44: a step with finite operands is the machine's ladder step, which has the values of the
rules'. -/
theorem fltStepComputesLadder : Obligations.FltStepComputesLadder :=
  ⟨fun _ _ _ => rfl, fun s x fc r => ⟨_, execFltStep_finite x fc r s, ladderStep_cutoffMod ..,
    ladderStep_resMod .., ladderStep_cutoffLfoPhase .., ladderStep_resLfoPhase ..,
    fun ρ => flt_ladderStep ρ _ x fc r s.flt⟩⟩

open Machine in
/-- Settles O43: the filter at rest stays at rest under a silent step. -/
theorem fltResetEffect : Obligations.FltResetEffect := by
  refine ⟨rfl, fun _ => rfl, fun s fc r zeroed => ⟨_, _, execFltStep_finite _ fc r s, fun ρ _ => ?_⟩⟩
  have rest := flt_ladderStep_zero ρ Config.current fc r
  have at_zero : (RNum.lit 0).eval ρ = 0 := by simp
  rw [zeroed]
  exact ⟨(congrArg Ideal.Flt.delay3 rest).trans at_zero, (congrArg Ideal.Flt.delay0 rest).trans at_zero,
    (congrArg Ideal.Flt.delay1 rest).trans at_zero, (congrArg Ideal.Flt.delay2 rest).trans at_zero,
    (congrArg Ideal.Flt.delay3 rest).trans at_zero⟩

/-! ### The filter's coefficients (rules R162 to R165) -/

section Coefficients

open Sys2Proof.Machine

/-- The clamp of step 1 keeps the cutoff at or above `0.0005 * SR`, that of step 2 below half of `SR`. -/
theorem normFreq_range {sr : ℝ} (sr_pos : 0 < sr) (fc : ℝ) :
    0.0005 ≤ Ideal.normFreq sr (Ideal.cutoffHz sr fc) ∧
      Ideal.normFreq sr (Ideal.cutoffHz sr fc) ≤ 0.499 := by
  have floor : 0.0005 ≤ Ideal.cutoffHz sr fc / sr := (le_div_iff₀ sr_pos).2 (le_max_right _ _)
  exact ⟨le_min floor (by norm_num), min_le_right _ _⟩

theorem onePole_range {f : ℝ} (pos : 0 < f) : 0 < Ideal.onePole f ∧ Ideal.onePole f < 1 := by
  have k_pos : 0 < 4 * Real.pi * f := by positivity
  refine ⟨by unfold Ideal.onePole; positivity, ?_⟩
  rw [Ideal.onePole, div_lt_one (by positivity)]
  linarith

theorem pole_range {sr : ℝ} (sr_pos : 0 < sr) (fc : ℝ) :
    0 < Ideal.onePole (Ideal.normFreq sr (Ideal.cutoffHz sr fc)) ∧
      Ideal.onePole (Ideal.normFreq sr (Ideal.cutoffHz sr fc)) < 1 :=
  onePole_range (lt_of_lt_of_le (by norm_num) (normFreq_range sr_pos fc).1)

theorem clampResonance_le_one (ρ : Env) (r : RNum) : (clampResonance r).eval ρ ≤ 1 := by
  simp [clampResonance]

theorem feedback_le {r : ℝ} (le_one : r ≤ 1) : Ideal.feedback r ≤ 3.8 := by
  have root : Real.sqrt r ≤ 1 := Real.sqrt_le_one.2 le_one
  rw [Ideal.feedback]
  linarith

theorem eval_poleK (ρ : Env) (f : RNum) : (poleK f).eval ρ = 4 * Real.pi * f.eval ρ := by
  simp [poleK, Const.kScaleFactor]

theorem eval_onePole (ρ : Env) (k : RNum) : (onePole k).eval ρ = k.eval ρ / (1 + k.eval ρ) := by
  simp [onePole]

end Coefficients

open Machine in
/-- Settles O45: each coefficient has the rule's value, and the bounds are the clamps'. -/
theorem filterCoefficientsBounded : Obligations.FilterCoefficientsBounded := by
  intro ρ fc r hρ
  have f_eq : (normFreq (clampCutoff fc)).eval ρ =
      Ideal.normFreq ρ.sr (Ideal.cutoffHz ρ.sr (fc.eval ρ)) := by
    rw [eval_normFreq, eval_clampCutoff]
  have f_range := normFreq_range hρ.sr_pos (fc.eval ρ)
  have p_range := pole_range hρ.sr_pos (fc.eval ρ)
  have g_le := feedback_le (clampResonance_le_one ρ r)
  rw [← f_eq] at f_range p_range
  rw [← eval_onePole_poleK] at p_range
  rw [← eval_feedbackGain] at g_le
  exact ⟨f_eq, f_range.1, f_range.2, eval_clampResonance ρ r, eval_feedbackGain ρ _,
    feedbackGain_nonneg ρ _, g_le, eval_poleK ρ _, eval_onePole ρ _, p_range.1, p_range.2⟩

/-! ### The saturator (rule R167) -/

section Saturator

open Filter Sys2Proof.Machine

theorem drive_range (ρ : Env) (r : RNum) :
    1 ≤ (drive (clampResonance r)).eval ρ ∧ (drive (clampResonance r)).eval ρ ≤ 1.3 := by
  have nonneg := clampResonance_nonneg ρ r
  have le_one := clampResonance_le_one ρ r
  rw [eval_drive]
  constructor <;> linarith

theorem sat_neg (x : ℝ) : Ideal.sat (-x) = -Ideal.sat x := by
  simp only [Ideal.sat, neg_sq, neg_mul, neg_div]

theorem hasDerivAt_sat (x : ℝ) :
    HasDerivAt Ideal.sat (9 * (x ^ 2 - 9) ^ 2 / (27 + 9 * x ^ 2) ^ 2) x := by
  have square : HasDerivAt (fun x : ℝ => x ^ 2) (2 * x) x := by simpa using hasDerivAt_pow 2 x
  have numerator := (hasDerivAt_id x).mul (square.const_add 27)
  have denominator := (square.const_mul 9).const_add 27
  refine (numerator.div denominator (by positivity)).congr_deriv ?_
  congr 1
  simp only [id, Pi.mul_apply]
  ring

theorem sat_deriv_eq_zero_iff (x : ℝ) :
    9 * (x ^ 2 - 9) ^ 2 / (27 + 9 * x ^ 2) ^ 2 = 0 ↔ |x| = 3 := by
  have denominator_ne : (27 + 9 * x ^ 2) ^ 2 ≠ 0 := by positivity
  calc 9 * (x ^ 2 - 9) ^ 2 / (27 + 9 * x ^ 2) ^ 2 = 0 ↔ x ^ 2 - 9 = 0 := by
        simp [div_eq_zero_iff, denominator_ne]
    _ ↔ x ^ 2 = 3 ^ 2 := by rw [sub_eq_zero]; norm_num
    _ ↔ |x| = 3 := by rw [sq_eq_sq_iff_abs_eq_abs, abs_of_pos (three_pos : (0 : ℝ) < 3)]

/-- The difference of two values, with every factor but `y - x` a sum of squares. -/
theorem sat_sub_sat (x y : ℝ) :
    Ideal.sat y - Ideal.sat x =
      9 * (y - x) * ((x * y - 9) ^ 2 + 3 * (y - x) ^ 2) / ((27 + 9 * x ^ 2) * (27 + 9 * y ^ 2)) := by
  have x_ne : 27 + 9 * x ^ 2 ≠ 0 := by positivity
  have y_ne : 27 + 9 * y ^ 2 ≠ 0 := by positivity
  rw [Ideal.sat, Ideal.sat, div_sub_div _ _ y_ne x_ne, div_eq_div_iff (by positivity) (by positivity)]
  ring

theorem sat_strictMono : StrictMono Ideal.sat := by
  intro x y x_lt_y
  have gap_pos : 0 < y - x := sub_pos.2 x_lt_y
  rw [← sub_pos, sat_sub_sat]
  positivity

/-- The saturator is a contraction: its factor `(27 + x^2) / (27 + 9 x^2)` is at most 1. -/
theorem abs_sat_le (x : ℝ) : |Ideal.sat x| ≤ |x| := by
  have factor_nonneg : 0 ≤ (27 + x ^ 2) / (27 + 9 * x ^ 2) := by positivity
  have factor_le_one : (27 + x ^ 2) / (27 + 9 * x ^ 2) ≤ 1 := by
    rw [div_le_one (by positivity)]
    linarith [sq_nonneg x]
  rw [Ideal.sat, mul_div_assoc, abs_mul, abs_of_nonneg factor_nonneg]
  exact mul_le_of_le_one_right (abs_nonneg x) factor_le_one

/-- The distance from the asymptote `x / 9` is at most a multiple of `1 / |x|`. -/
theorem abs_sat_sub_asymptote_le (x : ℝ) : |Ideal.sat x - x / 9| ≤ 8 / 3 * |x|⁻¹ := by
  rcases eq_or_ne x 0 with rfl | x_ne
  · simp [sat_zero]
  have x_pos : 0 < |x| := abs_pos.2 x_ne
  have distance : Ideal.sat x - x / 9 = 24 * x / (27 + 9 * x ^ 2) := by
    rw [Ideal.sat]
    field_simp
    ring
  rw [distance, abs_div, abs_mul, abs_of_pos (by positivity : 0 < 27 + 9 * x ^ 2),
    abs_of_pos (by norm_num : (0 : ℝ) < 24), ← div_eq_mul_inv,
    div_le_div_iff₀ (by positivity) x_pos, ← sq_abs x]
  nlinarith

theorem tendsto_sat_sub_asymptote {l : Filter ℝ} (large : Tendsto (fun x : ℝ => |x|) l atTop) :
    Tendsto (fun x => Ideal.sat x - x / 9) l (nhds 0) := by
  have bound : Tendsto (fun x : ℝ => 8 / 3 * |x|⁻¹) l (nhds 0) := by
    simpa using (tendsto_inv_atTop_zero.comp large).const_mul (8 / 3)
  exact squeeze_zero_norm abs_sat_sub_asymptote_le bound

theorem tendsto_sat_atTop : Tendsto Ideal.sat atTop atTop := by
  have line : Tendsto (fun x : ℝ => x / 9) atTop atTop :=
    tendsto_id.atTop_div_const (by norm_num)
  simpa using (tendsto_sat_sub_asymptote tendsto_abs_atTop_atTop).add_atTop line

end Saturator

open Filter in
/-- Settles O46: the derivative by the quotient rule, the monotonicity by the factored difference, the
asymptote by its distance. -/
theorem saturatorLaws : Obligations.SaturatorLaws := by
  have slope_at_zero : HasDerivAt Ideal.sat 1 0 := (hasDerivAt_sat 0).congr_deriv (by norm_num)
  have expanded (x : ℝ) : 729 - 162 * x ^ 2 + 9 * x ^ 4 = 9 * (x ^ 2 - 9) ^ 2 := by ring
  exact ⟨eval_saturate, eval_stageShape, drive_range, sat_neg, sat_zero, slope_at_zero,
    fun x => ⟨hasDerivAt_sat x, by rw [expanded], by positivity, sat_deriv_eq_zero_iff x⟩,
    sat_strictMono, by norm_num [Ideal.sat], abs_sat_le,
    tendsto_sat_sub_asymptote tendsto_abs_atTop_atTop,
    tendsto_sat_sub_asymptote tendsto_abs_atBot_atTop, tendsto_sat_atTop⟩

/-! ### The step response (rules R168, R172) -/

section StepResponse

open Filter Sys2Proof.Machine

/-- A sequence that starts at or above 0, never falls and tends to `limit`. -/
structure Rises (x : ℕ → ℝ) (limit : ℝ) : Prop where
  nonneg : 0 ≤ x 0
  mono : Monotone x
  tends : Tendsto x atTop (nhds limit)

/-- The value that feeds a stage, of the previous stage's delay before and after the step (rule R168). -/
def stageInput (order : LadderOrder) (before after : ℝ) : ℝ :=
  match order with
  | .sequential => after
  | .simultaneous => before

theorem rises_const {u : ℝ} (nonneg : 0 ≤ u) : Rises (fun _ => u) u :=
  ⟨nonneg, monotone_const, tendsto_const_nhds⟩

/-- Under either order a stage is fed a rising sequence with the limit of the stage before it. -/
theorem Rises.stageInput {x : ℕ → ℝ} {limit : ℝ} (hx : Rises x limit) (order : LadderOrder) :
    Rises (fun n => stageInput order (x n) (x (n + 1))) limit := by
  cases order with
  | sequential =>
    exact ⟨hx.nonneg.trans (hx.mono (Nat.zero_le 1)), fun _ _ le => hx.mono (Nat.succ_le_succ le),
      hx.tends.comp (tendsto_add_atTop_nat 1)⟩
  | simultaneous => exact hx

theorem continuous_sat : Continuous Ideal.sat :=
  continuous_iff_continuousAt.2 fun x => (hasDerivAt_sat x).continuousAt

/-- A saturated sequence still rises. -/
theorem Rises.sat {x : ℕ → ℝ} {limit : ℝ} (hx : Rises x limit) :
    Rises (fun n => Ideal.sat (x n)) (Ideal.sat limit) where
  nonneg := sat_zero.symm.le.trans (sat_strictMono.monotone hx.nonneg)
  mono := sat_strictMono.monotone.comp hx.mono
  tends := (continuous_sat.tendsto limit).comp hx.tends

/-- A one-pole stage that starts at 0 follows a rising sequence from below, so it rises; its limit is a
rest point of the stage, which is the sequence's limit. -/
theorem Rises.stage {p limit : ℝ} {x y : ℕ → ℝ} (p_pos : 0 < p) (p_lt_one : p < 1)
    (hx : Rises x limit) (start : y 0 = 0) (step : ∀ n, y (n + 1) = Ideal.stage p (y n) (x n)) :
    Rises y limit := by
  simp only [Ideal.stage] at step
  have below (n : ℕ) : y n ≤ x n := by
    induction n with
    | zero => exact start.trans_le hx.nonneg
    | succ n ih =>
      refine le_trans ?_ (hx.mono n.le_succ)
      rw [step]
      nlinarith
  have mono : Monotone y := monotone_nat_of_le_succ fun n => by
    rw [step]
    nlinarith [below n]
  have bounded (n : ℕ) : y n ≤ limit := (below n).trans (hx.mono.ge_of_tendsto hx.tends n)
  have converges := tendsto_atTop_ciSup mono ⟨limit, Set.forall_mem_range.2 bounded⟩
  have shifted := converges.comp (tendsto_add_atTop_nat 1)
  have stepped := converges.add ((hx.tends.sub converges).const_mul p)
  have rest : p * (limit - ⨆ n, y n) = 0 := by
    have := tendsto_nhds_unique shifted (stepped.congr fun n => (step n).symm)
    linarith
  have limit_eq : limit = ⨆ n, y n := sub_eq_zero.1 ((mul_eq_zero.1 rest).resolve_left p_pos.ne')
  exact ⟨start.ge, mono, limit_eq ▸ converges⟩

theorem shape_of_no_resonance (scale : SatScale) (x : ℝ) : Ideal.shape scale 0 x = Ideal.sat x := by
  cases scale <;> simp [Ideal.shape]

/-- From `f` to `t` each stage is a one-pole of coefficient `p` on its saturated input, the first on `u`. -/
structure SaturatedOnePoles (order : LadderOrder) (p u : ℝ) (f t : Ideal.Flt) : Prop where
  delay0 : t.delay0 = Ideal.stage p f.delay0 (Ideal.sat u)
  delay1 : t.delay1 = Ideal.stage p f.delay1 (Ideal.sat (stageInput order f.delay0 t.delay0))
  delay2 : t.delay2 = Ideal.stage p f.delay2 (Ideal.sat (stageInput order f.delay1 t.delay1))
  delay3 : t.delay3 = Ideal.stage p f.delay3 (Ideal.sat (stageInput order f.delay2 t.delay2))

/-- With no resonance and no modulation there is no feedback and no drive. -/
theorem ladderStep_of_no_resonance (c : Config) (sr u fc : ℝ) {f : Ideal.Flt}
    (cutoffMod : f.cutoffMod = 0) (resMod : f.resMod = 0) :
    SaturatedOnePoles c.ladderOrder (Ideal.onePole (Ideal.normFreq sr (Ideal.cutoffHz sr fc))) u f
      (Ideal.ladderStep c sr u fc 0 f) := by
  unfold Ideal.ladderStep
  cases c.ladderOrder <;> constructor <;>
    simp [stageInput, cutoffMod, resMod, Ideal.clamp, Ideal.feedback, shape_of_no_resonance]

/-- The filter's registers after `n` steps with input `u` and resonance 0 from the zero state. -/
def stepResponse (c : Config) (u fc : RNum) (n : ℕ) : FltState :=
  (ladderStep c u fc (.lit 0))^[n] FltState.zero

theorem stepResponse_succ (c : Config) (u fc : RNum) (n : ℕ) :
    stepResponse c u fc (n + 1) = ladderStep c u fc (.lit 0) (stepResponse c u fc n) :=
  Function.iterate_succ_apply' _ _ _

theorem stepResponse_mods (c : Config) (u fc : RNum) (n : ℕ) :
    (stepResponse c u fc n).cutoffMod = .lit 0 ∧ (stepResponse c u fc n).resMod = .lit 0 := by
  induction n with
  | zero => exact ⟨rfl, rfl⟩
  | succ n ih => rwa [stepResponse_succ, ladderStep_cutoffMod, ladderStep_resMod]

/-- The real values of the step response. -/
noncomputable def stepValues (ρ : Env) (c : Config) (u fc : RNum) (n : ℕ) : Ideal.Flt :=
  Ideal.flt ρ (stepResponse c u fc n)

theorem stepValues_succ (ρ : Env) (c : Config) (u fc : RNum) (n : ℕ) :
    SaturatedOnePoles c.ladderOrder
      (Ideal.onePole (Ideal.normFreq ρ.sr (Ideal.cutoffHz ρ.sr (fc.eval ρ)))) (u.eval ρ)
      (stepValues ρ c u fc n) (stepValues ρ c u fc (n + 1)) := by
  have at_zero : (RNum.lit 0).eval ρ = 0 := by simp
  obtain ⟨cutoffMod, resMod⟩ := stepResponse_mods c u fc n
  have next : stepValues ρ c u fc (n + 1) =
      Ideal.ladderStep c ρ.sr (u.eval ρ) (fc.eval ρ) 0 (stepValues ρ c u fc n) := by
    rw [stepValues, stepResponse_succ, flt_ladderStep, at_zero]
    rfl
  rw [next]
  exact ladderStep_of_no_resonance c ρ.sr (u.eval ρ) (fc.eval ρ)
    ((congrArg (RNum.eval ρ) cutoffMod).trans at_zero) ((congrArg (RNum.eval ρ) resMod).trans at_zero)

/-- Stage by stage, the step response rises to the input saturated four times. -/
theorem stepResponse_rises {ρ : Env} (hρ : ρ.Valid) (c : Config) {u : RNum} (nonneg : 0 ≤ u.eval ρ)
    (fc : RNum) :
    Rises (fun n => (stepValues ρ c u fc n).delay3)
      (Ideal.sat (Ideal.sat (Ideal.sat (Ideal.sat (u.eval ρ))))) := by
  obtain ⟨p_pos, p_lt_one⟩ := pole_range hρ.sr_pos (fc.eval ρ)
  have step := stepValues_succ ρ c u fc
  have start : (RNum.lit 0).eval ρ = 0 := by simp
  have rises0 := (rises_const nonneg).sat.stage p_pos p_lt_one
    (y := fun n => (stepValues ρ c u fc n).delay0) start fun n => (step n).delay0
  have rises1 := (rises0.stageInput c.ladderOrder).sat.stage p_pos p_lt_one
    (y := fun n => (stepValues ρ c u fc n).delay1) start fun n => (step n).delay1
  have rises2 := (rises1.stageInput c.ladderOrder).sat.stage p_pos p_lt_one
    (y := fun n => (stepValues ρ c u fc n).delay2) start fun n => (step n).delay2
  exact (rises2.stageInput c.ladderOrder).sat.stage p_pos p_lt_one start fun n => (step n).delay3

end StepResponse

/-- Settles O47: a rising sequence never falls and stays at or below its limit. -/
theorem stepResponseMonotone : Obligations.StepResponseMonotone := by
  intro c ρ u fc hρ nonneg
  have rises := stepResponse_rises hρ c nonneg fc
  exact ⟨fun n => ⟨rises.mono n.le_succ, rises.mono.ge_of_tendsto rises.tends n⟩, rises.tends⟩

end Sys2Proof.Proofs

namespace Sys2Proof.Proofs

/-! ### The analyzer's checks (rules R188, R191, R205, R208) -/

/-- Settles O14: the state precondition comes before every operand check. -/
theorem uninitialisedAnalyzerFaults : Obligations.UninitialisedAnalyzerFaults := fun _ not_ready =>
  ⟨fun _ _ => needReady_of_not_ready not_ready _, fun _ => needReady_of_not_ready not_ready _⟩

open Machine.Laws in
/-- Settles O51: the command completes, and what it answers is one case or the other of `spaRead_next`. -/
theorem spaReadAnswersBin : Obligations.SpaReadAnswersBin := by
  refine ⟨fun _ => rfl, fun s k ready ok => ?_⟩
  obtain ⟨t, read⟩ := spaRead_completes ready ok k
  have answer : Machine.exec (.spaRead k) s = .next t := (needReady_of_ready ready _).trans read
  rw [answer]
  rcases spaRead_next read with ⟨above, rfl⟩ | ⟨in_range, raw, smooth, raw_read, smooth_read, rfl⟩
  · exact ⟨fun in_range => absurd above in_range.not_gt, fun _ => rfl⟩
  · exact ⟨fun _ => ⟨raw, smooth, raw_read, smooth_read, rfl⟩, fun above => absurd above in_range.not_gt⟩

/-! ### Frequencies and bins (rules R189, R190) -/

section Bins

open Sys2Proof.Machine Sys2Proof.Machine.Laws

theorem eval_freqToBin (ρ : Env) (c : Config) (f : RNum) :
    (freqToBin c f).eval ρ = f.eval ρ * c.fftSize / ρ.sr := by
  simp [freqToBin]

theorem eval_binToFreq (ρ : Env) (c : Config) (b : RNum) :
    (binToFreq c b).eval ρ = b.eval ρ * ρ.sr / c.fftSize := by
  simp [binToFreq]

/-- `N` is a divisor of the rules: not 0. -/
theorem fftSize_cast_ne_zero (c : Config) : (c.fftSize : ℝ) ≠ 0 := Nat.cast_ne_zero.2 (fftSize_pos c).ne'

/-- `SR` and `N` are not 0, so the two conversions undo each other. -/
theorem binConversions_inverse {ρ : Env} (hρ : ρ.Valid) (c : Config) (x : RNum) :
    (binToFreq c (freqToBin c x)).eval ρ = x.eval ρ ∧ (freqToBin c (binToFreq c x)).eval ρ = x.eval ρ := by
  have sr_ne := hρ.sr_pos.ne'
  have size_ne := fftSize_cast_ne_zero c
  rw [eval_binToFreq, eval_freqToBin, eval_freqToBin, eval_binToFreq]
  constructor <;> field_simp

end Bins

/-- Settles O50: each command is one operand check and one formula. -/
theorem binConversions : Obligations.BinConversions :=
  ⟨fun _ => ⟨rfl, rfl⟩,
    fun _ x => ⟨_, _, rfl, rfl, fun ρ => ⟨eval_freqToBin ρ _ x, eval_binToFreq ρ _ x⟩⟩,
    fun _ => ⟨rfl, rfl⟩, fun _ c x hρ => binConversions_inverse hρ c x⟩

/-! ### Smoothing (rule R187) -/

section Smoothing

open Sys2Proof.Machine

theorem eval_smoothStep (ρ : Env) (old norm : RNum) :
    (smoothStep old norm).eval ρ = old.eval ρ * ρ.alpha + norm.eval ρ * (1 - ρ.alpha) := by
  simp [smoothStep]

/-- Each step leaves the fraction `ALPHA` of what is missing to `v`. -/
theorem eval_smoothStep_iterate (ρ : Env) (v : RNum) (j : ℕ) :
    ((fun x => smoothStep x v)^[j] (.lit 0)).eval ρ = v.eval ρ * (1 - ρ.alpha ^ j) := by
  induction j with
  | zero => simp
  | succ j ih =>
    rw [Function.iterate_succ_apply', eval_smoothStep, ih]
    ring

end Smoothing

/-- Settles O54: the closed form by induction, the range by convexity. -/
theorem smoothingClosedForm : Obligations.SmoothingClosedForm := fun ρ v _ j hρ =>
  ⟨eval_smoothStep_iterate ρ v j, fun old_nonneg old_le v_nonneg v_le =>
    unitRange_smoothStep hρ ⟨old_nonneg, old_le⟩ ⟨v_nonneg, v_le⟩⟩

/-! ### The left samples of a buffer (rule R182) -/

section LeftSamples

open Sys2Proof.Machine Sys2Proof.Machine.Laws

variable {c : Config} {frames frames' : List Frame}

/-- The zero padding is the left sample of silence, so every element is read off the buffer alike. -/
theorem inputCopy_eq_map (c : Config) (frames : List Frame) :
    inputCopy c frames = (List.range c.fftSize).map fun i => (frames.getD i Frame.silence).left := by
  refine List.ext_getElem (by simp [inputCopy_length]) fun i hi _ => ?_
  rw [inputCopy_length] at hi
  simp only [inputCopy, List.getElem_append, List.length_map, List.length_take, List.getElem_map,
    List.getElem_take, List.getElem_replicate, List.getElem_range]
  split
  · next in_buffer => rw [List.getD_eq_getElem _ _ (lt_min_iff.1 in_buffer).2]
  · next past =>
    rw [List.getD_eq_default _ _ (by omega)]
    rfl

theorem inputCopy_congr (h : ∀ i < c.fftSize,
      (frames.getD i Frame.silence).left = (frames'.getD i Frame.silence).left) :
    inputCopy c frames = inputCopy c frames' := by
  rw [inputCopy_eq_map, inputCopy_eq_map]
  exact List.map_congr_left fun i hi => h i (List.mem_range.1 hi)

/-- A process step looks at its frames through the input copy alone. -/
theorem spaProcess_congr (h : inputCopy c frames = inputCopy c frames') (s : State) :
    spaProcess c frames s = spaProcess c frames' s := by
  unfold spaProcess processFrames
  rw [h]

/-- The words of finite frames pass the operand check. -/
theorem execSpaProcess_frameWords (frames : List Frame) (s : State) :
    exec (.spaProcess frames.length (frameWords frames)) s =
      needReady s (spaProcess Config.current frames s) := by
  change needReady s (withFrames frames.length (frameWords frames) s _) = _
  rw [withFrames, framesOf_frameWords]

end LeftSamples

/-- Settles O53: the two buffers have the same input copy. -/
theorem onlyLeftSamplesAreAnalysed : Obligations.OnlyLeftSamplesAreAnalysed := by
  intro s frames frames' same_left
  rw [execSpaProcess_frameWords, execSpaProcess_frameWords, spaProcess_congr (inputCopy_congr same_left)]

/-! ### Constructing the analyzer (rules R181, R183) -/

section Arrays

open Sys2Proof.Machine Sys2Proof.Machine.Laws Sys2Proof.Safety

variable {α : Type} [DecidableEq α] {m : Memory α} {vs : List α} {i : ℕ}

theorem read_writeArray_of_lt (h : i < vs.length) :
    Memory.read none (Memory.writeArray m vs) i = some vs[i] := by
  rw [read_writeArray, dif_pos h]

theorem read_writeArray_of_le (h : vs.length ≤ i) :
    Memory.read none (Memory.writeArray m vs) i = Memory.read none m i := by
  rw [read_writeArray, dif_neg h.not_gt]

/-- An array written whole with `f 0, f 1, ...`. -/
theorem read_writeArray_map_range {f : ℕ → α} {n : ℕ} (h : i < n) :
    Memory.read none (Memory.writeArray m ((List.range n).map f)) i = some (f i) := by
  rw [read_writeArray_of_lt (by simpa using h), List.getElem_map, List.getElem_range]

theorem read_writeArray_replicate {v : α} {n : ℕ} (h : i < n) :
    Memory.read none (Memory.writeArray m (List.replicate n v)) i = some v := by
  rw [read_writeArray_of_lt (by simpa using h), List.getElem_replicate]

end Arrays

open Machine Machine.Laws in
/-- Settles O48: `constructed` writes the window and zeroes, each array as a whole. -/
theorem spaInitConstructs : Obligations.SpaInitConstructs := by
  refine ⟨rfl, fun s => ⟨constructed Config.current s.spa, meanSquare Config.current, rfl, rfl, rfl,
    eval_meanSquare Config.current, fun n hn => ?_, fun n hn => ?_, fun k hk => ?_, fun k hk => ?_,
    rfl, rfl⟩⟩
  · exact ⟨_, read_writeArray_map_range hn, fun ρ => eval_hann _ ρ n⟩
  · exact read_writeArray_of_le ((hannWindow_length _).trans_le hn)
  · exact ⟨read_writeArray_replicate hk, read_writeArray_replicate hk⟩
  · have past : (List.replicate Config.current.bins (RNum.lit 0)).length ≤ k :=
      List.length_replicate.trans_le hk
    exact ⟨read_writeArray_of_le past, read_writeArray_of_le past⟩

/-! ### The spectrum a process step computes (rules R183 to R187) -/

section Spectrum

open Finset Sys2Proof.Machine Sys2Proof.Machine.Laws Sys2Proof.Safety

variable {c : Config} {ρ : Env} {xs : List RNum} {s : State}

/-- The real sequence a list of values stands for. -/
noncomputable def valuesAt (ρ : Env) (xs : List RNum) (n : ℕ) : ℝ := (xs.getD n (.lit 0)).eval ρ

theorem valuesAt_of_lt {n : ℕ} (h : n < xs.length) : valuesAt ρ xs n = xs[n].eval ρ := by
  rw [valuesAt, List.getD_eq_getElem _ _ h]

/-- A sum of the elements, each weighted by its index. -/
theorem eval_total_zipIdx (ρ : Env) (xs : List RNum) (weight : ℕ → RNum) :
    (RNum.total (xs.zipIdx.map fun p => p.1.mul (weight p.2))).eval ρ =
      ∑ n ∈ range xs.length, valuesAt ρ xs n * (weight n).eval ρ := by
  have terms : (xs.zipIdx.map fun p => (p.1.mul (weight p.2)).eval ρ) =
      (List.range xs.length).map fun n => valuesAt ρ xs n * (weight n).eval ρ := by
    refine List.ext_getElem (by simp) fun n hn _ => ?_
    have hn : n < xs.length := by simpa using hn
    simp [valuesAt_of_lt hn]
  rw [RNum.eval_total, List.map_map, ← List.toFinset_range, List.sum_toFinset _ List.nodup_range]
  exact congrArg List.sum terms

/-- The machine's transform has the values of the rule's (rule R184). -/
theorem eval_transformBin (ρ : Env) (size : xs.length = c.fftSize) (k : ℕ) :
    (transformBin c xs k).1.eval ρ = Ideal.transformRe c (valuesAt ρ xs) k ∧
      (transformBin c xs k).2.eval ρ = Ideal.transformIm c (valuesAt ρ xs) k := by
  have angle (n : ℕ) : (turn (k * n) c.fftSize).eval ρ = 2 * Real.pi * k * n / c.fftSize := by
    rw [eval_turn, Nat.cast_mul, mul_assoc (2 * Real.pi)]
  have re := eval_total_zipIdx ρ xs fun n => (turn (k * n) c.fftSize).cos
  have im := eval_total_zipIdx ρ xs fun n => (turn (k * n) c.fftSize).sin
  simp only [RNum.eval_cos, RNum.eval_sin, angle, size] at re im
  refine ⟨re, ?_⟩
  rw [transformBin, RNum.eval_sub, im, RNum.eval_lit, Rat.cast_zero, zero_sub, Ideal.transformIm]

/-- Rule R185. -/
theorem eval_magnitude (ρ : Env) (c : Config) (power : RNum) (z : RNum × RNum) :
    (magnitude (magScale c power) z).eval ρ =
      Ideal.magnitude c (power.eval ρ) (z.1.eval ρ) (z.2.eval ρ) := by
  simp [magnitude, magScale, Ideal.magnitude]

/-- Rules R185 and R186. -/
theorem eval_normalised_magnitude (ρ : Env) (c : Config) (power : RNum) (z : RNum × RNum) :
    (normalise (decibels (magnitude (magScale c power) z))).eval ρ =
      Ideal.normalised ρ (Ideal.magnitude c (power.eval ρ) (z.1.eval ρ) (z.2.eval ρ)) := by
  rw [← eval_magnitude]
  norm_num [normalise, decibels, Ideal.normalised, Ideal.clamp, Const.dbScale, Const.magFloor]

theorem windowed_length {win : List RNum} (size : win.length = c.fftSize) (frames : List Frame) :
    (windowed (inputCopy c frames) win).length = c.fftSize := by
  simp [windowed, inputCopy_length, size]

/-- The windowed input (rules R182, R183). -/
theorem valuesAt_windowed {win : List RNum} (size : win.length = c.fftSize) (frames : List Frame)
    {n : ℕ} (hn : n < win.length) :
    valuesAt ρ (windowed (inputCopy c frames) win) n =
      Ideal.leftSample ρ frames n * win[n].eval ρ := by
  rw [valuesAt_of_lt (by rw [windowed_length size]; omega)]
  simp [windowed, inputCopy_eq_map, Ideal.leftSample]

/-- Taking one value from each bin of the transform. -/
theorem map_transform {β : Type} (c : Config) (xs : List RNum) (f : RNum × RNum → β) :
    (transform c xs).map f = (List.range c.bins).map fun k => f (transformBin c xs k) :=
  List.map_map

/-- From a constructed analyzer `SPA_PROCESS` completes by a process step. -/
theorem execSpaProcess_completes (ready : s.spa.ready = true)
    (ok : AnalyzerOk Config.current s.spa) (frames : List Frame) :
    ∃ a, processFrames Config.current frames s.spa = .ok a ∧
      exec (.spaProcess frames.length (frameWords frames)) s =
        .next { s with spa := a, out := answered s [] quiet } := by
  obtain ⟨t, completed⟩ := spaProcess_completes ready ok frames
  rw [execSpaProcess_frameWords, needReady_of_ready ready, completed]
  unfold spaProcess at completed
  split at completed
  · cases completed
  · next a processed => exact ⟨a, processed, completed.symm⟩

end Spectrum

open Machine Machine.Laws in
/-- Settles O49: a constructed analyzer takes a process step; each array it writes is read off by element,
and each element has the value of the rule's formula. -/
theorem spaProcessComputesSpectrum : Obligations.SpaProcessComputesSpectrum := by
  refine ⟨fun _ _ => rfl, fun s frames ready ok => ?_⟩
  obtain ⟨a, processed, answer⟩ := execSpaProcess_completes ready ok frames
  obtain ⟨power, win, old, scratch, xf, raw, power_eq, win_read, old_read, scratch_eq, rfl, raw_eq, rfl⟩ :=
    processFrames_ok processed
  obtain ⟨win_size, win_at⟩ := (fetchAll_eq_ok ..).1 win_read
  obtain ⟨old_size, old_at⟩ := (fetchAll_eq_ok ..).1 old_read
  rw [map_transform] at raw_eq
  have scratch_size : scratch.length = Config.current.fftSize :=
    scratch_eq ▸ windowed_length win_size frames
  have raw_size : raw.length = Config.current.bins := by simp [raw_eq]
  have smooth_size : (List.zipWith smoothStep old raw).length = Config.current.bins := by
    simp [old_size, raw_size]
  refine ⟨_, power, answer, power_eq, rfl, rfl, rfl, fun n hn => ?_, fun k hk => ⟨?_, ?_, ?_⟩,
    fun ρ => valuesAt ρ scratch, fun n hn => ?_, fun k hk => ?_⟩
  · exact read_writeArray_of_le (scratch_size.trans_le hn)
  · exact read_writeArray_of_le ((transform_length ..).trans_le hk)
  · exact read_writeArray_of_le (raw_size.trans_le hk)
  · exact read_writeArray_of_le (smooth_size.trans_le hk)
  · have in_win := hn.trans_eq win_size.symm
    have in_scratch := hn.trans_eq scratch_size.symm
    refine ⟨_, _, win_at n in_win, read_writeArray_of_lt in_scratch, fun ρ =>
      ⟨?_, (valuesAt_of_lt in_scratch).symm⟩⟩
    rw [scratch_eq]
    exact valuesAt_windowed win_size frames in_win
  · have in_old := hk.trans_eq old_size.symm
    refine ⟨_, _, _, _, _, read_writeArray_map_range hk, raw_eq ▸ read_writeArray_map_range hk,
      old_at k in_old, read_writeArray_of_lt (hk.trans_eq smooth_size.symm), fun ρ => ?_⟩
    obtain ⟨re, im⟩ := eval_transformBin ρ scratch_size k
    refine ⟨re, im, eval_normalised_magnitude ρ _ power _, ?_⟩
    simp [eval_smoothStep, raw_eq]

end Sys2Proof.Proofs

namespace Sys2Proof.Proofs

/-! ### The analyzer and the other units (rules R180, R212) -/

section Independence

open Sys2Proof.Machine Sys2Proof.Machine.Laws Sys2Proof.Safety

variable {c : Config} {p : Params} {n : ℕ} {s s' u : State} {frame : Frame} {frames : List Frame}

/-! A sample step works on `O`, `PINK`, `F` and the draws alone. -/

/-- What a sample step works on, as `u` has it; the rest as `r` has it. -/
def withSampler (r u : State) : State :=
  { r with osc := u.osc, pink := u.pink, flt := u.flt, whiteDraws := u.whiteDraws }

theorem baseWave_withSampler {d base : RNum} {t : State} (r : State)
    (h : baseWave c p d s = .ok (base, t)) :
    baseWave c p d (withSampler r s) = .ok (base, withSampler r t) := by
  rcases baseWave_ok h with ⟨not_pink, rfl⟩ | ⟨pink, stepped⟩
  · unfold baseWave at h ⊢
    cases hw : p.waveform <;> rw [hw] at h
    case pink => exact absurd hw not_pink
    all_goals (cases h; rfl)
  · obtain ⟨idx_lt, _, _, rfl, rfl, rfl, rfl⟩ := pinkStep_ok stepped
    exact (baseWave_pink pink d _).trans (pinkStep_eq_ok (s := withSampler r s) idx_lt)

theorem sampleStep_withSampler (r : State) (h : sampleStep c p s = .ok (frame, u)) :
    sampleStep c p (withSampler r s) = .ok (frame, withSampler r u) := by
  obtain ⟨base, t, -, hb, -, -, -, -⟩ := sampleStep_ok h
  rw [sampleStep_eq_ok hb] at h
  cases h
  exact sampleStep_eq_ok (baseWave_withSampler r hb)

theorem sampleSteps_withSampler (r : State) (h : sampleSteps c p n s = .ok (frames, u)) :
    sampleSteps c p n (withSampler r s) = .ok (frames, withSampler r u) := by
  induction n generalizing s frames with
  | zero => cases h; rfl
  | succ n ih =>
    obtain ⟨frame, t, rest, first, others, rfl⟩ := sampleSteps_succ_ok h
    simp only [sampleSteps, sampleStep_withSampler r first, ih others]

theorem sampleStep_withSpa (a : Analyzer) (h : sampleStep c p s = .ok (frame, u)) :
    sampleStep c p (s.withSpa a) = .ok (frame, u.withSpa a) := by
  have moved := sampleStep_withSampler (s.withSpa a) h
  rw [sampleStep_frame h]
  exact moved

theorem sampleSteps_withSpa (a : Analyzer) (h : sampleSteps c p n s = .ok (frames, u)) :
    sampleSteps c p n (s.withSpa a) = .ok (frames, u.withSpa a) := by
  have moved := sampleSteps_withSampler (s.withSpa a) h
  rw [sampleSteps_frame h]
  exact moved

/-! One command performed in two states. -/

/-- Where `x` is a next state, `x'` is that state moved by `move`. -/
def Carries (move : State → State) (x x' : Result) : Prop := ∀ t, x = .next t → x' = .next (move t)

theorem carries_next {move : State → State} (t : State) : Carries move (.next t) (.next (move t)) := by
  rintro _ ⟨⟩
  rfl

/-- What stops carries nothing. -/
theorem carries_fault {move : State → State} (e : Fault) (x' : Result) : Carries move (.fault e) x' := by
  rintro _ ⟨⟩

section Checks

variable {move : State → State} (fault : ∀ r, Carries move (takeFault r s) (takeFault r s'))

include fault

/-! Each check hands on or takes a fault, alike in both states. -/

theorem withKind_carries {code : BitVec 3} {k k' : Kind → Result} (hk : ∀ x, Carries move (k x) (k' x)) :
    Carries move (withKind code s k) (withKind code s' k') := by
  unfold withKind
  cases kindOfCode code with
  | some kind => exact hk kind
  | none => exact fault _

theorem withNumAt_carries {position : ℕ} {w : NumWord} {k k' : RNum → Result}
    (hk : ∀ x, Carries move (k x) (k' x)) :
    Carries move (withNumAt position w s k) (withNumAt position w s' k') := by
  cases w with
  | finite x => exact hk x
  | nonFinite => exact fault _

theorem withNum2_carries {a b : NumWord} {k k' : RNum → RNum → Result}
    (hk : ∀ x y, Carries move (k x y) (k' x y)) :
    Carries move (withNum2 a b s k) (withNum2 a b s' k') :=
  withNumAt_carries fault fun x => withNumAt_carries fault (hk x)

theorem withFrames_carries {ws : List NumWord} {k k' : List Frame → Result}
    (hk : ∀ fs, Carries move (k fs) (k' fs)) :
    Carries move (withFrames n ws s k) (withFrames n ws s' k') := by
  unfold withFrames
  cases framesOf n ws with
  | some fs => exact hk fs
  | none => exact fault _

theorem needParams_carries (par : s.par = s'.par) {k k' : Params → Result}
    (hk : ∀ p, Carries move (k p) (k' p)) : Carries move (needParams s k) (needParams s' k') := by
  unfold needParams
  rw [par]
  cases s'.par.complete with
  | ok p => exact hk p
  | error number => exact fault _

theorem needSnap_carries (snap : s.snap = s'.snap) {k k' : Params → Result}
    (hk : ∀ p, Carries move (k p) (k' p)) : Carries move (needSnap s k) (needSnap s' k') := by
  unfold needSnap
  rw [snap]
  cases s'.snap with
  | some p => exact hk p
  | none => exact fault _

theorem needReady_carries (spa : s.spa = s'.spa) {k k' : Result} (hk : Carries move k k') :
    Carries move (needReady s k) (needReady s' k') := by
  unfold needReady
  rw [spa]
  cases s'.spa.ready with
  | true => exact hk
  | false => exact fault _

end Checks

/-! The other units in two states that differ in the analyzer. -/

theorem oscSample_carries (a : Analyzer) :
    Carries (·.withSpa a) (oscSample c s) (oscSample c (s.withSpa a)) := by
  refine needSnap_carries (s := s) (s' := s.withSpa a) (fun _ => carries_next _) rfl fun p => ?_
  cases sampled : sampleStep c p s with
  | error e => exact carries_fault e _
  | ok sample =>
    rw [sampleStep_withSpa a sampled]
    exact carries_next _

theorem oscBlock_carries (a : Analyzer) :
    Carries (·.withSpa a) (oscBlock c s) (oscBlock c (s.withSpa a)) := by
  refine needParams_carries (s := s) (s' := s.withSpa a) (fun _ => carries_next _) rfl fun p => ?_
  rw [show (s.withSpa a).withSnap p = (s.withSnap p).withSpa a from rfl]
  cases sampled : sampleSteps c p c.blockFrames (s.withSnap p) with
  | error e => exact carries_fault e _
  | ok samples =>
    rw [sampleSteps_withSpa a sampled]
    exact carries_next _

theorem unitOf_eq_four_iff (i : Instr) :
    unitOf i = 4 ↔ i.opcode ∈ [Opcode.spaInit, .spaProcess, .spaF2b, .spaB2f, .spaRead] := by
  unfold unitOf
  cases i.opcode <;> decide

/-- A command of another unit hands the analyzer through. -/
theorem exec_carries_withSpa {i : Instr} (other : unitOf i ≠ 4) (s : State) (a : Analyzer) :
    Carries (·.withSpa a) (exec i s) (exec i (s.withSpa a)) := by
  have fault (r : FaultReport) : Carries (·.withSpa a) (takeFault r s) (takeFault r (s.withSpa a)) :=
    carries_next _
  have completed (rs : List Operand) (ev : Events) (u : State) :
      Carries (·.withSpa a) (complete rs ev u) (complete rs ev (u.withSpa a)) := carries_next _
  cases i with
  | setWaveform => exact withKind_carries fault fun _ => completed _ _ _
  | setFreq | setAmp | setDuty => exact withNumAt_carries fault fun _ => completed _ _ _
  | setFm | setAm | setDcm | setFilter | setCutoffLfo | setResLfo =>
    exact withNum2_carries fault fun _ _ => completed _ _ _
  | fifoClear | fifoRead | fifoLevel | oscReset | fltReset => exact completed _ _ _
  | fifoWrite => exact withFrames_carries fault fun _ => completed _ _ _
  | oscSnap => exact needParams_carries fault rfl fun _ => completed _ _ _
  | oscSample => exact oscSample_carries a
  | oscBlock => exact oscBlock_carries a
  | fltStep =>
    exact withNumAt_carries fault fun _ => withNumAt_carries fault fun _ =>
      withNumAt_carries fault fun _ => completed _ _ _
  | spaInit | spaProcess | spaF2b | spaB2f | spaRead =>
    simp [unitOf_eq_four_iff, Instr.opcode] at other

/-! The analyzer's commands in two states that agree on the analyzer and on the agent addressed. -/

/-- The analyzer and the outputs as `u` has them; the rest as `r` has it. -/
def withAnalyzer (r u : State) : State := (r.withSpa u.spa).withOut u.out

theorem carries_complete {r : State} (agent : u.out.agent = r.out.agent) (rs : List Operand) (ev : Events) :
    Carries (withAnalyzer r) (complete rs ev u) (complete rs ev (r.withSpa u.spa)) := by
  rintro _ ⟨⟩
  rw [agent]
  rfl

theorem carries_takeFault {r : State} (agent : u.out.agent = r.out.agent) (report : FaultReport) :
    Carries (withAnalyzer r) (takeFault report u) (takeFault report (r.withSpa u.spa)) := by
  rintro _ ⟨⟩
  rw [agent]
  rfl

theorem spaProcess_carries {r : State} (agent : s.out.agent = r.out.agent) (frames : List Frame) :
    Carries (withAnalyzer r) (spaProcess c frames s) (spaProcess c frames (r.withSpa s.spa)) := by
  unfold spaProcess
  rw [withSpa_spa]
  cases processFrames c frames s.spa with
  | ok a => exact carries_complete (u := s.withSpa a) agent [] Events.none
  | error e => exact carries_fault e _

theorem spaRead_carries {r : State} (agent : s.out.agent = r.out.agent) (k : ℕ) :
    Carries (withAnalyzer r) (spaRead c k s) (spaRead c k (r.withSpa s.spa)) := by
  unfold spaRead
  rw [withSpa_spa]
  split
  · exact carries_takeFault agent _
  · cases Memory.fetch .raw s.spa.raw k with
    | error e => exact carries_fault e _
    | ok raw =>
      cases Memory.fetch .smooth s.spa.smooth k with
      | error e => exact carries_fault e _
      | ok smooth => exact carries_complete agent _ _

/-- A command of the analyzer reads and writes the analyzer and the outputs alone. -/
theorem exec_carries_withAnalyzer {i : Instr} (own : unitOf i = 4) {r : State}
    (agent : s.out.agent = r.out.agent) :
    Carries (withAnalyzer r) (exec i s) (exec i (r.withSpa s.spa)) := by
  have fault := carries_takeFault agent
  have completed := carries_complete agent
  cases i with
  | spaInit => exact carries_complete (u := s.withSpa (constructed _ s.spa)) agent _ _
  | spaProcess =>
    exact needReady_carries fault rfl (withFrames_carries fault (spaProcess_carries agent))
  | spaF2b | spaB2f => exact withNumAt_carries fault fun _ => completed _ _
  | spaRead k => exact needReady_carries fault rfl (spaRead_carries agent k)
  | _ => simp [unitOf_eq_four_iff, Instr.opcode] at own

end Independence

/-- Settles O20: the other units hand the analyzer through; the analyzer's commands run on the analyzer and
the agent alone, which are the same in both states. -/
theorem analyzerIsIndependent : Obligations.AnalyzerIsIndependent := by
  refine ⟨fun i s t a other => exec_carries_withSpa other s a t, fun i s s' t own spa agent h => ?_⟩
  have same : s'.withSpa s.spa = s' := by rw [spa]; rfl
  exact same ▸ exec_carries_withAnalyzer own agent t h

end Sys2Proof.Proofs

namespace Sys2Proof.Proofs

/-! ### What a command makes of the outputs it finds (rules R200, R209, R210) -/

section Outputs

open Sys2Proof.Machine Sys2Proof.Machine.Laws

variable {c : Config} {p : Params} {n : ℕ} {s u : State} {frames : List Frame}

theorem sampleSteps_withOut (o : Output) (h : sampleSteps c p n s = .ok (frames, u)) :
    sampleSteps c p n (s.withOut o) = .ok (frames, u.withOut o) := by
  have moved := sampleSteps_withSampler (s.withOut o) h
  rw [sampleSteps_frame h]
  exact moved

theorem precondition_withOut (oc : Opcode) (s : State) (o : Output) :
    precondition oc (s.withOut o) = precondition oc s := by
  cases oc <;> rfl

/-! One command performed in two states that differ in the outputs. What it leaves is carried from one to
the other as soon as the two ways to end a command are. -/

section Ends

variable {move : State → State} {o : Output}
  (fault : ∀ r, Carries move (takeFault r s) (takeFault r (s.withOut o)))
  (completed : ∀ rs ev u, Carries move (complete rs ev u) (complete rs ev (u.withOut o)))

include fault in
theorem performReject_carries_withOut (e : Reject) :
    Carries move (performReject e s) (performReject e (s.withOut o)) := by
  cases e with
  | illegalOpcode op => exact fault _
  | malformedOperands oc ops =>
    have same := precondition_withOut oc s o
    cases checked : precondition oc s with
    | some report =>
      rw [performReject_of_precondition checked, performReject_of_precondition (same.trans checked)]
      exact fault report
    | none =>
      rw [performReject_of_firstBadOperand checked rfl,
        performReject_of_firstBadOperand (same.trans checked) rfl]
      exact fault _

include fault completed

theorem oscSample_carries_withOut : Carries move (oscSample c s) (oscSample c (s.withOut o)) := by
  refine needSnap_carries fault rfl fun p => ?_
  cases sampled : sampleStep c p s with
  | error e => exact carries_fault e _
  | ok sample =>
    rw [sampleStep_withOut o sampled]
    exact completed _ _ _

theorem oscBlock_carries_withOut : Carries move (oscBlock c s) (oscBlock c (s.withOut o)) := by
  refine needParams_carries fault rfl fun p => ?_
  rw [show (s.withOut o).withSnap p = (s.withSnap p).withOut o from rfl]
  cases sampled : sampleSteps c p c.blockFrames (s.withSnap p) with
  | error e => exact carries_fault e _
  | ok samples =>
    rw [sampleSteps_withOut o sampled]
    exact completed _ _ _

theorem spaRead_carries_withOut (k : ℕ) : Carries move (spaRead c k s) (spaRead c k (s.withOut o)) := by
  unfold spaRead
  rw [withOut_spa]
  split
  · exact fault _
  · cases Memory.fetch .raw s.spa.raw k with
    | error e => exact carries_fault e _
    | ok raw =>
      cases Memory.fetch .smooth s.spa.smooth k with
      | error e => exact carries_fault e _
      | ok smooth => exact completed _ _ s

omit fault in
theorem spaProcess_carries_withOut (frames : List Frame) :
    Carries move (spaProcess c frames s) (spaProcess c frames (s.withOut o)) := by
  unfold spaProcess
  rw [withOut_spa]
  cases processFrames c frames s.spa with
  | error e => exact carries_fault e _
  | ok a => exact completed _ _ (s.withSpa a)

/-- A command looks at the outputs it finds only where it ends. -/
theorem exec_carries_withOut (i : Instr) : Carries move (exec i s) (exec i (s.withOut o)) := by
  cases i with
  | setWaveform => exact withKind_carries fault fun _ => completed _ _ (s.withPar _)
  | setFreq | setAmp | setDuty => exact withNumAt_carries fault fun _ => completed _ _ (s.withPar _)
  | setFm | setAm | setDcm | setFilter | setCutoffLfo | setResLfo =>
    exact withNum2_carries fault fun _ _ => completed _ _ (s.withPar _)
  | fifoClear => exact completed _ _ (State.countClock _)
  | fifoRead => exact completed _ _ (State.withFifo _ _)
  | fifoWrite => exact withFrames_carries fault fun _ => completed _ _ (State.withFifo _ _)
  | fifoLevel => exact completed _ _ s
  | oscReset | fltReset => exact completed _ _ (State.withFlt _ _)
  | oscSnap => exact needParams_carries fault rfl fun _ => completed _ _ (s.withSnap _)
  | oscSample => exact oscSample_carries_withOut fault completed
  | oscBlock => exact oscBlock_carries_withOut fault completed
  | fltStep =>
    exact withNumAt_carries fault fun _ => withNumAt_carries fault fun _ =>
      withNumAt_carries fault fun _ => completed _ _ (s.withFlt _)
  | spaInit => exact completed _ _ (s.withSpa _)
  | spaProcess =>
    exact needReady_carries fault rfl (withFrames_carries fault (spaProcess_carries_withOut completed))
  | spaF2b | spaB2f => exact withNumAt_carries fault fun _ => completed _ _ s
  | spaRead k => exact needReady_carries fault rfl (spaRead_carries_withOut fault completed k)

end Ends

/-! The agent. -/

/-- The same state with its outputs addressed to `agent`. -/
def addressedTo (agent : Option Agent) (t : State) : State := t.withOut { t.out with agent := agent }

theorem takeFault_carries_addressedTo (o : Output) (report : FaultReport) :
    Carries (addressedTo o.agent) (takeFault report s) (takeFault report (s.withOut o)) := carries_next _

theorem complete_carries_addressedTo (o : Output) (rs : List Operand) (ev : Events) (u : State) :
    Carries (addressedTo o.agent) (complete rs ev u) (complete rs ev (u.withOut o)) := carries_next _

/-- The agent of a transaction is nothing but where its outputs go. -/
theorem step_carries_addressedTo {r : Request} {rest : List Request} (port : s.port = r :: rest)
    (agent : Agent) :
    Carries (addressedTo (some agent)) (step s)
      (step (s.withPort ({ r with agent := agent } :: rest))) := by
  have fault := takeFault_carries_addressedTo (s := s.accept r rest) ⟨some agent, .idle, Events.none⟩
  have reissued : (s.withPort ({ r with agent := agent } :: rest)).port =
    { r with agent := agent } :: rest := rfl
  cases decoded : decode r.op r.operands with
  | ok i =>
    rw [stepRunsDecoded s r rest i port decoded, stepRunsDecoded _ _ rest i reissued decoded]
    exact exec_carries_withOut fault (complete_carries_addressedTo _) i
  | error e =>
    rw [step_of_reject port decoded, step_of_reject reissued decoded]
    exact performReject_carries_withOut fault e

/-! The fault report. -/

/-- What taking the fault that `t` reports would leave of `s`; where `t` reports none, `t` addressed to
the agent of `s`. -/
def faultTaken (s t : State) : State :=
  match t.out.reply with
  | .fault report => s.withOut ⟨s.out.agent, .fault report, Events.none⟩
  | _ => addressedTo s.out.agent t

theorem faultTaken_of_fault {t : State} {report : FaultReport} (h : t.out.reply = .fault report) :
    faultTaken s t = s.withOut ⟨s.out.agent, .fault report, Events.none⟩ := by
  unfold faultTaken
  rw [h]

theorem takeFault_carries_faultTaken (s : State) (report : FaultReport) :
    Carries (faultTaken s) (takeFault report s) (takeFault report (s.withOut s.out)) := carries_next _

theorem complete_carries_faultTaken (s : State) (rs : List Operand) (ev : Events) (u : State) :
    Carries (faultTaken s) (complete rs ev u) (complete rs ev (u.withOut s.out)) := carries_next _

/-- A command that reports a fault has taken it in the state it started from. -/
theorem exec_eq_faultTaken {i : Instr} {t : State} (h : exec i s = .next t) : t = faultTaken s t := by
  have again : exec i (s.withOut s.out) = .next (faultTaken s t) :=
    exec_carries_withOut (takeFault_carries_faultTaken s) (complete_carries_faultTaken s) i t h
  rw [withOut_self, h] at again
  exact Host.Outcome.next.inj again

end Outputs

/-- Settles O8: neither a rejection nor a command looks at the agent, but to address its outputs. -/
theorem issuerIsNotChecked : Obligations.IssuerIsNotChecked :=
  fun _ t _ _ agent port h => step_carries_addressedTo port agent t h

/-- Settles O15: every fault report of a command is `takeFault`'s, on the state the command found. -/
theorem faultChangesNothing : Obligations.FaultChangesNothing :=
  fun _ _ _ _ h reply => (exec_eq_faultTaken h).trans (faultTaken_of_fault reply)

end Sys2Proof.Proofs
